-- ==== Sys2Proof/Word.lean ====
section
/-! DEFINITION. The value types of 00_scope.md R7: a byte, a u16 and a u32, all unsigned. -/

namespace Sys2Proof

/-- A byte, 0..255 (00_scope.md R7). -/
abbrev Byte := BitVec 8

/-- A u16, 0..65535 (00_scope.md R7). -/
abbrev Half := BitVec 16

/-- A u32 and a host register value (00_scope.md R7, R5 "host register width"). -/
abbrev Word := BitVec 32

end Sys2Proof
end

