-- ==== Sys2Proof/Config.lean ====
section
/-! DEFINITION. What an implementation fixes (00_scope.md R5) and the free values of what the spec leaves open. -/

namespace Sys2Proof

/-- `P_FIELD_ORDER`: byte order of the frame's type and length fields (00_scope.md R5, R9; D6). -/
inductive FieldOrder where
  | be  -- high byte first
  | le  -- low byte first
deriving DecidableEq, Repr

/-- `P_CHECKSUM`: which frame checksum the block uses (00_scope.md R5, 40_frame_codec.md R110; D4).
DEDUCED (log 5): the spec's default, or some function from a byte list to a byte of which nothing is known. -/
inductive Checksum where
  | sum8             -- the default SUM8
  | other (n : Nat)  -- an uninterpreted function, `Config.otherChecksum n`
deriving DecidableEq, Repr

/-- A checksum function other than SUM8: D0 §9 leaves the algorithm open, so no proof can see a value of it (log 5). -/
opaque Config.otherChecksum : Nat → List Byte → Byte

/-- The unspecified byte that the `n`-th host read of a byte with no value returns (20_memory.md R62 "the model draws any
value"; 93_implementation_defined.md "a draw per read"; log 7). -/
opaque Config.freeByte : Nat → Byte

/-- The open parameters of 00_scope.md R5. They are plain data, so that `State` can carry them (log 4).
The parameters whose value the source fixes (`BLOCK_PAYLOAD`, `PAD_BYTE`) are `Config.blockPayload`, `Config.padByte`. -/
structure Params where
  startMarker  : Byte        -- P_START_MARKER
  checksum     : Checksum    -- P_CHECKSUM
  fieldOrder   : FieldOrder  -- P_FIELD_ORDER
  maxRxPayload : Half        -- P_MAX_RX_PAYLOAD, 0..65535
  rxqDepth     : Byte        -- P_RXQ_DEPTH, 1..255
  imageMax     : Word        -- P_IMAGE_MAX, 1..2^32-1
deriving DecidableEq, Repr

/-- The ranges of 00_scope.md R5 that the field widths do not already give. -/
abbrev Params.wf (p : Params) : Prop := p.rxqDepth ≠ 0 ∧ p.imageMax ≠ 0

/-- The "default" column of 00_scope.md R5, "used by every test vector in 95_test_vectors.md". -/
def Params.default : Params :=
  { startMarker := 0x01, checksum := .sum8, fieldOrder := .be, maxRxPayload := 65535, rxqDepth := 8,
    imageMax := 1048576 }

/-- `BLOCK_PAYLOAD` (00_scope.md R5): bytes of payload per block. -/
def Config.blockPayload : Nat := 128

/-- `PAD_BYTE` (00_scope.md R5): pad byte of the final block. -/
def Config.padByte : Byte := 0x1A

end Sys2Proof
end

