-- ==== Sys2Proof/Syntax.lean ====
section
/-! DEFINITION. The syntax of what spec/opcode_table.json lists: nine commands, nine step kinds, seven wire formats. -/

namespace Sys2Proof

/-- The four buffers of 20_memory.md R60. -/
inductive Space where
  | txbuf
  | rxbuf
  | image
  | vbuf
deriving DecidableEq, Repr

/-- Which way a frame goes over the serial line (opcode_table.json, row FRAME: "wire: tx/rx frame"). -/
inductive Direction where
  | rx  -- from the device to the block
  | tx  -- from the block to the device
deriving DecidableEq, Repr

/-- The nine commands of 30_encoding.md R81. -/
inductive Command where
  | nop
  | fcSend
  | fcRxPop
  | fcRxRestart
  | portGrantTe
  | portReturnFc
  | teStart
  | teCancel
  | blockVerify
deriving DecidableEq, Repr

/-- One constructor per row of spec/opcode_table.json. -/
inductive Instr where
  -- commands: one 32-bit write to CMD (30_encoding.md R80, R81)
  | nop
  | fcSend
  | fcRxPop
  | fcRxRestart
  | portGrantTe
  | portReturnFc
  | teStart
  | teCancel
  | blockVerify
  -- steps of the environment and of the host (30_encoding.md R84)
  | rxByte (b : Byte)
  | timeout
  | portFault
  | portReopen
  | reset
  | regWr (off : Byte) (v : Word)
  | regRd (off : Byte)
  | bufWr (space : Space) (a : Word) (b : Byte)
  | bufRd (space : Space) (a : Word)
  -- wire formats and symbols (30_encoding.md R86, R88 to R91)
  | frame (dir : Direction) (id : Byte) (type : Half) (payload : List Byte)
  | block (blk : Byte) (payload : List Byte)
  | eot
  | canCan
  | ack
  | nak
  | handshakeC
deriving DecidableEq, Repr

/-- The instruction a command is. -/
def Command.toInstr : Command → Instr
  | .nop => .nop
  | .fcSend => .fcSend
  | .fcRxPop => .fcRxPop
  | .fcRxRestart => .fcRxRestart
  | .portGrantTe => .portGrantTe
  | .portReturnFc => .portReturnFc
  | .teStart => .teStart
  | .teCancel => .teCancel
  | .blockVerify => .blockVerify

/-- The spaces of encodings. 30_encoding.md keeps three kinds apart (command word, step tag, wire format), and on the wire
the direction and the unit that owns the transport tell the formats apart (41_control.md R144): 0x01 is the opcode of
FC_SEND, the default start marker of a frame and the SOH of a block. DESIGN CHOICE (log 3): a packet says which it is. -/
inductive Lane where
  | command  -- a word the host writes to CMD
  | step     -- a step tag and its arguments
  | frameRx  -- a frame arriving at FC
  | frameTx  -- a frame FC transmits
  | blockRx  -- a block-transfer symbol arriving at TE
  | blockTx  -- a block-transfer format TE transmits
deriving DecidableEq, Repr

/-- Encoded steps of one lane, first byte first. DESIGN CHOICE (log 1, 3): the agents' steps lie in `State.pending` as
packets, since the block itself fetches nothing (20_memory.md R69). -/
structure Packet where
  lane  : Lane
  bytes : List Byte
deriving DecidableEq, Repr

end Sys2Proof
end

