-- ==== Sys2Proof/WellFormed.lean ====
section
/-! DEFINITION. Which instruction terms the spec's encodings admit. -/

namespace Sys2Proof

/-- A word offset of the register map: a multiple of 4 from 0x00 to 0x7C (10_state.md R24, 20_memory.md R64). -/
def regOffsetOk (off : Byte) : Bool := off.toNat % 4 == 0 && decide (off.toNat < 128)

/-- A frame payload fits the 16-bit length field (40_frame_codec.md R112). -/
def framePayloadOk (payload : List Byte) : Bool := decide (payload.length ≤ 65535)

/-- A block payload is exactly 128 bytes (30_encoding.md R88). -/
def blockPayloadOk (payload : List Byte) : Bool := payload.length == Config.blockPayload

/-- The checks an instruction term must pass to have an encoding. The bound of a buffer address depends on the parameter
`P_IMAGE_MAX` and is the step's own check (20_memory.md R60). -/
def Instr.wellFormed : Instr → Bool
  | .regWr off _ => regOffsetOk off
  | .regRd off => regOffsetOk off
  | .frame _ _ _ payload => framePayloadOk payload
  | .block _ payload => blockPayloadOk payload
  | .nop | .fcSend | .fcRxPop | .fcRxRestart | .portGrantTe | .portReturnFc | .teStart | .teCancel | .blockVerify => true
  | .rxByte _ | .timeout | .portFault | .portReopen | .reset | .bufWr _ _ _ | .bufRd _ _ => true
  | .eot | .canCan | .ack | .nak | .handshakeC => true

end Sys2Proof
end

