-- ==== Sys2Proof/Decode.lean ====
section
/-! DEFINITION. The wire and byte-order functions (00_scope.md R9, 40_frame_codec.md R110 to R112, 42_crc16_verifier.md R160,
30_encoding.md R88), the decoder, and after it the encoder, both written from 30_encoding.md. -/

namespace Sys2Proof

/-! ### Byte order and checksums -/

/-- `be16(v) = [v[15:8], v[7:0]]` (00_scope.md R9). -/
def be16 (v : Half) : List Byte := [v.extractLsb' 8 8, v.extractLsb' 0 8]

/-- `le16(v) = [v[7:0], v[15:8]]` (00_scope.md R9). -/
def le16 (v : Half) : List Byte := [v.extractLsb' 0 8, v.extractLsb' 8 8]

/-- `put16(v)`: be16 or le16 by `P_FIELD_ORDER` (00_scope.md R9). -/
def put16 (o : FieldOrder) (v : Half) : List Byte :=
  match o with
  | .be => be16 v
  | .le => le16 v

/-- `field16(a, b)`: `a*256 + b` or `b*256 + a` by `P_FIELD_ORDER` (00_scope.md R9). -/
def field16 (o : FieldOrder) (a b : Byte) : Half :=
  match o with
  | .be => a ++ b
  | .le => b ++ a

/-- A u32 from four bytes, least significant first: the layout of a trace packet (DESIGN CHOICE, log 2). -/
def word32 (b0 b1 b2 b3 : Byte) : Word := b3 ++ b2 ++ b1 ++ b0

/-- The four bytes of a u32, least significant first (DESIGN CHOICE, log 2). -/
def le32 (v : Word) : List Byte := [v.extractLsb' 0 8, v.extractLsb' 8 8, v.extractLsb' 16 8, v.extractLsb' 24 8]

/-- `SUM8(xs)`, the sum of the bytes mod 256 (40_frame_codec.md R110). -/
def sum8 (xs : List Byte) : Byte := xs.foldl (· + ·) 0

/-- `P_CHECKSUM(xs)` (40_frame_codec.md R110). -/
def checksumOf (c : Checksum) (xs : List Byte) : Byte :=
  match c with
  | .sum8 => sum8 xs
  | .other n => Config.otherChecksum n xs

/-- One shift of the CRC register (42_crc16_verifier.md R160). -/
def crcShift (c : Half) : Half := if c.msb then (c <<< 1) ^^^ 0x1021 else c <<< 1

/-- One byte into the CRC register: it enters at the top, then eight shifts (42_crc16_verifier.md R160). -/
def crcByte (c : Half) (b : Byte) : Half :=
  crcShift (crcShift (crcShift (crcShift (crcShift (crcShift (crcShift (crcShift
    (c ^^^ (b.setWidth 16 <<< 8)))))))))

/-- `crc16(xs)`: polynomial 0x1021, initial value 0, MSB first, no final XOR (42_crc16_verifier.md R160). -/
def crc16 (xs : List Byte) : Half := xs.foldl crcByte 0x0000

/-- The frame without its checksum byte: marker, id, type, length, payload (40_frame_codec.md R111, R112). -/
def frameBody (p : Params) (id : Byte) (type : Half) (payload : List Byte) : List Byte :=
  [p.startMarker, id] ++ put16 p.fieldOrder type ++ put16 p.fieldOrder (BitVec.ofNat 16 payload.length) ++ payload

/-- `encode(id, type, payload)`, a complete frame (40_frame_codec.md R112; 30_encoding.md R86). -/
def encodeFrame (p : Params) (id : Byte) (type : Half) (payload : List Byte) : List Byte :=
  frameBody p id type payload ++ [checksumOf p.checksum (frameBody p id type payload)]

/-- The complement of a block number, `255 - b` (30_encoding.md R88). -/
def complement (b : Byte) : Byte := 255 - b

/-- A data block on the wire from its number and payload: SOH, number, complement, payload, CRC high byte first
(30_encoding.md R88, 43_transfer_engine.md R184, 42_crc16_verifier.md R162). -/
def encodeBlock (blk : Byte) (payload : List Byte) : List Byte :=
  [0x01, blk, complement blk] ++ payload ++ be16 (crc16 payload)

/-! ### Opcodes, tags, symbols -/

/-- The opcode of a command (30_encoding.md R81). -/
def Command.opcode : Command → Byte
  | .nop => 0x00
  | .fcSend => 0x01
  | .fcRxPop => 0x02
  | .fcRxRestart => 0x03
  | .portGrantTe => 0x10
  | .portReturnFc => 0x11
  | .teStart => 0x20
  | .teCancel => 0x21
  | .blockVerify => 0x30

/-- The command an opcode selects, if it is not illegal (30_encoding.md R81, R82). -/
def Command.ofOpcode? (op : Byte) : Option Command :=
  if op = 0x00 then some .nop
  else if op = 0x01 then some .fcSend
  else if op = 0x02 then some .fcRxPop
  else if op = 0x03 then some .fcRxRestart
  else if op = 0x10 then some .portGrantTe
  else if op = 0x11 then some .portReturnFc
  else if op = 0x20 then some .teStart
  else if op = 0x21 then some .teCancel
  else if op = 0x30 then some .blockVerify
  else none

/-- The code of a buffer in a trace packet, in the order of opcode_table.json "TXBUF|RXBUF|IMAGE|VBUF"
(DESIGN CHOICE, log 2). -/
def Space.code : Space → Byte
  | .txbuf => 0
  | .rxbuf => 1
  | .image => 2
  | .vbuf => 3

/-- The buffer a code names (DESIGN CHOICE, log 2). -/
def Space.ofCode? (c : Byte) : Option Space :=
  if c = 0 then some .txbuf
  else if c = 1 then some .rxbuf
  else if c = 2 then some .image
  else if c = 3 then some .vbuf
  else none

/-! ### The decoder -/

/-- Why bytes are no encoding. -/
inductive DecodeError where
  | truncated                         -- the packet ends inside an encoding
  | unknownTag (b : Byte)             -- no step tag of 30_encoding.md R84
  | badRegOffset (off : Byte)         -- no aligned word of REG (20_memory.md R64, 10_state.md R24)
  | unknownSpace (b : Byte)           -- no buffer code
  | notStartMarker (b : Byte)         -- a frame starts with P_START_MARKER (30_encoding.md R86)
  | frameChecksum (received : Byte)   -- the checksum byte is not P_CHECKSUM of the bytes before it (30_encoding.md R86)
  | blockComplement (received : Byte) -- NBLK is not 255 - BLK (30_encoding.md R88)
  | blockCrc (hi lo : Byte)           -- the CRC bytes are not the CRC of the payload (30_encoding.md R88)
  | unknownSymbol (b : Byte)          -- no symbol of 30_encoding.md R88 to R91 in this direction
deriving DecidableEq, Repr

/-- What a decoder answers: the instruction and the bytes after it, or the reason there is none. -/
abbrev Decoded := Except DecodeError (Instr × List Byte)

/-- The command word: the opcode is bits 7..0, bits 31..8 are ignored (30_encoding.md R80). An illegal opcode is no row of the
table: it is the REG_WR to CMD that it is on the bus, whose effect is 41_control.md R141 (log 3). -/
def decodeCommand : List Byte → Decoded
  | op :: b1 :: b2 :: b3 :: rest =>
    match Command.ofOpcode? op with
    | some c => .ok (c.toInstr, rest)
    | none => .ok (.regWr 0x00 (word32 op b1 b2 b3), rest)
  | _ => .error .truncated

/-- The arguments of REG_WR (tag 0x90). -/
def decodeRegWr : List Byte → Decoded
  | off :: v0 :: v1 :: v2 :: v3 :: rest =>
    if regOffsetOk off then .ok (.regWr off (word32 v0 v1 v2 v3), rest) else .error (.badRegOffset off)
  | _ => .error .truncated

/-- The arguments of REG_RD (tag 0x91). -/
def decodeRegRd : List Byte → Decoded
  | off :: rest => if regOffsetOk off then .ok (.regRd off, rest) else .error (.badRegOffset off)
  | _ => .error .truncated

/-- The arguments of BUF_WR (tag 0x92). -/
def decodeBufWr : List Byte → Decoded
  | sp :: a0 :: a1 :: a2 :: a3 :: b :: rest =>
    match Space.ofCode? sp with
    | some space => .ok (.bufWr space (word32 a0 a1 a2 a3) b, rest)
    | none => .error (.unknownSpace sp)
  | _ => .error .truncated

/-- The arguments of BUF_RD (tag 0x93). -/
def decodeBufRd : List Byte → Decoded
  | sp :: a0 :: a1 :: a2 :: a3 :: rest =>
    match Space.ofCode? sp with
    | some space => .ok (.bufRd space (word32 a0 a1 a2 a3), rest)
    | none => .error (.unknownSpace sp)
  | _ => .error .truncated

/-- The argument of RX_BYTE (tag 0x80). -/
def decodeRxByte : List Byte → Decoded
  | b :: rest => .ok (.rxByte b, rest)
  | _ => .error .truncated

/-- A step: its tag (30_encoding.md R84), then its arguments (layout: DESIGN CHOICE, log 2). -/
def decodeStep : List Byte → Decoded
  | tag :: rest =>
    if tag = 0x80 then decodeRxByte rest
    else if tag = 0x81 then .ok (.timeout, rest)
    else if tag = 0x82 then .ok (.portFault, rest)
    else if tag = 0x83 then .ok (.portReopen, rest)
    else if tag = 0x84 then .ok (.reset, rest)
    else if tag = 0x90 then decodeRegWr rest
    else if tag = 0x91 then decodeRegRd rest
    else if tag = 0x92 then decodeBufWr rest
    else if tag = 0x93 then decodeBufRd rest
    else .error (.unknownTag tag)
  | _ => .error .truncated

/-- A frame on the wire (30_encoding.md R86, R87). -/
def decodeFrame (p : Params) (dir : Direction) : List Byte → Decoded
  | m :: id :: t0 :: t1 :: l0 :: l1 :: rest =>
    if m = p.startMarker then
      let len := (field16 p.fieldOrder l0 l1).toNat
      match rest.drop len with
      | c :: tail =>
        if c = checksumOf p.checksum ([m, id, t0, t1, l0, l1] ++ rest.take len) then
          .ok (.frame dir id (field16 p.fieldOrder t0 t1) (rest.take len), tail)
        else .error (.frameChecksum c)
      | [] => .error .truncated
    else .error (.notStartMarker m)
  | _ => .error .truncated

/-- A data block on the wire after its SOH (30_encoding.md R88). -/
def decodeBlock : List Byte → Decoded
  | blk :: nblk :: rest =>
    match rest.drop Config.blockPayload with
    | hi :: lo :: tail =>
      if nblk = complement blk then
        if [hi, lo] = be16 (crc16 (rest.take Config.blockPayload)) then
          .ok (.block blk (rest.take Config.blockPayload), tail)
        else .error (.blockCrc hi lo)
      else .error (.blockComplement nblk)
    | _ => .error .truncated
  | _ => .error .truncated

/-- The second CAN of the cancel sequence (30_encoding.md R90). -/
def decodeSecondCan : List Byte → Decoded
  | b :: rest => if b = 0x18 then .ok (.canCan, rest) else .error (.unknownSymbol b)
  | _ => .error .truncated

/-- What TE transmits: a block, EOT, CAN CAN (30_encoding.md R88 to R91). -/
def decodeBlockTx : List Byte → Decoded
  | b :: rest =>
    if b = 0x01 then decodeBlock rest
    else if b = 0x04 then .ok (.eot, rest)
    else if b = 0x18 then decodeSecondCan rest
    else .error (.unknownSymbol b)
  | _ => .error .truncated

/-- What the device replies: ACK, NAK, 'C' (30_encoding.md R89). Any other byte that reaches TE is an RX_BYTE step. -/
def decodeBlockRx : List Byte → Decoded
  | b :: rest =>
    if b = 0x06 then .ok (.ack, rest)
    else if b = 0x15 then .ok (.nak, rest)
    else if b = 0x43 then .ok (.handshakeC, rest)
    else .error (.unknownSymbol b)
  | _ => .error .truncated

/-- The decoder: total, and it rejects by name. -/
def decode (p : Params) (pk : Packet) : Decoded :=
  match pk.lane with
  | .command => decodeCommand pk.bytes
  | .step => decodeStep pk.bytes
  | .frameRx => decodeFrame p .rx pk.bytes
  | .frameTx => decodeFrame p .tx pk.bytes
  | .blockRx => decodeBlockRx pk.bytes
  | .blockTx => decodeBlockTx pk.bytes

/-! ### The words of spec/opcode_table.json -/

/-- `n` bytes of a number, least significant first. -/
def natBytes : Nat → Nat → List Byte
  | 0, _ => []
  | n + 1, w => BitVec.ofNat 8 w :: natBytes n (w / 256)

/-- The lane in which a word of the table lies, from its width and first byte. A byte that no row of the table has is a
command word with an illegal opcode. 0x01 is a row of three lanes: in 32 bits or fewer it is the command FC_SEND, in 133
bytes a block, in any other width a frame (DESIGN CHOICE, log 3). -/
def tableLane (nbits : Nat) (b : Byte) : Lane :=
  if b = 0x01 && decide (32 < nbits) then (if nbits = 1064 then .blockTx else .frameRx)
  else if (Command.ofOpcode? b).isSome then .command
  else if b = 0x04 || b = 0x18 then .blockTx
  else if b = 0x06 || b = 0x15 || b = 0x43 then .blockRx
  else if b = 0x80 || b = 0x81 || b = 0x82 || b = 0x83 || b = 0x84 || b = 0x90 || b = 0x91 || b = 0x92 || b = 0x93 then .step
  else .command

/-- A word of the table as a packet, with zeros for the bits above `nbits` (the longest step is 7 bytes). -/
def tablePacket (nbits w : Nat) : Packet :=
  { lane := tableLane nbits (BitVec.ofNat 8 w), bytes := natBytes (max ((nbits + 7) / 8) 8) (w % 2 ^ nbits) }

/-- The same packet, cut to the bytes of its first instruction. -/
def tableInstrPacket (p : Params) (nbits w : Nat) : Packet :=
  match decode p (tablePacket nbits w) with
  | .ok (_, rest) =>
    { tablePacket nbits w with
      bytes := (tablePacket nbits w).bytes.take ((tablePacket nbits w).bytes.length - rest.length) }
  | .error _ => tablePacket nbits w

/-- The instruction the decoder reads from a word of spec/opcode_table.json, under the default parameters. -/
def decodeTableWord (nbits w : Nat) : Option Instr :=
  match decode Params.default (tablePacket nbits w) with
  | .ok (i, _) => some i
  | .error _ => none

/-! ### The encoder -/

/-- The packet of a command: its opcode and three ignored bytes, sent as zero (30_encoding.md R80). -/
def commandPacket (c : Command) : Packet := { lane := .command, bytes := [c.opcode, 0, 0, 0] }

/-- The encoding of an instruction (30_encoding.md R80, R81, R84, R86, R88 to R91). -/
def encode (p : Params) : Instr → Packet
  | .nop => commandPacket .nop
  | .fcSend => commandPacket .fcSend
  | .fcRxPop => commandPacket .fcRxPop
  | .fcRxRestart => commandPacket .fcRxRestart
  | .portGrantTe => commandPacket .portGrantTe
  | .portReturnFc => commandPacket .portReturnFc
  | .teStart => commandPacket .teStart
  | .teCancel => commandPacket .teCancel
  | .blockVerify => commandPacket .blockVerify
  | .rxByte b => { lane := .step, bytes := [0x80, b] }
  | .timeout => { lane := .step, bytes := [0x81] }
  | .portFault => { lane := .step, bytes := [0x82] }
  | .portReopen => { lane := .step, bytes := [0x83] }
  | .reset => { lane := .step, bytes := [0x84] }
  | .regWr off v => { lane := .step, bytes := [0x90, off] ++ le32 v }
  | .regRd off => { lane := .step, bytes := [0x91, off] }
  | .bufWr space a b => { lane := .step, bytes := [0x92, space.code] ++ le32 a ++ [b] }
  | .bufRd space a => { lane := .step, bytes := [0x93, space.code] ++ le32 a }
  | .frame .rx id type payload => { lane := .frameRx, bytes := encodeFrame p id type payload }
  | .frame .tx id type payload => { lane := .frameTx, bytes := encodeFrame p id type payload }
  | .block blk payload => { lane := .blockTx, bytes := encodeBlock blk payload }
  | .eot => { lane := .blockTx, bytes := [0x04] }
  | .canCan => { lane := .blockTx, bytes := [0x18, 0x18] }
  | .ack => { lane := .blockRx, bytes := [0x06] }
  | .nak => { lane := .blockRx, bytes := [0x15] }
  | .handshakeC => { lane := .blockRx, bytes := [0x43] }

end Sys2Proof
end

