-- ==== Sys2Proof/Machine/State.lean ====
section
/-! DEFINITION. The state record of 10_state.md R21, the model's own fields beside it, the reasons a step stops, and reset. -/

namespace Sys2Proof.Machine

/-- The codes of `CMD_RESULT.RESULT` (60_exceptions.md R231). The reserved codes 0x08 to 0xFF are "never produced": the type
has no name for them (DEDUCED, log 15). -/
inductive ResultCode where
  | ok
  | illegalOpcode
  | notOwner
  | sessionBusy
  | portError
  | rxqEmpty
  | lengthError
  | noSession
deriving DecidableEq, Repr

/-- Who owns the serial transport: `PORT.OWNER` (10_state.md R28). -/
inductive Owner where
  | fc
  | te
deriving DecidableEq, Repr

/-- `TE_STATUS.STATE` (10_state.md R35). Code 7 is reserved and never held (log 15). -/
inductive TeState where
  | idle
  | init
  | awaitHandshake
  | sending
  | complete
  | aborted
  | cancelled
deriving DecidableEq, Repr

/-- `TE_STATUS.PHASE` (10_state.md R35). -/
inductive TePhase where
  | data
  | eot
deriving DecidableEq, Repr

/-- `TE_ERR.KIND` (60_exceptions.md R232). Codes 5 to 15 are reserved and never produced (log 15). -/
inductive ErrKind where
  | none
  | handshakeTimeout
  | blockRetryExhausted
  | transferCancelled
  | portError
deriving DecidableEq, Repr

/-- `TE_ERR.PHASE` (10_state.md R44): where the session ended. -/
inductive ErrPhase where
  | none
  | handshake
  | data
  | eot
deriving DecidableEq, Repr

/-- `TE_ERR` (10_state.md R44). -/
structure TeErr where
  kind    : ErrKind
  phase   : ErrPhase
  block   : Byte
  retries : Byte
deriving DecidableEq, Repr

/-- `VERIFY` (10_state.md R46). -/
structure Verify where
  sohOk   : Bool
  compOk  : Bool
  crcOk   : Bool
  valid   : Bool
  crcCalc : Half
deriving DecidableEq, Repr

/-- The sticky bits 1 to 5 of `IRQ_PENDING` (10_state.md R49); bit 0 is a level and has no storage. -/
structure IrqSticky where
  framing  : Bool  -- bit 1
  rxqDrop  : Bool  -- bit 2
  progress : Bool  -- bit 3
  teDone   : Bool  -- bit 4
  portErr  : Bool  -- bit 5
deriving DecidableEq, Repr

/-- A decoded frame as `RXQ` holds it (10_state.md R48, 00_scope.md R12). -/
structure Frame where
  id       : Byte
  type     : Half
  payload  : List Byte
  checksum : Byte
deriving DecidableEq, Repr

/-- A buffer: a map from byte address to a byte or no value (10_state.md R21), as its listed bytes in rising order of address.
An address that is not listed holds no value (20_memory.md R62). -/
abbrev Memory := List Host.Cell

/-- The machine's state: the record of 10_state.md R21 and, last, the model's own fields. -/
structure State where
  /-- The parameters of 00_scope.md R5, an argument of every step that no step changes (DESIGN CHOICE, log 4). -/
  params : Params
  -- control (10_state.md R27, R28)
  result : ResultCode
  owner : Owner
  linkUp : Bool
  -- Frame Codec registers (10_state.md R29 to R34)
  txId : Byte
  txType : Half
  txLen : Half
  rxId : Byte
  rxType : Half
  rxLen : Half
  rxCsum : Byte
  framingErrs : Half
  rxqDrops : Half
  -- Transfer Engine registers (10_state.md R35 to R45)
  teState : TeState
  tePhase : TePhase
  imgLen : Word
  totalBlocks : Word
  curIndex : Word
  retryLimit : Byte
  retriesLeft : Byte
  hsTimeoutMs : Word
  blkTimeoutMs : Word
  progressEn : Bool
  hwFlow : Bool
  swFlow : Bool
  teErr : TeErr
  progress : Word
  -- CRC unit and interrupts (10_state.md R46, R49, R50)
  verify : Verify
  irq : IrqSticky
  irqEnable : BitVec 6
  -- internal state (10_state.md R47, R48, R52)
  rxwin : List Byte
  rxq : List Frame
  txlog : List Byte
  -- buffers (20_memory.md R60)
  txbuf : Memory
  rxbuf : Memory
  image : Memory
  vbuf : Memory
  /-- The encoded steps the host and the environment are still to take, next one first (DESIGN CHOICE, log 1). -/
  pending : List Packet
  /-- The value the host's last read returned (DESIGN CHOICE, log 6). -/
  readData : Word
  /-- How many unspecified bytes have been drawn: the argument of the free value `Config.freeByte` (DESIGN CHOICE, log 7). -/
  draws : Nat
deriving DecidableEq, Repr

/-- Why the machine stops with a fault. -/
inductive Fault where
  /-- A step consumed a buffer byte with no value (60_exceptions.md R246, 20_memory.md R62). Raised by FC_SEND, by
  BLOCK_VERIFY and by every step that transmits a block. Safe: the spec's own model fault, "toward unprovable". -/
  | uninitByte (space : Space) (addr : Nat)
deriving DecidableEq, Repr

/-- The environment events that 60_exceptions.md R246 calls "not enabled" in some states. -/
inductive EnvEvent where
  | rxByte
  | timeout
  | portFault
  | portReopen
deriving DecidableEq, Repr

/-- Why there is no step. -/
inductive Refusal where
  /-- An instruction that has no meaning yet: raised in Machine/Dispatch.lean only, by no instruction now. Safe. -/
  | notModelled (mnemonic : String)
  /-- The next packet holds no encoding: raised by `step`. Safe: no agent of the spec takes such a step. -/
  | undecodable (reason : DecodeError)
  /-- A REG access that is not a whole aligned word of the map (20_memory.md R64, 60_exceptions.md R246): raised by REG_WR and
  REG_RD. Safe: "no step (refused)". -/
  | regAccess (off : Byte)
  /-- A buffer access at or beyond the space's size (20_memory.md R60, 60_exceptions.md R246): raised by BUF_WR and BUF_RD.
  Safe: "no step". -/
  | noSuchAddress (space : Space) (addr : Nat)
  /-- The event is not enabled (60_exceptions.md R246): raised by RX_BYTE, ACK, NAK and HANDSHAKE_C while the link is down,
  TIMEOUT with no active session, PORT_FAULT while down, PORT_REOPEN while up. Unsafe only if the real transport can
  produce such an event (92_eei_decisions.md D41). -/
  | notEnabled (event : EnvEvent)
  /-- No reply of the device makes TE transmit these bytes in this state (43_transfer_engine.md R186 to R191, R197; 20_memory.md
  R72): raised by BLOCK and EOT. Safe: the transmission does not happen, and no step of the spec is lost. -/
  | mayNotTransmit
  /-- A FRAME or BLOCK term whose payload has no encoding (40_frame_codec.md R112, 30_encoding.md R88): raised by FRAME and
  BLOCK on ill-formed terms, which the decoder never gives. Safe. -/
  | malformedWire
deriving DecidableEq, Repr

/-- The state right after reset (70_reset_and_hazards.md R260, R261), with nothing transmitted yet and no step pending. The
model's own fields: the default parameters (log 4), no pending step (log 1), nothing read (log 6), nothing drawn (log 7). -/
def State.reset : State where
  params := Params.default
  result := .ok
  owner := .fc
  linkUp := true
  txId := 0
  txType := 0
  txLen := 0
  rxId := 0
  rxType := 0
  rxLen := 0
  rxCsum := 0
  framingErrs := 0
  rxqDrops := 0
  teState := .idle
  tePhase := .data
  imgLen := 0
  totalBlocks := 0
  curIndex := 0
  retryLimit := 10
  retriesLeft := 0
  hsTimeoutMs := 30000
  blkTimeoutMs := 10000
  progressEn := true
  hwFlow := false
  swFlow := false
  teErr := { kind := .none, phase := .none, block := 0, retries := 0 }
  progress := 0
  verify := { sohOk := false, compOk := false, crcOk := false, valid := false, crcCalc := 0 }
  irq := { framing := false, rxqDrop := false, progress := false, teDone := false, portErr := false }
  irqEnable := 0
  rxwin := []
  rxq := []
  txlog := []
  txbuf := []
  rxbuf := []
  image := []
  vbuf := []
  pending := []
  readData := 0
  draws := 0

end Sys2Proof.Machine
end

