-- ==== Sys2Proof/Machine/Flags.lean ====
section
/-! DEFINITION. Status flags, counters and register codes: the saturating counters (00_scope.md R10), the interrupt bits
(10_state.md R49 to R51, 41_control.md R147), the session predicates (10_state.md R35) and the numeric codes of the named
values (60_exceptions.md R231, R232). -/

namespace Sys2Proof.Machine

/-- `sat16(c + n)` (00_scope.md R10), the FC statistics counters. -/
def sat16Add (c : Half) (n : Nat) : Half := BitVec.ofNat 16 (min (c.toNat + n) 65535)

/-! ### Codes -/

/-- 60_exceptions.md R231. -/
def ResultCode.code : ResultCode → Byte
  | .ok => 0x00
  | .illegalOpcode => 0x01
  | .notOwner => 0x02
  | .sessionBusy => 0x03
  | .portError => 0x04
  | .rxqEmpty => 0x05
  | .lengthError => 0x06
  | .noSession => 0x07

/-- 10_state.md R28: 0 = FC owns the transport, 1 = TE owns it. -/
def Owner.bit : Owner → Bool
  | .fc => false
  | .te => true

/-- 10_state.md R35, the STATE codes. -/
def TeState.code : TeState → BitVec 3
  | .idle => 0
  | .init => 1
  | .awaitHandshake => 2
  | .sending => 3
  | .complete => 4
  | .aborted => 5
  | .cancelled => 6

/-- 10_state.md R35: 0 = DATA, 1 = EOT. -/
def TePhase.bit : TePhase → Bool
  | .data => false
  | .eot => true

/-- 60_exceptions.md R232. -/
def ErrKind.code : ErrKind → BitVec 4
  | .none => 0
  | .handshakeTimeout => 1
  | .blockRetryExhausted => 2
  | .transferCancelled => 3
  | .portError => 4

/-- 10_state.md R44: 0 = none, 1 = HANDSHAKE, 2 = DATA, 3 = EOT. -/
def ErrPhase.code : ErrPhase → BitVec 2
  | .none => 0
  | .handshake => 1
  | .data => 2
  | .eot => 3

/-! ### The session -/

/-- A session is active when STATE is AWAIT_HANDSHAKE or SENDING (10_state.md R35). -/
def TeState.active : TeState → Bool
  | .awaitHandshake | .sending => true
  | .idle | .init | .complete | .aborted | .cancelled => false

/-- STATE is terminal when it is COMPLETE, ABORTED or CANCELLED (10_state.md R35). -/
def TeState.terminal : TeState → Bool
  | .complete | .aborted | .cancelled => true
  | .idle | .init | .awaitHandshake | .sending => false

/-- `errPhase()` (43_transfer_engine.md R180). -/
def errPhaseOf (st : TeState) (ph : TePhase) : ErrPhase :=
  match st, ph with
  | .awaitHandshake, _ => .handshake
  | .sending, .data => .data
  | .sending, .eot => .eot
  | .idle, _ | .init, _ | .complete, _ | .aborted, _ | .cancelled, _ => .none

/-! ### Interrupts -/

/-- `IRQ_PENDING` as software reads it, bits 5..0: the sticky bits and the level RXQ (10_state.md R49). -/
def pendingBits (s : State) : BitVec 6 :=
  BitVec.ofBool s.irq.portErr ++ BitVec.ofBool s.irq.teDone ++ BitVec.ofBool s.irq.progress ++
    BitVec.ofBool s.irq.rxqDrop ++ BitVec.ofBool s.irq.framing ++ BitVec.ofBool (!s.rxq.isEmpty)

/-- The interrupt output `IRQ` (10_state.md R51, 60_exceptions.md R236). -/
def irqLine (s : State) : Bool := pendingBits s &&& s.irqEnable != 0

/-- Write-1-clear of the sticky bits (41_control.md R147). -/
def irqClear (irq : IrqSticky) (v : Word) : IrqSticky :=
  { framing := irq.framing && !v.getLsbD 1
    rxqDrop := irq.rxqDrop && !v.getLsbD 2
    progress := irq.progress && !v.getLsbD 3
    teDone := irq.teDone && !v.getLsbD 4
    portErr := irq.portErr && !v.getLsbD 5 }

end Sys2Proof.Machine
end

