-- ==== Sys2Proof/Machine/Operands.lean ====
section
/-! DEFINITION. The operand forms: the register map and what each register reads as and stores (10_state.md R24 to R50,
41_control.md R145 to R148), and the four buffers as one family of spaces (20_memory.md R60). -/

namespace Sys2Proof.Machine

/-- The words of the register map (10_state.md R24). -/
inductive HostReg where
  | cmd
  | cmdResult
  | port
  | txId
  | txType
  | txLen
  | rxId
  | rxType
  | rxLen
  | rxCsum
  | rxqCount
  | fcStats
  | teStatus
  | imgLen
  | totalBlocks
  | curIndex
  | teBlock
  | retry
  | hsTimeoutMs
  | blkTimeoutMs
  | teCfg
  | teErr
  | progress
  | verify
  | irqPending
  | irqEnable
  | reserved
deriving DecidableEq, Repr

/-- The register at a word offset; none where the access is no aligned word of the map (10_state.md R24, 20_memory.md R64). -/
def regAt? (off : Byte) : Option HostReg :=
  match off.toNat with
  | 0x00 => some .cmd
  | 0x04 => some .cmdResult
  | 0x08 => some .port
  | 0x0C => some .reserved
  | 0x10 => some .txId
  | 0x14 => some .txType
  | 0x18 => some .txLen
  | 0x1C => some .reserved
  | 0x20 => some .rxId
  | 0x24 => some .rxType
  | 0x28 => some .rxLen
  | 0x2C => some .rxCsum
  | 0x30 => some .rxqCount
  | 0x34 => some .fcStats
  | 0x38 => some .reserved
  | 0x3C => some .reserved
  | 0x40 => some .teStatus
  | 0x44 => some .imgLen
  | 0x48 => some .totalBlocks
  | 0x4C => some .curIndex
  | 0x50 => some .teBlock
  | 0x54 => some .retry
  | 0x58 => some .hsTimeoutMs
  | 0x5C => some .blkTimeoutMs
  | 0x60 => some .teCfg
  | 0x64 => some .teErr
  | 0x68 => some .progress
  | 0x6C => some .reserved
  | 0x70 => some .verify
  | 0x74 => some .reserved
  | 0x78 => some .irqPending
  | 0x7C => some .irqEnable
  | _ => none

/-- A field of a register: its value placed with bit 0 at `lo` (00_scope.md R8 `zext`); bits no field lists read 0
(10_state.md R25). -/
def fieldAt {n : Nat} (lo : Nat) (v : BitVec n) : Word := v.setWidth 32 <<< lo

/-- A one-bit field of a register. -/
def flagAt (lo : Nat) (b : Bool) : Word := fieldAt lo (BitVec.ofBool b)

/-- `CUR_INDEX mod 256`, the wire block number (10_state.md R39, 43_transfer_engine.md R182). -/
def wireNumber (k : Word) : Byte := k.setWidth 8

/-- What a host read of a register returns (10_state.md R25 to R50). -/
def readReg (s : State) : HostReg → Word
  | .cmd => 0
  | .cmdResult => fieldAt 0 s.result.code
  | .port => flagAt 0 s.owner.bit ||| flagAt 1 s.linkUp
  | .txId => fieldAt 0 s.txId
  | .txType => fieldAt 0 s.txType
  | .txLen => fieldAt 0 s.txLen
  | .rxId => fieldAt 0 s.rxId
  | .rxType => fieldAt 0 s.rxType
  | .rxLen => fieldAt 0 s.rxLen
  | .rxCsum => fieldAt 0 s.rxCsum
  | .rxqCount => fieldAt 0 (BitVec.ofNat 8 s.rxq.length)
  | .fcStats => fieldAt 0 s.framingErrs ||| fieldAt 16 s.rxqDrops
  | .teStatus => fieldAt 0 s.teState.code ||| flagAt 3 s.tePhase.bit
  | .imgLen => s.imgLen
  | .totalBlocks => s.totalBlocks
  | .curIndex => s.curIndex
  | .teBlock => fieldAt 0 (wireNumber s.curIndex) ||| fieldAt 8 (complement (wireNumber s.curIndex))
  | .retry => fieldAt 0 s.retryLimit ||| fieldAt 8 s.retriesLeft
  | .hsTimeoutMs => s.hsTimeoutMs
  | .blkTimeoutMs => s.blkTimeoutMs
  | .teCfg => flagAt 0 s.progressEn ||| flagAt 1 s.hwFlow ||| flagAt 2 s.swFlow
  | .teErr =>
    fieldAt 0 s.teErr.kind.code ||| fieldAt 4 s.teErr.phase.code ||| fieldAt 8 s.teErr.block |||
      fieldAt 16 s.teErr.retries
  | .progress => s.progress
  | .verify =>
    flagAt 0 s.verify.sohOk ||| flagAt 1 s.verify.compOk ||| flagAt 2 s.verify.crcOk ||| flagAt 3 s.verify.valid |||
      fieldAt 16 s.verify.crcCalc
  | .irqPending => fieldAt 0 (pendingBits s)
  | .irqEnable => fieldAt 0 s.irqEnable
  | .reserved => 0

/-- The registers that are locked while a session is active (41_control.md R146). -/
def HostReg.locked : HostReg → Bool
  | .imgLen | .retry | .hsTimeoutMs | .blkTimeoutMs | .teCfg => true
  | .cmd | .cmdResult | .port | .txId | .txType | .txLen | .rxId | .rxType | .rxLen | .rxCsum | .rxqCount | .fcStats
  | .teStatus | .totalBlocks | .curIndex | .teBlock | .teErr | .progress | .verify | .irqPending | .irqEnable
  | .reserved => false

/-- What a write of `RETRY` stores into `RETRY_LIMIT`: `v[7:0]`, but 1 for 0 (10_state.md R40, 41_control.md R145). -/
def retryLimitOf (v : Word) : Byte := if v.setWidth 8 = (0 : Byte) then 1 else v.setWidth 8

/-- What a host write stores, where no lock holds (41_control.md R145; read-only and reserved: 10_state.md R25). A write of
CMD stores nothing: it runs a command, which is `execRegWr`'s own case. The write of IRQ_PENDING is how the host acknowledges
an event, the analogue of trap return (60_exceptions.md R241). -/
def storeReg (r : HostReg) (v : Word) (s : State) : State :=
  match r with
  | .txId => { s with txId := v.setWidth 8 }
  | .txType => { s with txType := v.setWidth 16 }
  | .txLen => { s with txLen := v.setWidth 16 }
  | .fcStats => { s with framingErrs := 0, rxqDrops := 0 }
  | .imgLen => { s with imgLen := v }
  | .retry => { s with retryLimit := retryLimitOf v }
  | .hsTimeoutMs => { s with hsTimeoutMs := v }
  | .blkTimeoutMs => { s with blkTimeoutMs := v }
  | .teCfg => { s with progressEn := v.getLsbD 0, hwFlow := v.getLsbD 1, swFlow := v.getLsbD 2 }
  | .irqPending => { s with irq := irqClear s.irq v }
  | .irqEnable => { s with irqEnable := v.setWidth 6 }
  | .cmd | .cmdResult | .port | .rxId | .rxType | .rxLen | .rxCsum | .rxqCount | .teStatus | .totalBlocks | .curIndex
  | .teBlock | .teErr | .progress | .verify | .reserved => s

/-- A host write of a register other than CMD, with the lock of 41_control.md R146. -/
def writeReg (r : HostReg) (v : Word) (s : State) : State :=
  if r.locked && s.teState.active then s else storeReg r v s

/-! ### Buffers -/

/-- The size of a buffer in bytes (20_memory.md R60). -/
def spaceSize (p : Params) : Space → Nat
  | .txbuf => 65535
  | .rxbuf => 65535
  | .image => p.imageMax.toNat
  | .vbuf => 133

/-- The contents of a buffer. -/
def State.buffer (s : State) : Space → Memory
  | .txbuf => s.txbuf
  | .rxbuf => s.rxbuf
  | .image => s.image
  | .vbuf => s.vbuf

/-- The state with new contents of one buffer. -/
def State.withBuffer (s : State) (space : Space) (m : Memory) : State :=
  match space with
  | .txbuf => { s with txbuf := m }
  | .rxbuf => { s with rxbuf := m }
  | .image => { s with image := m }
  | .vbuf => { s with vbuf := m }

end Sys2Proof.Machine
end

