-- ==== Sys2Proof/Machine/Ops.lean ====
section
/-! DEFINITION. The named operations over memory, the transmit stream and the session: the pseudocode primitives of
00_scope.md R11, and what an error records (60_exceptions.md R240, the analogue of taking an exception). -/

namespace Sys2Proof.Machine

/-- What a meaning answers. -/
abbrev Result := Host.Outcome State Fault Refusal

/-! ### Memory -/

/-- The canonical form of a buffer: addresses strictly rising. An unlisted address holds no value (20_memory.md R62), so no
listed entry equals what an unlisted address reads as. -/
abbrev Memory.wf (m : Memory) : Prop := m.Pairwise (fun x y => x.1 < y.1)

/-- The byte at an address, if it holds one. -/
def Memory.read : Memory → Nat → Option Byte
  | [], _ => none
  | (x, y) :: rest, a => if x = a then some y else Memory.read rest a

/-- One byte written. -/
def Memory.write : Memory → Nat → Byte → Memory
  | [], a, b => [(a, b)]
  | (x, y) :: rest, a, b =>
    if a < x then (a, b) :: (x, y) :: rest
    else if a = x then (a, b) :: rest
    else (x, y) :: Memory.write rest a b

/-- `MemWrite(SPACE, a, len(xs), xs)` on the contents of a buffer (00_scope.md R11). -/
def Memory.writeAll : Memory → Nat → List Byte → Memory
  | m, _, [] => m
  | m, a, b :: bs => Memory.writeAll (Memory.write m a b) (a + 1) bs

/-- `MemRead(SPACE, a, n)` (00_scope.md R11), or `fault UninitByte` at the first byte with no value (20_memory.md R62). -/
def memRead (space : Space) (m : Memory) : Nat → Nat → Except Fault (List Byte)
  | _, 0 => .ok []
  | a, n + 1 =>
    match Memory.read m a with
    | none => .error (.uninitByte space a)
    | some b =>
      match memRead space m (a + 1) n with
      | .ok bs => .ok (b :: bs)
      | .error f => .error f

/-! ### Primitives -/

/-- `result(code)`: the command ends with this result code (00_scope.md R11, 10_state.md R27). -/
def finish (code : ResultCode) (s : State) : Result := .next { s with result := code }

/-- `TxEmit(xs)` (00_scope.md R11, 20_memory.md R72). -/
def txEmit (bs : List Byte) (s : State) : State := { s with txlog := s.txlog ++ bs }

/-- Run a second operation where the first gives a next state. -/
def andThen (r : Result) (f : State → Result) : Result :=
  match r with
  | .next s => f s
  | .fault e => .fault e
  | .refused e => .refused e

/-- Go on with bytes read from a buffer, or stop with the fault that reading them raised. -/
def withBytes (r : Except Fault (List Byte)) (f : List Byte → Result) : Result :=
  match r with
  | .ok bs => f bs
  | .error e => .fault e

/-- The value a host read returns to the host; the block does not change (20_memory.md R66; log 6). -/
def answer (v : Word) (s : State) : State := { s with readData := v }

/-! ### Errors of the Transfer Engine -/

/-- `raise Kind(phase, block, retries)` (00_scope.md R11, 60_exceptions.md R232). -/
def raiseError (kind : ErrKind) (phase : ErrPhase) (block retries : Byte) (s : State) : State :=
  { s with teErr := { kind := kind, phase := phase, block := block, retries := retries } }

/-- `state <- S` for a terminal S, which also does `irq(TE_DONE)` (43_transfer_engine.md R197). -/
def enterTerminal (st : TeState) (s : State) : State := { s with teState := st, irq := { s.irq with teDone := true } }

/-- What an error records, the analogue of trap entry (60_exceptions.md R240): kind, phase, block number and failure count in
TE_ERR, then the terminal state and TE_DONE. The phase is `errPhase()` of the state the error finds (43_transfer_engine.md
R180). -/
def endWithError (kind : ErrKind) (block retries : Byte) (st : TeState) (s : State) : State :=
  enterTerminal st (raiseError kind (errPhaseOf s.teState s.tePhase) block retries s)

/-- The failed attempts counted so far, `RETRY_LIMIT - RETRIES_LEFT` (10_state.md R40). -/
def failedSoFar (s : State) : Byte := s.retryLimit - s.retriesLeft

end Sys2Proof.Machine
end

