-- ==== Sys2Proof/Machine/Control.lean ====
section
/-! DEFINITION. NOP, the illegal opcodes, the two ownership handoffs (41_control.md R140 to R143) and RESET
(70_reset_and_hazards.md R260 to R262). -/

namespace Sys2Proof.Machine

/-- NOP (41_control.md R140). -/
def execNop (s : State) : Result := finish .ok s

/-- An illegal opcode written to CMD (41_control.md R141). It has no row in the table and no constructor: REG_WR runs it. -/
def illegalOpcode (s : State) : Result := finish .illegalOpcode s

/-- PORT_GRANT_TE (41_control.md R142). -/
def execPortGrantTe (s : State) : Result :=
  match s.owner with
  | .te => finish .ok s
  | .fc => finish .ok { s with rxwin := [], owner := .te }

/-- PORT_RETURN_FC (41_control.md R143). -/
def execPortReturnFc (s : State) : Result :=
  if s.teState.active then finish .sessionBusy s
  else
    match s.owner with
    | .fc => finish .ok s
    | .te => finish .ok { s with rxwin := [], owner := .fc }

/-- RESET: every register, RXWIN, RXQ and the buffers at their reset values; TXLOG is kept (70_reset_and_hazards.md R260,
R261). The model's own fields are no state of the block and are kept (log 18). -/
def execReset (s : State) : Result :=
  .next
    { State.reset with
      params := s.params
      txlog := s.txlog
      pending := s.pending
      readData := s.readData
      draws := s.draws }

end Sys2Proof.Machine
end

