-- ==== Sys2Proof/Machine/CrcUnit.lean ====
section
/-! DEFINITION. The block verifier (42_crc16_verifier.md R163). The CRC function itself is `crc16` of Decode.lean, which the
wire format of a block shares. -/

namespace Sys2Proof.Machine

/-- VERIFY for the 133 bytes of VBUF: SOH, number, complement, payload, CRC (42_crc16_verifier.md R163, 10_state.md R46).
A list of fewer bytes has no block in it; BLOCK_VERIFY reads 133. -/
def verifyBytes (v : List Byte) : Verify :=
  match v with
  | soh :: blk :: nblk :: rest =>
    let crc := crc16 (rest.take Config.blockPayload)
    let sohOk := decide (soh = 0x01)
    let compOk := decide (nblk = complement blk)
    let crcOk := decide (rest.drop Config.blockPayload = be16 crc)
    { sohOk := sohOk, compOk := compOk, crcOk := crcOk, valid := sohOk && compOk && crcOk, crcCalc := crc }
  | _ => { sohOk := false, compOk := false, crcOk := false, valid := false, crcCalc := 0 }

/-- BLOCK_VERIFY (42_crc16_verifier.md R163). -/
def execBlockVerify (s : State) : Result :=
  withBytes (memRead .vbuf s.vbuf 0 133) fun v => finish .ok { s with verify := verifyBytes v }

end Sys2Proof.Machine
end

