-- ==== Sys2Proof/Machine/FrameCodec.lean ====
section
/-! DEFINITION. The Frame Codec: the resynchronising decoder, delivery to the receive queue, FC_SEND, FC_RX_POP and
FC_RX_RESTART (40_frame_codec.md). -/

namespace Sys2Proof.Machine

/-! ### The decoder -/

/-- What the decoder makes of a candidate, a window whose first byte is the start marker (40_frame_codec.md R114). -/
inductive Verdict where
  | incomplete                -- the header or the frame is not all there yet
  | lengthMismatch            -- 40_frame_codec.md R118
  | checksumMismatch          -- 40_frame_codec.md R117
  | accepted (f : Frame)      -- 40_frame_codec.md R116
deriving DecidableEq, Repr

/-- The test of a candidate (40_frame_codec.md R114, R116 to R118). -/
def candidate (p : Params) : List Byte → Verdict
  | m :: id :: t0 :: t1 :: l0 :: l1 :: rest =>
    let len := field16 p.fieldOrder l0 l1
    if p.maxRxPayload < len then .lengthMismatch
    else
      match rest.drop len.toNat with
      | [] => .incomplete
      | c :: _ =>
        if checksumOf p.checksum ([m, id, t0, t1, l0, l1] ++ rest.take len.toNat) = c then
          .accepted { id := id, type := field16 p.fieldOrder t0 t1, payload := rest.take len.toNat, checksum := c }
        else .checksumMismatch
  | _ => .incomplete

/-- What a scan answers: the new window, the frames found and the candidates rejected (40_frame_codec.md R114). -/
structure Scan where
  window : List Byte
  frames : List Frame
  errs   : Nat
deriving DecidableEq, Repr

/-- `scan` with `skip` bytes of the window still to consume: the bytes after the first of an accepted frame. It goes down the
window one byte at a time, so it is structural; a byte that is no marker is discarded (40_frame_codec.md R119), a rejected
candidate loses its marker only (R117, R118), an accepted one its 7 + L bytes (R116). -/
def scanFrom (p : Params) : List Byte → Nat → Scan
  | [], _ => { window := [], frames := [], errs := 0 }
  | _ :: rest, skip + 1 => scanFrom p rest skip
  | b :: rest, 0 =>
    if b = p.startMarker then
      match candidate p (b :: rest) with
      | .incomplete => { window := b :: rest, frames := [], errs := 0 }
      | .lengthMismatch =>
        let r := scanFrom p rest 0
        { r with errs := r.errs + 1 }
      | .checksumMismatch =>
        let r := scanFrom p rest 0
        { r with errs := r.errs + 1 }
      | .accepted f =>
        let r := scanFrom p rest (6 + f.payload.length)
        { r with frames := f :: r.frames }
    else scanFrom p rest 0

/-- `scan(win)` (40_frame_codec.md R114). -/
def scan (p : Params) (win : List Byte) : Scan := scanFrom p win 0

/-- `deliver(f)`: to the tail of RXQ, or dropped and counted when it is full (40_frame_codec.md R120, R122). -/
def deliver (s : State) (f : Frame) : State :=
  if s.rxq.length < s.params.rxqDepth.toNat then { s with rxq := s.rxq ++ [f] }
  else { s with rxqDrops := sat16Add s.rxqDrops 1, irq := { s.irq with rxqDrop := true } }

/-- The framing errors of one scan: counted, and `irq(FRAMING)` if there is one (40_frame_codec.md R115,
60_exceptions.md R233). -/
def countErrors (n : Nat) (s : State) : State :=
  { s with framingErrs := sat16Add s.framingErrs n, irq := { s.irq with framing := s.irq.framing || decide (0 < n) } }

/-- A byte received by FC (40_frame_codec.md R115). -/
def fcReceive (b : Byte) (s : State) : State :=
  let r := scan s.params (s.rxwin ++ [b])
  r.frames.foldl deliver (countErrors r.errs { s with rxwin := r.window })

/-! ### Commands -/

/-- FC_SEND (40_frame_codec.md R113). -/
def execFcSend (s : State) : Result :=
  if s.owner ≠ .fc then finish .notOwner s
  else if s.linkUp = false then finish .portError s
  else
    withBytes (memRead .txbuf s.txbuf 0 s.txLen.toNat) fun payload =>
      finish .ok (txEmit (encodeFrame s.params s.txId s.txType payload) s)

/-- FC_RX_POP (40_frame_codec.md R123). -/
def execFcRxPop (s : State) : Result :=
  match s.rxq with
  | [] => finish .rxqEmpty s
  | f :: rest =>
    finish .ok
      { s with
        rxq := rest
        rxId := f.id
        rxType := f.type
        rxLen := BitVec.ofNat 16 f.payload.length
        rxCsum := f.checksum
        rxbuf := Memory.writeAll s.rxbuf 0 f.payload }

/-- FC_RX_RESTART (40_frame_codec.md R124). -/
def execFcRxRestart (s : State) : Result := finish .ok { s with rxwin := [] }

end Sys2Proof.Machine
end

