-- ==== Sys2Proof/Machine/TransferEngine.lean ====
section
/-! DEFINITION. The Transfer Engine: image and blocks, TE_START, TE_CANCEL, received bytes and timeouts
(43_transfer_engine.md). -/

namespace Sys2Proof.Machine

/-- `ceil(IMG_LEN / 128)` (43_transfer_engine.md R181). -/
def blockCount (imgLen : Word) : Word := BitVec.ofNat 32 ((imgLen.toNat + 127) / Config.blockPayload)

/-- `payload(k)` (43_transfer_engine.md R183). -/
def blockPayload (k : Word) (s : State) : Except Fault (List Byte) :=
  let start := Config.blockPayload * (k.toNat - 1)
  let n := min Config.blockPayload (s.imgLen.toNat - start)
  match memRead .image s.image start n with
  | .ok bs => .ok (bs ++ List.replicate (Config.blockPayload - n) Config.padByte)
  | .error f => .error f

/-- `TxEmit(blockBytes(k))` (43_transfer_engine.md R184, R182), or the fault that reading the image raised. -/
def transmitBlock (k : Word) (s : State) : Result :=
  withBytes (blockPayload k s) fun payload => .next (txEmit (encodeBlock (wireNumber k) payload) s)

/-- The end-of-file transmission (30_encoding.md R91). -/
def transmitEot (s : State) : Result := .next (txEmit [0x04] s)

/-- TE_START (43_transfer_engine.md R185). INIT lies inside this one step (10_state.md R35), so only its end is stored. -/
def execTeStart (s : State) : Result :=
  if s.teState.active then finish .sessionBusy s
  else if s.owner ≠ .te then finish .notOwner s
  else if s.linkUp = false then finish .portError s
  else if s.params.imageMax < s.imgLen then finish .lengthError s
  else
    finish .ok
      { s with
        totalBlocks := blockCount s.imgLen
        curIndex := 0
        progress := 0
        retriesLeft := s.retryLimit
        tePhase := .data
        teErr := { kind := .none, phase := .none, block := 0, retries := 0 }
        teState := .awaitHandshake }

/-- A cancellation by the host (43_transfer_engine.md R194, 30_encoding.md R90). -/
def cancelSession (s : State) : Result :=
  if s.teState.active then
    finish .ok
      (endWithError .transferCancelled (wireNumber s.curIndex) (failedSoFar s) .cancelled (txEmit [0x18, 0x18] s))
  else finish .noSession s

/-- TE_CANCEL (43_transfer_engine.md R194). -/
def execTeCancel (s : State) : Result := cancelSession s

/-- The handshake byte 'C' in AWAIT_HANDSHAKE (43_transfer_engine.md R186). -/
def teHandshake (s : State) : Result :=
  if s.totalBlocks = 0 then
    transmitEot { s with retriesLeft := s.retryLimit, tePhase := .eot, teState := .sending }
  else
    transmitBlock 1 { s with retriesLeft := s.retryLimit, curIndex := 1, tePhase := .data, teState := .sending }

/-- ACK in the DATA phase (43_transfer_engine.md R187, R195). -/
def teAckData (s : State) : Result :=
  let t :=
    { s with
      progress := s.curIndex
      irq := { s.irq with progress := s.irq.progress || s.progressEn }
      retriesLeft := s.retryLimit }
  if s.curIndex < s.totalBlocks then transmitBlock (s.curIndex + 1) { t with curIndex := s.curIndex + 1 }
  else transmitEot { t with tePhase := .eot }

/-- ACK in the EOT phase (43_transfer_engine.md R188). -/
def teAckEot (s : State) : Result := .next (enterTerminal .complete s)

/-- A failed attempt (43_transfer_engine.md R191). -/
def teFailedAttempt (s : State) : Result :=
  let t := { s with retriesLeft := s.retriesLeft - 1 }
  if t.retriesLeft = 0 then
    .next (endWithError .blockRetryExhausted (wireNumber s.curIndex) s.retryLimit .aborted t)
  else
    match s.tePhase with
    | .data => transmitBlock s.curIndex t
    | .eot => transmitEot t

/-- A byte routed to TE (43_transfer_engine.md R186 to R189, R193). INIT is never held between steps (10_state.md R35); a byte
that found it would be discarded, as in every state with no session (log 14). -/
def teReceive (b : Byte) (s : State) : Result :=
  match s.teState with
  | .awaitHandshake => if b = 0x43 then teHandshake s else .next s
  | .sending =>
    if b = 0x06 then
      match s.tePhase with
      | .data => teAckData s
      | .eot => teAckEot s
    else teFailedAttempt s
  | .idle | .init | .complete | .aborted | .cancelled => .next s

/-- TIMEOUT: enabled exactly in an active session (43_transfer_engine.md R196, R190, R192). -/
def execTimeout (s : State) : Result :=
  match s.teState with
  | .awaitHandshake => .next (endWithError .handshakeTimeout 0 0 .aborted s)
  | .sending => teFailedAttempt s
  | .idle | .init | .complete | .aborted | .cancelled => .refused (.notEnabled .timeout)

end Sys2Proof.Machine
end

