-- ==== Sys2Proof/Machine/HostAccess.lean ====
section
/-! DEFINITION. What the host does to the block: writes and reads of registers and buffers (41_control.md R145 to R148,
10_state.md R25, 20_memory.md R60 to R66). -/

namespace Sys2Proof.Machine

/-- The command a write of CMD executes, by its opcode (10_state.md R26, 30_encoding.md R81, R82). -/
def runOpcode (op : Byte) (s : State) : Result :=
  match Command.ofOpcode? op with
  | some .nop => execNop s
  | some .fcSend => execFcSend s
  | some .fcRxPop => execFcRxPop s
  | some .fcRxRestart => execFcRxRestart s
  | some .portGrantTe => execPortGrantTe s
  | some .portReturnFc => execPortReturnFc s
  | some .teStart => execTeStart s
  | some .teCancel => execTeCancel s
  | some .blockVerify => execBlockVerify s
  | none => illegalOpcode s

/-- REG_WR (41_control.md R145); an access that is no aligned word of the map does not exist (20_memory.md R64). -/
def execRegWr (off : Byte) (v : Word) (s : State) : Result :=
  match regAt? off with
  | none => .refused (.regAccess off)
  | some .cmd => runOpcode (v.setWidth 8) s
  | some r => .next (writeReg r v s)

/-- REG_RD (10_state.md R25, 20_memory.md R66): no side effect on the block, the value goes to the host (log 6). -/
def execRegRd (off : Byte) (s : State) : Result :=
  match regAt? off with
  | none => .refused (.regAccess off)
  | some r => .next (answer (readReg s r) s)

/-- Is a host write of this buffer ignored: RXBUF always, IMAGE during a session (41_control.md R145, 20_memory.md R65). -/
def writeIgnored (space : Space) (s : State) : Bool :=
  match space with
  | .rxbuf => true
  | .image => s.teState.active
  | .txbuf | .vbuf => false

/-- BUF_WR (41_control.md R145); an address beyond the space does not exist (20_memory.md R60). -/
def execBufWr (space : Space) (a : Word) (b : Byte) (s : State) : Result :=
  if spaceSize s.params space ≤ a.toNat then .refused (.noSuchAddress space a.toNat)
  else if writeIgnored space s then .next s
  else .next (s.withBuffer space (Memory.write (s.buffer space) a.toNat b))

/-- BUF_RD (20_memory.md R62): a byte with no value gives a fresh unspecified byte, the free value of log 7. -/
def execBufRd (space : Space) (a : Word) (s : State) : Result :=
  if spaceSize s.params space ≤ a.toNat then .refused (.noSuchAddress space a.toNat)
  else
    match Memory.read (s.buffer space) a.toNat with
    | some b => .next (answer (b.setWidth 32) s)
    | none => .next (answer ((Config.freeByte s.draws).setWidth 32) { s with draws := s.draws + 1 })

end Sys2Proof.Machine
end

