-- ==== Sys2Proof/Machine/Link.lean ====
section
/-! DEFINITION. The serial link: routing of received bytes, port faults and reopens (41_control.md R144, R149, R150), and what
passes over the wire as a whole format (30_encoding.md R86, R88 to R91, R93). Each is a step of R84, or expands to such steps. -/

namespace Sys2Proof.Machine

/-- `RX_BYTE(b)`: enabled while the link is up, routed to the owner of the transport (41_control.md R144, 20_memory.md R73). -/
def receiveByte (b : Byte) (s : State) : Result :=
  if s.linkUp = false then .refused (.notEnabled .rxByte)
  else
    match s.owner with
    | .fc => .next (fcReceive b s)
    | .te => teReceive b s

/-- RX_BYTE (41_control.md R144). -/
def execRxByte (b : Byte) (s : State) : Result := receiveByte b s

/-- PORT_FAULT (41_control.md R149, 60_exceptions.md R234). -/
def execPortFault (s : State) : Result :=
  if s.linkUp = false then .refused (.notEnabled .portFault)
  else
    let t := { s with linkUp := false, irq := { s.irq with portErr := true }, rxwin := [] }
    if s.teState.active then .next (endWithError .portError (wireNumber s.curIndex) (failedSoFar s) .aborted t)
    else .next t

/-- PORT_REOPEN (41_control.md R150). -/
def execPortReopen (s : State) : Result :=
  if s.linkUp then .refused (.notEnabled .portReopen) else .next { s with linkUp := true, rxwin := [] }

/-! ### Whole frames, as the pseudo-instructions of 30_encoding.md R93 -/

/-- `wb SPACE, a, b0 b1 ...` (30_encoding.md R92): one BUF_WR for each byte. -/
def bufWrites (space : Space) : Nat → List Byte → List Instr
  | _, [] => []
  | a, b :: bs => .bufWr space (BitVec.ofNat 32 a) b :: bufWrites space (a + 1) bs

/-- `rxframe id, type, payload` (30_encoding.md R93): one RX_BYTE for each byte of the frame. -/
def rxframeSteps (p : Params) (id : Byte) (type : Half) (payload : List Byte) : List Instr :=
  (encodeFrame p id type payload).map .rxByte

/-- `send id, type, payload` (30_encoding.md R93): the buffer and register writes, then the write of CMD with FC_SEND. -/
def sendSteps (id : Byte) (type : Half) (payload : List Byte) : List Instr :=
  bufWrites .txbuf 0 payload ++
    [.regWr 0x10 (id.setWidth 32), .regWr 0x14 (type.setWidth 32), .regWr 0x18 (BitVec.ofNat 32 payload.length),
      .regWr 0x00 0x01]

/-- A pseudo-instruction "expands to the statements shown, in order" (30_encoding.md R93): the agents take these steps next,
one by one, and the block itself does not change (log 9). -/
def expand (steps : List Instr) (s : State) : State := { s with pending := steps.map (encode s.params) ++ s.pending }

/-- FRAME: a frame passes over the wire. Arriving, it is `rxframe`; departing, it is `send` (30_encoding.md R86, R93; log 9). -/
def execFrame (dir : Direction) (id : Byte) (type : Half) (payload : List Byte) (s : State) : Result :=
  if framePayloadOk payload = false then .refused .malformedWire
  else
    match dir with
    | .rx => .next (expand (rxframeSteps s.params id type payload) s)
    | .tx => .next (expand (sendSteps id type payload) s)

/-! ### What TE transmits -/

/-- The step that transmits `bs`: the first of these received bytes on which the block transmits exactly that. TE acts only
inside a step of an agent (10_state.md R20), so what it transmits is no step of its own (log 10). -/
def transmittedOn (bs : List Byte) : List Byte → State → Result
  | [], _ => .refused .mayNotTransmit
  | b :: more, s =>
    match receiveByte b s with
    | .next t => if t.txlog = s.txlog ++ bs then .next t else transmittedOn bs more s
    | .fault _ => transmittedOn bs more s
    | .refused _ => transmittedOn bs more s

/-- ACK, NAK and 'C' (30_encoding.md R89). On one of them TE transmits everything it ever transmits but the cancellation
(43_transfer_engine.md R186, R187, R191); any other failing reply has the effect of NAK (R189, R190). -/
def replies : List Byte := [0x06, 0x15, 0x43]

/-- BLOCK: the received byte on which TE transmits this data block (30_encoding.md R88, 43_transfer_engine.md R186, R187, R191;
log 10). -/
def execBlock (blk : Byte) (payload : List Byte) (s : State) : Result :=
  if blockPayloadOk payload = false then .refused .malformedWire
  else transmittedOn (encodeBlock blk payload) replies s

/-- EOT: the received byte on which TE transmits the end of the transfer (30_encoding.md R91, 43_transfer_engine.md R186, R187,
R191; log 10). -/
def execEot (s : State) : Result := transmittedOn [0x04] replies s

/-- CAN_CAN: the cancellation, which "transmits exactly [0x18, 0x18]" (30_encoding.md R90, 43_transfer_engine.md R194; log 10). -/
def execCanCan (s : State) : Result := cancelSession s

/-! ### What the device replies -/

/-- ACK arrives: the byte 0x06 is received (30_encoding.md R89, 43_transfer_engine.md R187, R188; log 8). -/
def execAck (s : State) : Result := receiveByte 0x06 s

/-- NAK arrives: the byte 0x15 is received (30_encoding.md R89, 43_transfer_engine.md R189; log 8). -/
def execNak (s : State) : Result := receiveByte 0x15 s

/-- The handshake byte 'C' arrives: the byte 0x43 is received (30_encoding.md R89, 43_transfer_engine.md R186; log 8). -/
def execHandshakeC (s : State) : Result := receiveByte 0x43 s

end Sys2Proof.Machine
end

