-- ==== Sys2Proof/Machine/Dispatch.lean ====
section
/-! DEFINITION. One arm per constructor of Instr, each one direct call of its meaning. -/

namespace Sys2Proof.Machine

def exec (i : Instr) (s : State) : Host.Outcome State Fault Refusal :=
  match i with
  -- commands (30_encoding.md R81)
  | .nop => Sys2Proof.Machine.execNop s
  | .fcSend => Sys2Proof.Machine.execFcSend s
  | .fcRxPop => Sys2Proof.Machine.execFcRxPop s
  | .fcRxRestart => Sys2Proof.Machine.execFcRxRestart s
  | .portGrantTe => Sys2Proof.Machine.execPortGrantTe s
  | .portReturnFc => Sys2Proof.Machine.execPortReturnFc s
  | .teStart => Sys2Proof.Machine.execTeStart s
  | .teCancel => Sys2Proof.Machine.execTeCancel s
  | .blockVerify => Sys2Proof.Machine.execBlockVerify s
  -- steps (30_encoding.md R84)
  | .rxByte b => Sys2Proof.Machine.execRxByte b s
  | .timeout => Sys2Proof.Machine.execTimeout s
  | .portFault => Sys2Proof.Machine.execPortFault s
  | .portReopen => Sys2Proof.Machine.execPortReopen s
  | .reset => Sys2Proof.Machine.execReset s
  | .regWr off v => Sys2Proof.Machine.execRegWr off v s
  | .regRd off => Sys2Proof.Machine.execRegRd off s
  | .bufWr space a b => Sys2Proof.Machine.execBufWr space a b s
  | .bufRd space a => Sys2Proof.Machine.execBufRd space a s
  -- wire formats (30_encoding.md R86, R88 to R91)
  | .frame dir id type payload => Sys2Proof.Machine.execFrame dir id type payload s
  | .block blk payload => Sys2Proof.Machine.execBlock blk payload s
  | .eot => Sys2Proof.Machine.execEot s
  | .canCan => Sys2Proof.Machine.execCanCan s
  | .ack => Sys2Proof.Machine.execAck s
  | .nak => Sys2Proof.Machine.execNak s
  | .handshakeC => Sys2Proof.Machine.execHandshakeC s

end Sys2Proof.Machine
end

