-- ==== Sys2Proof/Machine/Fetch.lean ====
section
/-! DEFINITION. How the next step of the two agents is taken from `State.pending` (log 1). -/

namespace Sys2Proof.Machine

/-- The state with the next packet's first instruction taken: the bytes after it stay next, if there are any. -/
def State.consume (s : State) (lane : Lane) (rest : List Byte) (more : List Packet) : State :=
  match rest with
  | [] => { s with pending := more }
  | b :: bs => { s with pending := { lane := lane, bytes := b :: bs } :: more }

/-- What the agents do next. -/
inductive Fetched where
  | idle                             -- no step is pending
  | instr (i : Instr) (s : State)    -- this instruction, on the state that has consumed it
  | undecodable (e : DecodeError)    -- the next packet holds no encoding
deriving DecidableEq, Repr

/-- The next instruction, decoded from the first pending packet. -/
def fetch (s : State) : Fetched :=
  match s.pending with
  | [] => .idle
  | pk :: more =>
    match decode s.params pk with
    | .ok (i, rest) => .instr i (s.consume pk.lane rest more)
    | .error e => .undecodable e

/-- A packet placed before all pending ones. -/
def State.place (s : State) (pk : Packet) : State := { s with pending := pk :: s.pending }

end Sys2Proof.Machine
end

