-- ==== Sys2Proof/Machine/Step.lean ====
section
/-! DEFINITION. One step: the next pending step of the host or the environment (00_scope.md R6, 20_memory.md R67). With none
pending the block stays as it is: it has no autonomous steps (00_scope.md R6, 70_reset_and_hazards.md R261). -/

namespace Sys2Proof.Machine

def step (s : State) : Host.Outcome State Fault Refusal :=
  match fetch s with
  | .idle => .next s
  | .instr i t => exec i t
  | .undecodable e => .refused (.undecodable e)

/-- The state in which the next step runs the instruction of a word of spec/opcode_table.json (log 1). -/
def State.withFetchWord (s : State) (nbits w : Nat) : State := s.place (tableInstrPacket s.params nbits w)

end Sys2Proof.Machine
end

