-- ==== Sys2Proof/Safety.lean ====
section
/-! DEFINITION. What claims call a good state: the invariants that the spec's prose gives the state record between steps, and the
good end of a run (70_reset_and_hazards.md R274). -/

namespace Sys2Proof.Machine

/-- A buffer holds bytes only at addresses of its space, in canonical form (20_memory.md R60). -/
abbrev bufferOk (s : State) (space : Space) : Prop :=
  Memory.wf (s.buffer space) ∧ ∀ c ∈ s.buffer space, c.1 < spaceSize s.params space

/-- All four buffers. -/
abbrev buffersOk (s : State) : Prop :=
  bufferOk s .txbuf ∧ bufferOk s .rxbuf ∧ bufferOk s .image ∧ bufferOk s .vbuf

/-- A queued frame: its payload has a legal length and its checksum is the recomputed one (40_frame_codec.md R116). -/
abbrev frameOk (p : Params) (f : Frame) : Prop :=
  f.payload.length ≤ p.maxRxPayload.toNat ∧ f.checksum = checksumOf p.checksum (frameBody p f.id f.type f.payload)

/-- The receive queue is within its bound (10_state.md R48) and holds decoded frames only. -/
abbrev queueOk (s : State) : Prop :=
  s.rxq.length ≤ s.params.rxqDepth.toNat ∧ ∀ f ∈ s.rxq, frameOk s.params f

/-- The length that the header at the head of a window declares (30_encoding.md R87). -/
def declaredLength (p : Params) (win : List Byte) : Nat := (field16 p.fieldOrder (win.getD 4 0) (win.getD 5 0)).toNat

/-- The window bound (40_frame_codec.md R128, 10_state.md R47): empty, or a start marker followed by less than a header, or by
less than the frame its header declares, which is then an acceptable length. -/
abbrev windowOk (p : Params) (win : List Byte) : Prop :=
  win = [] ∨
    (win.head? = some p.startMarker ∧
      (win.length < 6 ∨ (win.length < 7 + declaredLength p win ∧ declaredLength p win ≤ p.maxRxPayload.toNat)))

/-- FC holds received bytes only while it owns the transport and the link is up (41_control.md R142, R149, R150). -/
abbrev windowOwned (s : State) : Prop := (s.owner = .te ∨ s.linkUp = false) → s.rxwin = []

/-- An active session owns the transport (43_transfer_engine.md R185, 41_control.md R143), on an open link (R149), with the
configuration and the budget it started with (41_control.md R146, 43_transfer_engine.md R181, R191). -/
abbrev sessionOk (s : State) : Prop :=
  s.teState.active = true →
    s.owner = .te ∧ s.linkUp = true ∧ s.imgLen ≤ s.params.imageMax ∧ s.totalBlocks = blockCount s.imgLen ∧
      0 < s.retriesLeft ∧ s.retriesLeft ≤ s.retryLimit

/-- Where the sequencer stands: the index and the progress that each state and phase of a session implies
(10_state.md R38, R45; 43_transfer_engine.md R186 to R188). -/
abbrev positionOk (s : State) : Prop :=
  (s.teState = .awaitHandshake → s.curIndex = 0 ∧ s.progress = 0) ∧
    (s.teState = .sending → s.tePhase = .data →
      0 < s.curIndex ∧ s.curIndex ≤ s.totalBlocks ∧ s.progress + 1 = s.curIndex) ∧
    (s.teState = .sending → s.tePhase = .eot → s.curIndex = s.totalBlocks ∧ s.progress = s.totalBlocks) ∧
    (s.teState = .complete → s.curIndex = s.totalBlocks ∧ s.progress = s.totalBlocks)

/-- The error record agrees with the state: none before the end of a session and after COMPLETE; kinds 1, 2 and 4 with ABORTED
and kind 3 with CANCELLED (60_exceptions.md R232). -/
abbrev errorOk (s : State) : Prop :=
  match s.teState with
  | .idle | .init | .awaitHandshake | .sending | .complete =>
    s.teErr = { kind := .none, phase := .none, block := 0, retries := 0 }
  | .aborted => s.teErr.kind = .handshakeTimeout ∨ s.teErr.kind = .blockRetryExhausted ∨ s.teErr.kind = .portError
  | .cancelled => s.teErr.kind = .transferCancelled

/-- `VERIFY.VALID` is the conjunction of the three checks (10_state.md R46). -/
abbrev verifyOk (v : Verify) : Prop := v.valid = (v.sohOk && v.compOk && v.crcOk)

/-- The invariant of the machine between steps. INIT is never held (10_state.md R35), RETRY_LIMIT is never 0 (R40). -/
structure StateInv (s : State) : Prop where
  params : s.params.wf
  buffers : buffersOk s
  queue : queueOk s
  window : windowOk s.params s.rxwin
  owned : windowOwned s
  notInit : s.teState ≠ .init
  retryLimit : s.retryLimit ≠ 0
  session : sessionOk s
  position : positionOk s
  error : errorOk s
  verify : verifyOk s.verify

/-! ### Terms of claims -/

/-- The bytes `bs` lie in a buffer from address `a` on. -/
def holdsAt (m : Memory) (a : Nat) (bs : List Byte) : Prop :=
  ∀ (k : Nat) (hk : k < bs.length), Memory.read m (a + k) = some bs[k]

/-- Of the `n` bytes from `a` on, the one at `a + k` is the first with no value. -/
def firstMissing (m : Memory) (a n k : Nat) : Prop :=
  k < n ∧ Memory.read m (a + k) = none ∧ ∀ j, j < k → Memory.read m (a + j) ≠ none

/-- Address of the first image byte of block `k` (43_transfer_engine.md R183 `s`). -/
def blockStart (k : Nat) : Nat := 128 * (k - 1)

/-- How many image bytes block `k` carries (43_transfer_engine.md R183 `n`). -/
def blockBytesOf (imgLen : Word) (k : Nat) : Nat := min 128 (imgLen.toNat - blockStart k)

/-- The image bytes that block `k` carries are `bs` (43_transfer_engine.md R183 `MemRead(IMAGE, s, n)`). -/
def blockHeld (s : State) (k : Nat) (bs : List Byte) : Prop :=
  bs.length = blockBytesOf s.imgLen k ∧ holdsAt s.image (blockStart k) bs

/-- Block `k` on the wire when it carries the image bytes `bs` (43_transfer_engine.md R183, R184). -/
def wireBlock (k : Nat) (bs : List Byte) : List Byte :=
  let payload := bs ++ List.replicate (128 - bs.length) 0x1A
  [0x01, BitVec.ofNat 8 k, 255 - BitVec.ofNat 8 k] ++ payload ++
    [(crc16 payload).extractLsb' 8 8, (crc16 payload).extractLsb' 0 8]

/-- The image is `img` (43_transfer_engine.md R185 operands, 10_state.md R36). -/
def holdsImage (s : State) (img : List Byte) : Prop := img.length = s.imgLen.toNat ∧ holdsAt s.image 0 img

/-- Block `k` of an image on the wire. -/
def imageBlock (img : List Byte) (k : Nat) : List Byte := wireBlock k ((img.drop (blockStart k)).take 128)

/-- Steps taken one after the other, stopping at the first that gives no next state (20_memory.md R67). -/
def afterSteps : List Instr → State → Result
  | [], s => .next s
  | i :: is, s => andThen (exec i s) (afterSteps is)

/-- The step kinds of 30_encoding.md R84: what the host and the environment do, "every step of the model is one of these
kinds". -/
def agentStep : Instr → Prop
  | .rxByte _ | .timeout | .portFault | .portReopen | .reset | .regWr _ _ | .regRd _ | .bufWr _ _ _ | .bufRd _ _ => True
  | .nop | .fcSend | .fcRxPop | .fcRxRestart | .portGrantTe | .portReturnFc | .teStart | .teCancel | .blockVerify
  | .frame _ _ _ _ | .block _ _ | .eot | .canCan | .ack | .nak | .handshakeC => False

/-- The next `n` steps of the machine, stopping at the first that gives no next state (20_memory.md R67). -/
def runSteps : Nat → State → Result
  | 0, s => .next s
  | n + 1, s => andThen (step s) (runSteps n)

/-- A failed attempt while SENDING: a byte that is not ACK, or a timeout (00_scope.md R12, 43_transfer_engine.md R189,
R190). -/
def failingReply : Instr → Prop
  | .timeout => True
  | .rxByte b => b ≠ 0x06
  | _ => False

/-- A run "ends well" for a firmware transfer when STATE is COMPLETE and no model fault has occurred
(70_reset_and_hazards.md R274): the outcome of its last step is this state. -/
def endsWell (r : Result) : Prop := ∃ s, r = .next s ∧ s.teState = .complete

end Sys2Proof.Machine
end

