-- ==== Sys2Proof/Certificates/Slice0/Obligations.lean ====
section
/-! DEFINITION. The statements for the provers, each with the rule of spec/ it formalises. -/

open Sys2Proof Sys2Proof.Machine

/-! ### Encoding -/

/-- 30_encoding.md R80, R84, R86, R88 to R91: decoding the encoding of a well-formed instruction gives it back, whatever bytes
follow. The layout of a step's arguments is the model's (log 2, log 3). -/
def Obligations.DecodeEncodeRoundTrip : Prop :=
  ∀ (p : Params) (i : Instr) (rest : List Byte), i.wellFormed = true →
    decode p { lane := (encode p i).lane, bytes := (encode p i).bytes ++ rest } = .ok (i, rest)

/-- 20_memory.md R64, 30_encoding.md R88, 40_frame_codec.md R112: the decoder answers well-formed instructions only. -/
def Obligations.DecoderAnswersWellFormed : Prop :=
  ∀ (p : Params) (pk : Packet) (i : Instr) (rest : List Byte), decode p pk = .ok (i, rest) → i.wellFormed = true

/-- 30_encoding.md R80: the low byte alone selects the command, whatever the other three bytes of the word are. -/
def Obligations.OpcodeAloneSelectsCommand : Prop :=
  ∀ (p : Params) (c : Command) (b1 b2 b3 : Byte),
    decode p { lane := .command, bytes := [c.opcode, b1, b2, b3] } = .ok (c.toInstr, [])

/-- 30_encoding.md R81, R84, R86, R89 to R91 and vector FC-E5: words written out from the spec decode to what they stand for.
The argument bytes of the steps lie as log 2 says. -/
def Obligations.WrittenWordsDecode : Prop :=
  let p := Params.default
  decode p { lane := .command, bytes := [0x20, 0, 0, 0] } = .ok (.teStart, []) ∧
    decode p { lane := .command, bytes := [0x10, 0xEF, 0xCD, 0xAB] } = .ok (.portGrantTe, []) ∧
    decode p { lane := .step, bytes := [0x90, 0x54, 0x0A, 0, 0, 0] } = .ok (.regWr 0x54 10, []) ∧
    decode p { lane := .step, bytes := [0x80, 0x43] } = .ok (.rxByte 0x43, []) ∧
    decode p { lane := .frameRx, bytes := [0x01, 0x03, 0xFF, 0xFF, 0x00, 0x04, 0x00, 0x01, 0x02, 0x03, 0x0C] } =
      .ok (.frame .rx 3 0xFFFF [0, 1, 2, 3], []) ∧
    decode p { lane := .blockRx, bytes := [0x15] } = .ok (.nak, []) ∧
    decode p { lane := .blockTx, bytes := [0x18, 0x18] } = .ok (.canCan, [])

/-! ### Stepping -/

/-- 20_memory.md R67, 00_scope.md R6 (the packets are the model's, log 1): a step runs the instruction that the next pending
packet decodes to, on the state that has consumed it and is otherwise the same. -/
def Obligations.StepRunsDecodedInstruction : Prop :=
  ∀ (s : State) (pk : Packet) (more : List Packet) (i : Instr) (rest : List Byte),
    s.pending = pk :: more → decode s.params pk = .ok (i, rest) →
      step s = exec i { s with pending := if rest = [] then more else { lane := pk.lane, bytes := rest } :: more }

/-- 00_scope.md R6, 10_state.md R20, 30_encoding.md R84, 70_reset_and_hazards.md R261: the block changes state only in a step of
an agent. With none pending nothing changes, and a packet that encodes none is no step (log 1). Whatever instruction gives a
next state, it is the next state of one of the steps of R84, or the instruction is a FRAME, which only expands to such steps
(log 9). -/
def Obligations.NoStepWithoutAnAgent : Prop :=
  (∀ s : State, s.pending = [] → step s = .next s) ∧
    (∀ (s : State) (pk : Packet) (more : List Packet) (e : DecodeError),
      s.pending = pk :: more → decode s.params pk = .error e → step s = .refused (.undecodable e)) ∧
    ∀ (i : Instr) (s t : State), exec i s = .next t →
      (∃ j : Instr, agentStep j ∧ exec j s = .next t) ∨
        ∃ (dir : Direction) (id : Byte) (type : Half) (payload : List Byte) (steps : List Instr),
          i = .frame dir id type payload ∧ (∀ j ∈ steps, agentStep j) ∧
            t = { s with pending := steps.map (encode s.params) ++ s.pending }

/-! ### Commands -/

/-- 10_state.md R26: a host write of CMD executes the command whose opcode is bits 7..0, and a read of CMD returns 0. -/
def Obligations.CmdWriteExecutesCommand : Prop :=
  (∀ (c : Command) (v : Word) (s : State), v.extractLsb' 0 8 = c.opcode → exec (.regWr 0x00 v) s = exec c.toInstr s) ∧
    ∀ s : State, exec (.regRd 0x00) s = .next { s with readData := 0 }

/-- 41_control.md R140, R141, 30_encoding.md R82: NOP sets the result OK and nothing else, and every opcode that is no command
sets ILLEGAL_OPCODE and nothing else. -/
def Obligations.NopAndIllegalOpcodesSetResultOnly : Prop :=
  (∀ s : State, exec .nop s = .next { s with result := .ok }) ∧
    ∀ (v : Word) (s : State),
      v.extractLsb' 0 8 ∉ ([0x00, 0x01, 0x02, 0x03, 0x10, 0x11, 0x20, 0x21, 0x30] : List Byte) →
        exec (.regWr 0x00 v) s = .next { s with result := .illegalOpcode }

/-- 41_control.md R142: PORT_GRANT_TE. -/
def Obligations.GrantHandsPortToTransferEngine : Prop :=
  ∀ s : State,
    (s.owner = .te → exec .portGrantTe s = .next { s with result := .ok }) ∧
      (s.owner = .fc → exec .portGrantTe s = .next { s with rxwin := [], owner := .te, result := .ok })

/-- 41_control.md R143: PORT_RETURN_FC. -/
def Obligations.ReturnHandsPortToFrameCodec : Prop :=
  ∀ s : State,
    (s.teState = .awaitHandshake ∨ s.teState = .sending →
        exec .portReturnFc s = .next { s with result := .sessionBusy }) ∧
      (s.teState ≠ .awaitHandshake → s.teState ≠ .sending → s.owner = .fc →
        exec .portReturnFc s = .next { s with result := .ok }) ∧
      (s.teState ≠ .awaitHandshake → s.teState ≠ .sending → s.owner = .te →
        exec .portReturnFc s = .next { s with rxwin := [], owner := .fc, result := .ok })

/-- 40_frame_codec.md R112, 30_encoding.md R86: the encoder's result, field by field, and its length. -/
def Obligations.EncodedFrameLayout : Prop :=
  ∀ (p : Params) (id : Byte) (type : Half) (payload : List Byte), payload.length ≤ 65535 →
    (encodeFrame p id type payload).length = 7 + payload.length ∧
      ∃ b2 b3 b4 b5 c : Byte,
        encodeFrame p id type payload = [p.startMarker, id, b2, b3, b4, b5] ++ payload ++ [c] ∧
          c = checksumOf p.checksum ([p.startMarker, id, b2, b3, b4, b5] ++ payload) ∧
          (match p.fieldOrder with
            | .be => b2.toNat * 256 + b3.toNat = type.toNat ∧ b4.toNat * 256 + b5.toNat = payload.length
            | .le => b3.toNat * 256 + b2.toNat = type.toNat ∧ b5.toNat * 256 + b4.toNat = payload.length)

/-- 40_frame_codec.md R113: FC_SEND, its result codes in their order, its effect and its model fault. -/
def Obligations.FcSendTransmitsFrame : Prop :=
  ∀ s : State,
    (s.owner = .te → exec .fcSend s = .next { s with result := .notOwner }) ∧
      (s.owner = .fc → s.linkUp = false → exec .fcSend s = .next { s with result := .portError }) ∧
      (∀ k : Nat, s.owner = .fc → s.linkUp = true → firstMissing s.txbuf 0 s.txLen.toNat k →
        exec .fcSend s = .fault (.uninitByte .txbuf k)) ∧
      (∀ payload : List Byte, s.owner = .fc → s.linkUp = true → payload.length = s.txLen.toNat →
        holdsAt s.txbuf 0 payload →
          exec .fcSend s =
            .next { s with txlog := s.txlog ++ encodeFrame s.params s.txId s.txType payload, result := .ok })

/-- 40_frame_codec.md R123: FC_RX_POP moves the oldest frame to the RX registers and RXBUF[0..LEN), and leaves the rest of
RXBUF. -/
def Obligations.FcRxPopMovesOldestFrame : Prop :=
  ∀ s : State,
    (s.rxq = [] → exec .fcRxPop s = .next { s with result := .rxqEmpty }) ∧
      ∀ (f : Frame) (rest : List Frame), s.rxq = f :: rest →
        ∃ m : Memory,
          exec .fcRxPop s =
              .next
                { s with
                  rxq := rest, rxId := f.id, rxType := f.type, rxLen := BitVec.ofNat 16 f.payload.length
                  rxCsum := f.checksum, rxbuf := m, result := .ok } ∧
            holdsAt m 0 f.payload ∧ ∀ a : Nat, f.payload.length ≤ a → Memory.read m a = Memory.read s.rxbuf a

/-- 40_frame_codec.md R124: FC_RX_RESTART empties the window and changes nothing else but the result. -/
def Obligations.FcRxRestartEmptiesWindow : Prop :=
  ∀ s : State, exec .fcRxRestart s = .next { s with rxwin := [], result := .ok }

/-- 43_transfer_engine.md R185 (and R181 for N): TE_START, its errors in their order and its effect. -/
def Obligations.TeStartBeginsSession : Prop :=
  ∀ s : State,
    (s.teState = .awaitHandshake ∨ s.teState = .sending → exec .teStart s = .next { s with result := .sessionBusy }) ∧
      (s.teState ≠ .awaitHandshake → s.teState ≠ .sending →
        (s.owner = .fc → exec .teStart s = .next { s with result := .notOwner }) ∧
          (s.owner = .te → s.linkUp = false → exec .teStart s = .next { s with result := .portError }) ∧
          (s.owner = .te → s.linkUp = true → s.params.imageMax.toNat < s.imgLen.toNat →
            exec .teStart s = .next { s with result := .lengthError }) ∧
          (s.owner = .te → s.linkUp = true → s.imgLen.toNat ≤ s.params.imageMax.toNat →
            ∃ n : Word,
              exec .teStart s =
                  .next
                    { s with
                      teState := .awaitHandshake, totalBlocks := n, curIndex := 0, progress := 0
                      retriesLeft := s.retryLimit, tePhase := .data
                      teErr := { kind := .none, phase := .none, block := 0, retries := 0 }, result := .ok } ∧
                s.imgLen.toNat ≤ 128 * n.toNat ∧ 128 * n.toNat < s.imgLen.toNat + 128))

/-- 43_transfer_engine.md R194, R197, 30_encoding.md R90: TE_CANCEL sends CAN CAN, records the error and ends CANCELLED; with
no session it sends nothing. -/
def Obligations.TeCancelSendsCanCan : Prop :=
  ∀ s : State,
    (s.teState ≠ .awaitHandshake → s.teState ≠ .sending → exec .teCancel s = .next { s with result := .noSession }) ∧
      (s.teState = .awaitHandshake ∨ s.teState = .sending →
        exec .teCancel s =
          .next
            { s with
              txlog := s.txlog ++ [0x18, 0x18]
              teErr :=
                { kind := .transferCancelled
                  phase :=
                    if s.teState = .awaitHandshake then .handshake else if s.tePhase = .data then .data else .eot
                  block := s.curIndex.extractLsb' 0 8
                  retries := s.retryLimit - s.retriesLeft }
              teState := .cancelled
              irq := { s.irq with teDone := true }
              result := .ok })

/-- 42_crc16_verifier.md R163: BLOCK_VERIFY over the 133 bytes of VBUF, and its model fault. -/
def Obligations.BlockVerifyChecksVbuf : Prop :=
  ∀ s : State,
    (∀ k : Nat, firstMissing s.vbuf 0 133 k → exec .blockVerify s = .fault (.uninitByte .vbuf k)) ∧
      ∀ (soh blk nblk hi lo : Byte) (payload : List Byte), payload.length = 128 →
        holdsAt s.vbuf 0 ([soh, blk, nblk] ++ payload ++ [hi, lo]) →
          ∃ v : Verify,
            exec .blockVerify s = .next { s with verify := v, result := .ok } ∧
              (v.sohOk = true ↔ soh.toNat = 0x01) ∧
              (v.compOk = true ↔ nblk.toNat = 255 - blk.toNat) ∧
              (v.crcOk = true ↔ (crc16 payload).toNat = hi.toNat * 256 + lo.toNat) ∧
              v.valid = (v.sohOk && v.compOk && v.crcOk) ∧
              v.crcCalc = crc16 payload

/-- 60_exceptions.md R231: a command that gives a code other than OK changes nothing but CMD_RESULT. -/
def Obligations.FailedCommandChangesResultOnly : Prop :=
  ∀ (c : Command) (s t : State), exec c.toInstr s = .next t → t.result ≠ .ok → t = { s with result := t.result }

/-! ### The CRC -/

/-- 42_crc16_verifier.md R164: flipping any one bit of a 128-byte payload changes its CRC, and BLOCK_VERIFY then reports
CRC_OK = 0 for the block whose CRC bytes are those of the payload sent. -/
def Obligations.SingleBitFlipDetected : Prop :=
  ∀ (payload : List Byte) (j k : Nat) (hj : j < payload.length), payload.length = 128 → k < 8 →
    crc16 (payload.set j (payload[j] ^^^ (1#8 <<< k))) ≠ crc16 payload ∧
      ∀ (s : State) (soh blk nblk : Byte),
        holdsAt s.vbuf 0
            ([soh, blk, nblk] ++ payload.set j (payload[j] ^^^ (1#8 <<< k)) ++
              [(crc16 payload).extractLsb' 8 8, (crc16 payload).extractLsb' 0 8]) →
          ∃ t : State, exec .blockVerify s = .next t ∧ t.verify.crcOk = false

/-! ### The decoder -/

/-- 40_frame_codec.md R114, with R116 to R119: `scan` obeys each exit and each pass of the spec's loop. -/
def Obligations.ScanFollowsTheLoop : Prop :=
  ∀ p : Params,
    (∀ win : List Byte, p.startMarker ∉ win → scan p win = { window := [], frames := [], errs := 0 }) ∧
      (∀ garbage win : List Byte, p.startMarker ∉ garbage → scan p (garbage ++ win) = scan p win) ∧
      (∀ win : List Byte, win.head? = some p.startMarker → win.length < 6 →
        scan p win = { window := win, frames := [], errs := 0 }) ∧
      (∀ (id t0 t1 l0 l1 : Byte) (tail : List Byte),
        let win := [p.startMarker, id, t0, t1, l0, l1] ++ tail
        let len := field16 p.fieldOrder l0 l1
        (p.maxRxPayload.toNat < len.toNat →
            scan p win = { scan p (win.drop 1) with errs := (scan p (win.drop 1)).errs + 1 }) ∧
          (len.toNat ≤ p.maxRxPayload.toNat → win.length < 7 + len.toNat →
            scan p win = { window := win, frames := [], errs := 0 }) ∧
          (∀ (payload : List Byte) (c : Byte) (after : List Byte), len.toNat ≤ p.maxRxPayload.toNat →
            payload.length = len.toNat → tail = payload ++ [c] ++ after →
              (checksumOf p.checksum ([p.startMarker, id, t0, t1, l0, l1] ++ payload) = c →
                  scan p win =
                    { scan p after with
                      frames :=
                        { id := id, type := field16 p.fieldOrder t0 t1, payload := payload, checksum := c } ::
                          (scan p after).frames }) ∧
                (checksumOf p.checksum ([p.startMarker, id, t0, t1, l0, l1] ++ payload) ≠ c →
                  scan p win = { scan p (win.drop 1) with errs := (scan p (win.drop 1)).errs + 1 })))

/-- 40_frame_codec.md R114 "the frames found are a function of the bytes received alone": scanning in pieces, each on the window
the one before left, finds what one scan of all the bytes finds. -/
def Obligations.ScanInPiecesIsScanAtOnce : Prop :=
  ∀ (p : Params) (xs ys : List Byte),
    scan p (xs ++ ys) =
      { window := (scan p ((scan p xs).window ++ ys)).window
        frames := (scan p xs).frames ++ (scan p ((scan p xs).window ++ ys)).frames
        errs := (scan p xs).errs + (scan p ((scan p xs).window ++ ys)).errs }

/-- 40_frame_codec.md R128: the window a scan leaves is empty or starts with the marker, shorter than the frame its header
declares or than a header, so it holds at most 6 + P_MAX_RX_PAYLOAD bytes. -/
def Obligations.ScanBoundsTheWindow : Prop :=
  ∀ (p : Params) (win : List Byte),
    windowOk p (scan p win).window ∧ (scan p win).window.length ≤ 6 + p.maxRxPayload.toNat

/-- 40_frame_codec.md R115, R120, R122: a byte received by FC: the window, the counted errors, and of the frames found the first
ones go to the tail of the queue as long as there is room, the others are dropped and counted. -/
def Obligations.ReceivedByteDeliversFrames : Prop :=
  ∀ (b : Byte) (s : State), s.linkUp = true → s.owner = .fc →
    let r := scan s.params (s.rxwin ++ [b])
    let room := s.params.rxqDepth.toNat - s.rxq.length
    exec (.rxByte b) s =
      .next
        { s with
          rxwin := r.window
          framingErrs := BitVec.ofNat 16 (min (s.framingErrs.toNat + r.errs) 65535)
          rxq := s.rxq ++ r.frames.take room
          rxqDrops := BitVec.ofNat 16 (min (s.rxqDrops.toNat + (r.frames.length - room)) 65535)
          irq :=
            { s.irq with
              framing := s.irq.framing || decide (0 < r.errs)
              rxqDrop := s.irq.rxqDrop || decide (room < r.frames.length) } }

/-- 30_encoding.md R93, 40_frame_codec.md R113: FRAME expands to steps of the agents and changes nothing of the block (that the
expansion is a step of the model, and that a departing frame is `send`, is its choice, log 9). Arriving, it is `rxframe`: one
RX_BYTE for each byte of the frame, in order. Departing, it is `send`, which transmits the frame while FC owns an open link. -/
def Obligations.FrameExpandsToAgentSteps : Prop :=
  ∀ (id : Byte) (type : Half) (payload : List Byte) (s : State), payload.length ≤ 65535 →
    (∃ t : State,
      exec (.frame .rx id type payload) s = .next t ∧
        t =
          { s with
            pending :=
              (encodeFrame s.params id type payload).map (fun b => { lane := .step, bytes := [0x80, b] }) ++ s.pending } ∧
        runSteps (7 + payload.length) t = afterSteps ((encodeFrame s.params id type payload).map .rxByte) s) ∧
      ∃ t : State,
        exec (.frame .tx id type payload) s = .next t ∧ t = { s with pending := t.pending } ∧
          (s.owner = .fc → s.linkUp = true →
            ∃ m : Memory,
              holdsAt m 0 payload ∧
                (∀ a : Nat, payload.length ≤ a → Memory.read m a = Memory.read s.txbuf a) ∧
                runSteps (payload.length + 4) t =
                  .next
                    { s with
                      txbuf := m, txId := id, txType := type, txLen := BitVec.ofNat 16 payload.length
                      txlog := s.txlog ++ encodeFrame s.params id type payload, result := .ok })

/-- 40_frame_codec.md R126: a frame fed byte by byte into an empty window is delivered as exactly one frame, with no framing
error and an empty window after it. With a full queue it is dropped instead (R122). -/
def Obligations.FrameRoundTripDelivery : Prop :=
  ∀ (id : Byte) (type : Half) (payload : List Byte) (s : State),
    s.linkUp = true → s.owner = .fc → s.rxwin = [] → payload.length ≤ s.params.maxRxPayload.toNat →
      (s.rxq.length < s.params.rxqDepth.toNat →
          afterSteps ((encodeFrame s.params id type payload).map .rxByte) s =
            .next
              { s with
                rxq :=
                  s.rxq ++
                    [{ id := id, type := type, payload := payload
                       checksum := checksumOf s.params.checksum (frameBody s.params id type payload) }] }) ∧
        (s.params.rxqDepth.toNat ≤ s.rxq.length →
          afterSteps ((encodeFrame s.params id type payload).map .rxByte) s =
            .next
              { s with
                rxqDrops := BitVec.ofNat 16 (min (s.rxqDrops.toNat + 1) 65535)
                irq := { s.irq with rxqDrop := true } })

/-- 40_frame_codec.md R127: a valid frame `F` at position `pre.length` of the stream is found, if no candidate that starts before
it is accepted and ends inside it or later, and none is still incomplete. -/
def Obligations.ResyncFindsTheNextFrame : Prop :=
  ∀ (p : Params) (pre : List Byte) (id : Byte) (type : Half) (payload later : List Byte),
    payload.length ≤ p.maxRxPayload.toNat →
      let stream := pre ++ encodeFrame p id type payload ++ later
      (∀ q : Nat, q < pre.length → (stream.drop q).head? = some p.startMarker →
          candidate p (stream.drop q) ≠ .incomplete ∧
            ∀ f : Frame, candidate p (stream.drop q) = .accepted f → q + (7 + f.payload.length) ≤ pre.length) →
        { id := id, type := type, payload := payload, checksum := checksumOf p.checksum (frameBody p id type payload) } ∈
          (scan p stream).frames

/-! ### The Transfer Engine -/

/-- 43_transfer_engine.md R186 (R182 to R184 for the block): a byte in AWAIT_HANDSHAKE. -/
def Obligations.HandshakeStartsSending : Prop :=
  ∀ s : State, s.linkUp = true → s.owner = .te → s.teState = .awaitHandshake →
    (∀ bs : List Byte, s.totalBlocks ≠ 0 → blockHeld s 1 bs →
        exec (.rxByte 0x43) s =
          .next
            { s with
              retriesLeft := s.retryLimit, curIndex := 1, tePhase := .data, teState := .sending
              txlog := s.txlog ++ wireBlock 1 bs }) ∧
      (s.totalBlocks = 0 →
        exec (.rxByte 0x43) s =
          .next
            { s with retriesLeft := s.retryLimit, tePhase := .eot, teState := .sending, txlog := s.txlog ++ [0x04] }) ∧
      ∀ b : Byte, b ≠ 0x43 → exec (.rxByte b) s = .next s

/-- 43_transfer_engine.md R187, R195: ACK in the DATA phase. -/
def Obligations.AckAdvancesToNextBlock : Prop :=
  ∀ s : State, s.linkUp = true → s.owner = .te → s.teState = .sending → s.tePhase = .data →
      (∀ bs : List Byte, s.curIndex.toNat < s.totalBlocks.toNat → blockHeld s (s.curIndex.toNat + 1) bs →
          exec (.rxByte 0x06) s =
            .next
              { s with
                progress := s.curIndex
                irq := { s.irq with progress := if s.progressEn = true then true else s.irq.progress }
                retriesLeft := s.retryLimit
                curIndex := s.curIndex + 1
                txlog := s.txlog ++ wireBlock (s.curIndex.toNat + 1) bs }) ∧
        (s.totalBlocks.toNat ≤ s.curIndex.toNat →
          exec (.rxByte 0x06) s =
            .next
              { s with
                progress := s.curIndex
                irq := { s.irq with progress := if s.progressEn = true then true else s.irq.progress }
                retriesLeft := s.retryLimit
                tePhase := .eot
                txlog := s.txlog ++ [0x04] })

/-- 43_transfer_engine.md R188, R197: ACK in the EOT phase completes the session and transmits nothing. -/
def Obligations.AckOfEotCompletes : Prop :=
  ∀ s : State, s.linkUp = true → s.owner = .te → s.teState = .sending → s.tePhase = .eot →
      exec (.rxByte 0x06) s = .next { s with teState := .complete, irq := { s.irq with teDone := true } }

/-- 43_transfer_engine.md R189 to R191: every byte that is not ACK and every timeout while SENDING is a failed attempt. -/
def Obligations.FailedAttemptRetransmitsOrAborts : Prop :=
  ∀ (s : State) (i : Instr), failingReply i → i = .timeout ∨ (s.linkUp = true ∧ s.owner = .te) →
    s.teState = .sending →
    (s.retriesLeft = 1 →
        exec i s =
          .next
            { s with
              retriesLeft := 0
              teErr :=
                { kind := .blockRetryExhausted, phase := if s.tePhase = .data then .data else .eot
                  block := s.curIndex.extractLsb' 0 8, retries := s.retryLimit }
              teState := .aborted
              irq := { s.irq with teDone := true } }) ∧
      (∀ bs : List Byte, 1 < s.retriesLeft.toNat → s.tePhase = .data → s.curIndex ≠ 0 →
        blockHeld s s.curIndex.toNat bs →
          exec i s =
            .next { s with retriesLeft := s.retriesLeft - 1, txlog := s.txlog ++ wireBlock s.curIndex.toNat bs }) ∧
      (1 < s.retriesLeft.toNat → s.tePhase = .eot →
        exec i s = .next { s with retriesLeft := s.retriesLeft - 1, txlog := s.txlog ++ [0x04] })

/-- 43_transfer_engine.md R192, R197: a timeout in AWAIT_HANDSHAKE; R196: with no active session there is no timeout. -/
def Obligations.HandshakeTimeoutAborts : Prop :=
  ∀ s : State,
    (s.teState = .awaitHandshake →
        exec .timeout s =
          .next
            { s with
              teErr := { kind := .handshakeTimeout, phase := .handshake, block := 0, retries := 0 }
              teState := .aborted
              irq := { s.irq with teDone := true } }) ∧
      (s.teState ≠ .awaitHandshake → s.teState ≠ .sending → exec .timeout s = .refused (.notEnabled .timeout))

/-- 43_transfer_engine.md R193: a byte that reaches TE with no session is discarded. -/
def Obligations.ByteWithNoSessionDiscarded : Prop :=
  ∀ (s : State) (b : Byte), s.linkUp = true → s.owner = .te →
    s.teState = .idle ∨ s.teState = .complete ∨ s.teState = .aborted ∨ s.teState = .cancelled →
      exec (.rxByte b) s = .next s

/-- 43_transfer_engine.md R183: the step that transmits a block faults at the first image byte of the block with no value. -/
def Obligations.UnwrittenImageByteFaults : Prop :=
  ∀ (s : State) (i : Instr) (k : Nat), i = .timeout ∨ (s.linkUp = true ∧ s.owner = .te) →
    (i = .rxByte 0x43 → s.teState = .awaitHandshake → s.totalBlocks ≠ 0 →
        firstMissing s.image (blockStart 1) (blockBytesOf s.imgLen 1) k →
          exec i s = .fault (.uninitByte .image (blockStart 1 + k))) ∧
      (i = .rxByte 0x06 → s.teState = .sending → s.tePhase = .data →
        s.curIndex.toNat < s.totalBlocks.toNat →
        firstMissing s.image (blockStart (s.curIndex.toNat + 1)) (blockBytesOf s.imgLen (s.curIndex.toNat + 1)) k →
          exec i s = .fault (.uninitByte .image (blockStart (s.curIndex.toNat + 1) + k))) ∧
      (failingReply i → s.teState = .sending → s.tePhase = .data → 1 < s.retriesLeft.toNat → s.curIndex ≠ 0 →
        firstMissing s.image (blockStart s.curIndex.toNat) (blockBytesOf s.imgLen s.curIndex.toNat) k →
          exec i s = .fault (.uninitByte .image (blockStart s.curIndex.toNat + k)))

/-- 43_transfer_engine.md R199: the retry bound. With limit R and block k just sent: K failing replies, K < R, then an ACK,
make K more transmissions of block k before block k + 1 or EOT; K ≥ R failing replies abort after R - 1 more transmissions,
and whatever bytes follow, nothing is sent. -/
def Obligations.RetryBoundLaw : Prop :=
  ∀ (s : State) (bs : List Byte) (fails : List Instr),
    s.linkUp = true → s.owner = .te → s.teState = .sending → s.tePhase = .data → s.retriesLeft = s.retryLimit →
    s.retryLimit ≠ 0 → s.curIndex ≠ 0 → blockHeld s s.curIndex.toNat bs → (∀ i ∈ fails, failingReply i) →
      (∀ nb : List Byte, fails.length < s.retryLimit.toNat → s.curIndex.toNat < s.totalBlocks.toNat →
          blockHeld s (s.curIndex.toNat + 1) nb →
          ∃ t : State,
            afterSteps (fails ++ [.rxByte 0x06]) s = .next t ∧ t.teState = .sending ∧ t.curIndex = s.curIndex + 1 ∧
              t.txlog =
                s.txlog ++ (List.replicate fails.length (wireBlock s.curIndex.toNat bs)).flatten ++
                  wireBlock (s.curIndex.toNat + 1) nb) ∧
        (fails.length < s.retryLimit.toNat → s.totalBlocks.toNat ≤ s.curIndex.toNat →
          ∃ t : State,
            afterSteps (fails ++ [.rxByte 0x06]) s = .next t ∧ t.teState = .sending ∧ t.tePhase = .eot ∧
              t.txlog =
                s.txlog ++ (List.replicate fails.length (wireBlock s.curIndex.toNat bs)).flatten ++ [0x04]) ∧
        (∀ later : List Byte, fails.length = s.retryLimit.toNat →
          ∃ t : State,
            afterSteps (fails ++ later.map .rxByte) s = .next t ∧ t.teState = .aborted ∧
              t.teErr.kind = .blockRetryExhausted ∧
              t.txlog =
                s.txlog ++ (List.replicate (s.retryLimit.toNat - 1) (wireBlock s.curIndex.toNat bs)).flatten)

/-- 43_transfer_engine.md R200: TE_START, 'C' and an ACK of every transmission: N blocks and one EOT, and COMPLETE. -/
def Obligations.EndToEndTransfer : Prop :=
  ∀ (s : State) (img : List Byte) (n : Nat),
    s.linkUp = true → s.owner = .te → s.teState ≠ .awaitHandshake → s.teState ≠ .sending → holdsImage s img →
    s.imgLen.toNat ≤ s.params.imageMax.toNat → img.length ≤ 128 * n → 128 * n < img.length + 128 →
      ∃ t : State,
        afterSteps (.teStart :: .rxByte 0x43 :: List.replicate (n + 1) (.rxByte 0x06)) s = .next t ∧
          t.teState = .complete ∧ t.totalBlocks.toNat = n ∧ t.progress.toNat = n ∧
          t.teErr = { kind := .none, phase := .none, block := 0, retries := 0 } ∧
          t.txlog = s.txlog ++ ((List.range n).map fun j => imageBlock img (j + 1)).flatten ++ [0x04]

/-- 43_transfer_engine.md R197: every step that enters a terminal state sets TE_DONE and leaves the port with its owner. -/
def Obligations.TerminalEntrySetsTeDone : Prop :=
  ∀ (i : Instr) (s t : State), exec i s = .next t → s.teState.terminal = false → t.teState.terminal = true →
    t.irq.teDone = true ∧ t.owner = s.owner

/-! ### The link -/

/-- 41_control.md R144, 20_memory.md R73: a received byte goes to exactly one unit: what FC gets leaves the registers and the
transmissions of TE alone, what TE gets leaves the window, the queue and the counters of FC alone. While the link is down no
byte is delivered. -/
def Obligations.ReceivedByteGoesToOneUnit : Prop :=
  (∀ (b : Byte) (s : State), s.linkUp = false → exec (.rxByte b) s = .refused (.notEnabled .rxByte)) ∧
    ∀ (b : Byte) (s t : State), exec (.rxByte b) s = .next t →
      (s.owner = .fc →
        t.teState = s.teState ∧ t.tePhase = s.tePhase ∧ t.curIndex = s.curIndex ∧ t.progress = s.progress ∧
          t.retriesLeft = s.retriesLeft ∧ t.totalBlocks = s.totalBlocks ∧ t.teErr = s.teErr ∧ t.txlog = s.txlog) ∧
        (s.owner = .te →
          t.rxwin = s.rxwin ∧ t.rxq = s.rxq ∧ t.framingErrs = s.framingErrs ∧ t.rxqDrops = s.rxqDrops)

/-- 41_control.md R149, 43_transfer_engine.md R180 for the phase: PORT_FAULT with and without a session; it is not enabled while
the link is down (60_exceptions.md R246). -/
def Obligations.PortFaultAbortsSession : Prop :=
  ∀ s : State,
    (s.linkUp = false → exec .portFault s = .refused (.notEnabled .portFault)) ∧
    (s.linkUp = true → s.teState ≠ .awaitHandshake → s.teState ≠ .sending →
        exec .portFault s =
          .next { s with linkUp := false, irq := { s.irq with portErr := true }, rxwin := [] }) ∧
      (s.linkUp = true → s.teState = .awaitHandshake ∨ s.teState = .sending →
        exec .portFault s =
          .next
            { s with
              linkUp := false
              irq := { s.irq with portErr := true, teDone := true }
              rxwin := []
              teErr :=
                { kind := .portError
                  phase :=
                    if s.teState = .awaitHandshake then .handshake else if s.tePhase = .data then .data else .eot
                  block := s.curIndex.extractLsb' 0 8
                  retries := s.retryLimit - s.retriesLeft }
              teState := .aborted })

/-- 41_control.md R150: PORT_REOPEN; it is not enabled while the link is up (60_exceptions.md R246). -/
def Obligations.PortReopenOpensLink : Prop :=
  ∀ s : State,
    (s.linkUp = false → exec .portReopen s = .next { s with linkUp := true, rxwin := [] }) ∧
      (s.linkUp = true → exec .portReopen s = .refused (.notEnabled .portReopen))

/-- The symbols of 30_encoding.md R89 that the device sends arrive as the bytes they are (the rows' meaning is the model's
reading, log 8); with the link up and TE its owner, each has the effect that 43_transfer_engine.md R186, R188, R191 give its
byte. -/
def Obligations.ReplySymbolsAreReceivedBytes : Prop :=
  ∀ s : State,
    (exec .ack s = exec (.rxByte 0x06) s ∧ exec .nak s = exec (.rxByte 0x15) s ∧
        exec .handshakeC s = exec (.rxByte 0x43) s) ∧
      (s.linkUp = true → s.owner = .te → s.teState = .sending → s.tePhase = .eot →
          exec .ack s = .next { s with teState := .complete, irq := { s.irq with teDone := true } }) ∧
        (s.linkUp = true → s.owner = .te → s.teState = .sending → s.tePhase = .eot → 1 < s.retriesLeft.toNat →
          exec .nak s = .next { s with retriesLeft := s.retriesLeft - 1, txlog := s.txlog ++ [0x04] }) ∧
        (∀ bs : List Byte, s.linkUp = true → s.owner = .te → s.teState = .awaitHandshake → s.totalBlocks ≠ 0 →
          blockHeld s 1 bs →
            exec .handshakeC s =
              .next
                { s with
                  retriesLeft := s.retryLimit, curIndex := 1, tePhase := .data, teState := .sending
                  txlog := s.txlog ++ wireBlock 1 bs })

/-- 30_encoding.md R88, R90, R91, 43_transfer_engine.md R186, R187, R191, R194: what TE transmits departs within the step that
transmits it (the rows' meaning is the model's choice, log 10). BLOCK and EOT are the received byte on which TE transmits exactly
these bytes: 'C' for the first transmission of a session, ACK for the next one, NAK for a repeat; with no session there is no such
byte. CAN_CAN is TE_CANCEL. -/
def Obligations.DepartingFormatsReachTxlog : Prop :=
  (∀ (s t : State) (blk : Byte) (payload : List Byte), exec (.block blk payload) s = .next t →
      t.txlog = s.txlog ++ encodeBlock blk payload ∧ ∃ b : Byte, exec (.rxByte b) s = .next t) ∧
    (∀ s t : State, exec .eot s = .next t → t.txlog = s.txlog ++ [0x04] ∧ ∃ b : Byte, exec (.rxByte b) s = .next t) ∧
    (∀ (s : State) (k : Nat) (bs : List Byte), s.linkUp = true → s.owner = .te → blockHeld s k bs →
      let departure := exec (.block (BitVec.ofNat 8 k) (bs ++ List.replicate (128 - bs.length) 0x1A)) s
      (s.teState = .awaitHandshake → s.totalBlocks ≠ 0 → k = 1 →
          departure =
            .next
              { s with
                retriesLeft := s.retryLimit, curIndex := 1, tePhase := .data, teState := .sending
                txlog := s.txlog ++ wireBlock 1 bs }) ∧
        (s.teState = .sending → s.tePhase = .data → s.curIndex.toNat < s.totalBlocks.toNat → k = s.curIndex.toNat + 1 →
          departure = exec (.rxByte 0x06) s ∧ ∃ t : State, departure = .next t) ∧
        (s.teState = .sending → s.tePhase = .data → 1 < s.retriesLeft.toNat → k = s.curIndex.toNat →
          departure =
            .next { s with retriesLeft := s.retriesLeft - 1, txlog := s.txlog ++ wireBlock s.curIndex.toNat bs })) ∧
    (∀ s : State, s.linkUp = true → s.owner = .te →
      (s.teState = .awaitHandshake → s.totalBlocks = 0 →
          exec .eot s =
            .next
              { s with retriesLeft := s.retryLimit, tePhase := .eot, teState := .sending, txlog := s.txlog ++ [0x04] }) ∧
        (s.teState = .sending → s.tePhase = .data → s.totalBlocks.toNat ≤ s.curIndex.toNat →
          exec .eot s = exec (.rxByte 0x06) s ∧ ∃ t : State, exec .eot s = .next t) ∧
        (s.teState = .sending → s.tePhase = .eot → 1 < s.retriesLeft.toNat →
          exec .eot s = .next { s with retriesLeft := s.retriesLeft - 1, txlog := s.txlog ++ [0x04] })) ∧
    ∀ s : State,
      (s.teState ≠ .awaitHandshake → s.teState ≠ .sending →
          exec .canCan s = .next { s with result := .noSession } ∧ exec .eot s = .refused .mayNotTransmit ∧
            ∀ (blk : Byte) (payload : List Byte), payload.length = 128 →
              exec (.block blk payload) s = .refused .mayNotTransmit) ∧
        (s.teState = .awaitHandshake ∨ s.teState = .sending →
          exec .canCan s = exec .teCancel s ∧
            ∃ t : State, exec .canCan s = .next t ∧ t.txlog = s.txlog ++ [0x18, 0x18] ∧ t.teState = .cancelled)

/-! ### Reset -/

/-- 70_reset_and_hazards.md R260, R261: RESET, from every state, register by register; TXLOG is kept. -/
def Obligations.ResetRestoresEveryRegister : Prop :=
  ∀ s : State,
    ∃ t : State,
      exec .reset s = .next t ∧
        (readReg t .cmdResult = 0x00000000 ∧ readReg t .port = 0x00000002 ∧
          readReg t .txId = 0 ∧ readReg t .txType = 0 ∧ readReg t .txLen = 0 ∧
          readReg t .rxId = 0 ∧ readReg t .rxType = 0 ∧ readReg t .rxLen = 0 ∧ readReg t .rxCsum = 0 ∧
          readReg t .rxqCount = 0 ∧ readReg t .fcStats = 0 ∧ readReg t .teStatus = 0x00000000 ∧
          readReg t .imgLen = 0 ∧ readReg t .totalBlocks = 0 ∧ readReg t .curIndex = 0 ∧
          readReg t .teBlock = 0x0000FF00 ∧ readReg t .retry = 0x0000000A ∧ readReg t .hsTimeoutMs = 30000 ∧
          readReg t .blkTimeoutMs = 10000 ∧ readReg t .teCfg = 0x00000001 ∧ readReg t .teErr = 0 ∧
          readReg t .progress = 0 ∧ readReg t .verify = 0 ∧ readReg t .irqPending = 0 ∧ readReg t .irqEnable = 0 ∧
          irqLine t = false) ∧
        (t.rxwin = [] ∧ t.rxq = [] ∧ ∀ (sp : Space) (a : Nat), Memory.read (t.buffer sp) a = none) ∧
        t.txlog = s.txlog

/-! ### Host access -/

/-- 10_state.md R25, R27 to R34 and R231 for the codes: what a host read of the control and FC registers returns; reserved bits
read 0. That the value stands in `readData` is the model's (log 6). -/
def Obligations.ReadFrameCodecRegisters : Prop :=
  ∀ s : State,
    exec (.regRd 0x04) s =
        .next
          { s with
            readData :=
              match s.result with
              | .ok => 0x00
              | .illegalOpcode => 0x01
              | .notOwner => 0x02
              | .sessionBusy => 0x03
              | .portError => 0x04
              | .rxqEmpty => 0x05
              | .lengthError => 0x06
              | .noSession => 0x07 } ∧
      exec (.regRd 0x08) s =
        .next { s with readData := (if s.owner = .te then 1 else 0) + (if s.linkUp = true then 2 else 0) } ∧
      exec (.regRd 0x10) s = .next { s with readData := s.txId.setWidth 32 } ∧
      exec (.regRd 0x14) s = .next { s with readData := s.txType.setWidth 32 } ∧
      exec (.regRd 0x18) s = .next { s with readData := s.txLen.setWidth 32 } ∧
      exec (.regRd 0x20) s = .next { s with readData := s.rxId.setWidth 32 } ∧
      exec (.regRd 0x24) s = .next { s with readData := s.rxType.setWidth 32 } ∧
      exec (.regRd 0x28) s = .next { s with readData := s.rxLen.setWidth 32 } ∧
      exec (.regRd 0x2C) s = .next { s with readData := s.rxCsum.setWidth 32 } ∧
      (s.rxq.length ≤ 255 → exec (.regRd 0x30) s = .next { s with readData := BitVec.ofNat 32 s.rxq.length }) ∧
      exec (.regRd 0x34) s =
        .next { s with readData := BitVec.ofNat 32 (s.framingErrs.toNat + 65536 * s.rxqDrops.toNat) }

/-- 10_state.md R25, R35 to R45, R24 for the reserved offsets: what a host read of the TE registers returns. -/
def Obligations.ReadTransferEngineRegisters : Prop :=
  ∀ s : State,
    (∃ w : Word,
        exec (.regRd 0x40) s = .next { s with readData := w } ∧
          w.extractLsb' 0 3 =
            (match s.teState with
              | .idle => 0
              | .init => 1
              | .awaitHandshake => 2
              | .sending => 3
              | .complete => 4
              | .aborted => 5
              | .cancelled => 6) ∧
          w.extractLsb' 3 1 = (if s.tePhase = .eot then 1 else 0) ∧ w.extractLsb' 4 28 = 0) ∧
      exec (.regRd 0x44) s = .next { s with readData := s.imgLen } ∧
      exec (.regRd 0x48) s = .next { s with readData := s.totalBlocks } ∧
      exec (.regRd 0x4C) s = .next { s with readData := s.curIndex } ∧
      exec (.regRd 0x50) s =
        .next
          { s with
            readData := BitVec.ofNat 32 (s.curIndex.toNat % 256 + 256 * (255 - s.curIndex.toNat % 256)) } ∧
      exec (.regRd 0x54) s =
        .next { s with readData := BitVec.ofNat 32 (s.retryLimit.toNat + 256 * s.retriesLeft.toNat) } ∧
      exec (.regRd 0x58) s = .next { s with readData := s.hsTimeoutMs } ∧
      exec (.regRd 0x5C) s = .next { s with readData := s.blkTimeoutMs } ∧
      exec (.regRd 0x60) s =
        .next
          { s with
            readData :=
              (if s.progressEn = true then 1 else 0) + (if s.hwFlow = true then 2 else 0) +
                (if s.swFlow = true then 4 else 0) } ∧
      (∃ w : Word,
        exec (.regRd 0x64) s = .next { s with readData := w } ∧
          w.extractLsb' 0 4 =
            (match s.teErr.kind with
              | .none => 0
              | .handshakeTimeout => 1
              | .blockRetryExhausted => 2
              | .transferCancelled => 3
              | .portError => 4) ∧
          w.extractLsb' 4 2 =
            (match s.teErr.phase with
              | .none => 0
              | .handshake => 1
              | .data => 2
              | .eot => 3) ∧
          w.extractLsb' 6 2 = 0 ∧ w.extractLsb' 8 8 = s.teErr.block ∧ w.extractLsb' 16 8 = s.teErr.retries ∧
          w.extractLsb' 24 8 = 0) ∧
      exec (.regRd 0x68) s = .next { s with readData := s.progress } ∧
      ∀ off ∈ ([0x0C, 0x1C, 0x38, 0x3C, 0x6C, 0x74] : List Byte), exec (.regRd off) s = .next { s with readData := 0 }

/-- 10_state.md R46, R49 to R51: what a host read of VERIFY, IRQ_PENDING and IRQ_ENABLE returns, and the IRQ line. -/
def Obligations.ReadVerifyAndInterrupts : Prop :=
  ∀ s : State,
    (∃ w : Word,
        exec (.regRd 0x70) s = .next { s with readData := w } ∧
          w.getLsbD 0 = s.verify.sohOk ∧ w.getLsbD 1 = s.verify.compOk ∧ w.getLsbD 2 = s.verify.crcOk ∧
          w.getLsbD 3 = s.verify.valid ∧ w.extractLsb' 4 12 = 0 ∧ w.extractLsb' 16 16 = s.verify.crcCalc) ∧
      exec (.regRd 0x7C) s = .next { s with readData := s.irqEnable.setWidth 32 } ∧
      ∃ w : Word,
        exec (.regRd 0x78) s = .next { s with readData := w } ∧
          (w.getLsbD 0 = true ↔ 0 < s.rxq.length) ∧ w.getLsbD 1 = s.irq.framing ∧ w.getLsbD 2 = s.irq.rxqDrop ∧
          w.getLsbD 3 = s.irq.progress ∧ w.getLsbD 4 = s.irq.teDone ∧ w.getLsbD 5 = s.irq.portErr ∧
          w.extractLsb' 6 26 = 0 ∧
          (irqLine s = true ↔ ∃ k : Nat, k < 6 ∧ w.getLsbD k = true ∧ s.irqEnable.getLsbD k = true)

/-- 10_state.md R25, R29 to R31, R50 and 41_control.md R145, R148: writes of the registers that are never locked store their
bits, and any write of FC_STATS clears both counters and no pending bit. -/
def Obligations.WriteUnlockedRegisters : Prop :=
  ∀ (v : Word) (s : State),
    exec (.regWr 0x10 v) s = .next { s with txId := v.extractLsb' 0 8 } ∧
      exec (.regWr 0x14 v) s = .next { s with txType := v.extractLsb' 0 16 } ∧
      exec (.regWr 0x18 v) s = .next { s with txLen := v.extractLsb' 0 16 } ∧
      exec (.regWr 0x7C v) s = .next { s with irqEnable := v.extractLsb' 0 6 } ∧
      exec (.regWr 0x34 v) s = .next { s with framingErrs := 0, rxqDrops := 0 }

/-- 41_control.md R146, R145 and 10_state.md R36, R40 to R43: the TE configuration registers store their bits with no session
active and ignore the write during one; a write of 0 to RETRY stores 1. -/
def Obligations.WriteLockedRegisters : Prop :=
  ∀ (v : Word) (s : State),
    (s.teState = .awaitHandshake ∨ s.teState = .sending →
        ∀ off ∈ ([0x44, 0x54, 0x58, 0x5C, 0x60] : List Byte), exec (.regWr off v) s = .next s) ∧
      (s.teState ≠ .awaitHandshake → s.teState ≠ .sending →
        exec (.regWr 0x44 v) s = .next { s with imgLen := v } ∧
          exec (.regWr 0x54 v) s =
            .next { s with retryLimit := if v.extractLsb' 0 8 = 0 then 1 else v.extractLsb' 0 8 } ∧
          exec (.regWr 0x58 v) s = .next { s with hsTimeoutMs := v } ∧
          exec (.regWr 0x5C v) s = .next { s with blkTimeoutMs := v } ∧
          exec (.regWr 0x60 v) s =
            .next { s with progressEn := v.getLsbD 0, hwFlow := v.getLsbD 1, swFlow := v.getLsbD 2 })

/-- 41_control.md R147: write-1-clear of IRQ_PENDING; bit 0 is a level and no write clears it. -/
def Obligations.IrqPendingWriteOneClears : Prop :=
  ∀ (v : Word) (s : State),
    ∃ t : State,
      exec (.regWr 0x78 v) s = .next t ∧ t = { s with irq := t.irq } ∧
        (readReg t .irqPending).getLsbD 0 = (readReg s .irqPending).getLsbD 0 ∧
        ∀ k : Nat, 1 ≤ k → k ≤ 5 →
          (readReg t .irqPending).getLsbD k = ((readReg s .irqPending).getLsbD k && !v.getLsbD k)

/-- 10_state.md R25: writes of read-only registers and of reserved offsets change nothing. -/
def Obligations.ReadOnlyWritesIgnored : Prop :=
  ∀ (v : Word) (s : State),
    ∀ off ∈
      ([0x04, 0x08, 0x0C, 0x1C, 0x20, 0x24, 0x28, 0x2C, 0x30, 0x38, 0x3C, 0x40, 0x48, 0x4C, 0x50, 0x64, 0x68, 0x6C, 0x70,
        0x74] : List Byte),
      exec (.regWr off v) s = .next s

/-- 41_control.md R145, 20_memory.md R65, R60: a host write of a buffer stores one byte at its address and leaves every other
byte; RXBUF, and IMAGE during a session, ignore it. -/
def Obligations.BufferWriteStoresOneByte : Prop :=
  ∀ (sp : Space) (a : Word) (b : Byte) (s : State), a.toNat < spaceSize s.params sp →
    (sp = .rxbuf ∨ (sp = .image ∧ (s.teState = .awaitHandshake ∨ s.teState = .sending)) →
        exec (.bufWr sp a b) s = .next s) ∧
      (sp = .txbuf ∨ sp = .vbuf ∨ (sp = .image ∧ s.teState ≠ .awaitHandshake ∧ s.teState ≠ .sending) →
        ∃ m : Memory,
          exec (.bufWr sp a b) s = .next (s.withBuffer sp m) ∧ Memory.read m a.toNat = some b ∧
            ∀ c : Nat, c ≠ a.toNat → Memory.read m c = Memory.read (s.buffer sp) c)

/-- 20_memory.md R62, R66: a host read of a buffer byte returns it and changes nothing of the block; a byte with no value gives a
fresh unspecified byte, the free value of log 7, and stays without one. -/
def Obligations.BufferReadReturnsByte : Prop :=
  ∀ (sp : Space) (a : Word) (s : State), a.toNat < spaceSize s.params sp →
    (∀ b : Byte, Memory.read (s.buffer sp) a.toNat = some b →
        exec (.bufRd sp a) s = .next { s with readData := b.setWidth 32 }) ∧
      (Memory.read (s.buffer sp) a.toNat = none →
        ∃ b : Byte, exec (.bufRd sp a) s = .next { s with readData := b.setWidth 32, draws := s.draws + 1 })

/-- 20_memory.md R60, R64, 60_exceptions.md R246: accesses that do not exist have no step. -/
def Obligations.NonexistentAccessesRefused : Prop :=
  (∀ (off : Byte) (v : Word) (s : State), off.toNat % 4 ≠ 0 ∨ 128 ≤ off.toNat →
      exec (.regWr off v) s = .refused (.regAccess off) ∧ exec (.regRd off) s = .refused (.regAccess off)) ∧
    ∀ (sp : Space) (a : Word) (b : Byte) (s : State), spaceSize s.params sp ≤ a.toNat →
      exec (.bufWr sp a b) s = .refused (.noSuchAddress sp a.toNat) ∧
        exec (.bufRd sp a) s = .refused (.noSuchAddress sp a.toNat)

/-! ### Invariants and whole-machine rules -/

/-- 70_reset_and_hazards.md R260, R261, 10_state.md R35, R40: the invariant holds at reset (the default parameters are those of
00_scope.md R5, log 4). -/
def Obligations.InvariantHoldsAtReset : Prop := StateInv State.reset

/-- The invariant `StateInv` of Safety.lean, every clause of which cites its rule, is kept by every step from every state. -/
def Obligations.StepKeepsInvariant : Prop :=
  ∀ s t : State, StateInv s → step s = .next t → StateInv t

/-- 10_state.md R52, 70_reset_and_hazards.md R261: TXLOG is only appended to, RESET not excepted. -/
def Obligations.TxlogIsAppendOnly : Prop :=
  ∀ (i : Instr) (s t : State), exec i s = .next t → ∃ sent : List Byte, t.txlog = s.txlog ++ sent

/-- 10_state.md R28: OWNER changes only by PORT_GRANT_TE, PORT_RETURN_FC and reset; LINK_UP only by PORT_FAULT, PORT_REOPEN and
reset. -/
def Obligations.PortChangesOnlyByItsRules : Prop :=
  ∀ (i : Instr) (s t : State), exec i s = .next t →
    (t.owner ≠ s.owner →
        i = .portGrantTe ∨ i = .portReturnFc ∨ i = .reset ∨
          ∃ v : Word, i = .regWr 0x00 v ∧ (v.extractLsb' 0 8 = 0x10 ∨ v.extractLsb' 0 8 = 0x11)) ∧
      (t.linkUp ≠ s.linkUp → i = .portFault ∨ i = .portReopen ∨ i = .reset)

/-- 10_state.md R27: register writes and environment events do not change CMD_RESULT: only a command does, and reset. CAN_CAN is
the command TE_CANCEL (log 10). -/
def Obligations.ResultChangesOnlyByCommands : Prop :=
  ∀ (i : Instr) (s t : State), exec i s = .next t → t.result ≠ s.result →
    (∃ c : Command, i = c.toInstr) ∨ i = .canCan ∨ i = .reset ∨ ∃ v : Word, i = .regWr 0x00 v

/-- 20_memory.md R65, 41_control.md R146, 70_reset_and_hazards.md R269: while a session goes on, the image and the TE
configuration stay as they were. -/
def Obligations.SessionConfigurationIsStable : Prop :=
  ∀ (i : Instr) (s t : State), exec i s = .next t → s.teState.active = true → t.teState.active = true →
    t.image = s.image ∧ t.imgLen = s.imgLen ∧ t.retryLimit = s.retryLimit ∧ t.hsTimeoutMs = s.hsTimeoutMs ∧
      t.blkTimeoutMs = s.blkTimeoutMs ∧ t.progressEn = s.progressEn ∧ t.hwFlow = s.hwFlow ∧ t.swFlow = s.swFlow ∧
      t.totalBlocks = s.totalBlocks

/-- 60_exceptions.md R246: the model's one fault always names a buffer byte that has no value. -/
def Obligations.FaultNamesByteWithNoValue : Prop :=
  ∀ (i : Instr) (s : State) (f : Fault), exec i s = .fault f →
    ∃ (sp : Space) (a : Nat), f = .uninitByte sp a ∧ Memory.read (s.buffer sp) a = none

/-- 20_memory.md R60 "written by the block", R66: every byte of every buffer is unchanged by every instruction except BUF_WR,
FC_RX_POP (also as a write of CMD) and RESET; no instruction touches the parameters, and none but FRAME, which expands, the
agents' later steps (log 9). -/
def Obligations.BuffersChangeOnlyByStores : Prop :=
  ∀ (i : Instr) (s t : State), exec i s = .next t →
    t.params = s.params ∧
      ((∀ (dir : Direction) (id : Byte) (type : Half) (payload : List Byte), i ≠ .frame dir id type payload) →
        t.pending = s.pending) ∧
      ((∀ (sp : Space) (a : Word) (b : Byte), i ≠ .bufWr sp a b) → i ≠ .fcRxPop → i ≠ .reset →
        (∀ v : Word, v.extractLsb' 0 8 = 0x02 → i ≠ .regWr 0x00 v) →
          ∀ (sp : Space) (a : Nat), Memory.read (t.buffer sp) a = Memory.read (s.buffer sp) a)
end

