-- ==== Sys2Proof/Laws/State.lean ====
section
/-! SUPPORT. One lemma per field per named update of State: what each shared update writes and what it leaves. -/

namespace Sys2Proof.Machine

/-! ### `txEmit` -/

@[simp] theorem txEmit_params (bs : List Byte) (s : State) : (txEmit bs s).params = s.params := rfl
@[simp] theorem txEmit_result (bs : List Byte) (s : State) : (txEmit bs s).result = s.result := rfl
@[simp] theorem txEmit_owner (bs : List Byte) (s : State) : (txEmit bs s).owner = s.owner := rfl
@[simp] theorem txEmit_linkUp (bs : List Byte) (s : State) : (txEmit bs s).linkUp = s.linkUp := rfl
@[simp] theorem txEmit_txId (bs : List Byte) (s : State) : (txEmit bs s).txId = s.txId := rfl
@[simp] theorem txEmit_txType (bs : List Byte) (s : State) : (txEmit bs s).txType = s.txType := rfl
@[simp] theorem txEmit_txLen (bs : List Byte) (s : State) : (txEmit bs s).txLen = s.txLen := rfl
@[simp] theorem txEmit_rxId (bs : List Byte) (s : State) : (txEmit bs s).rxId = s.rxId := rfl
@[simp] theorem txEmit_rxType (bs : List Byte) (s : State) : (txEmit bs s).rxType = s.rxType := rfl
@[simp] theorem txEmit_rxLen (bs : List Byte) (s : State) : (txEmit bs s).rxLen = s.rxLen := rfl
@[simp] theorem txEmit_rxCsum (bs : List Byte) (s : State) : (txEmit bs s).rxCsum = s.rxCsum := rfl
@[simp] theorem txEmit_framingErrs (bs : List Byte) (s : State) : (txEmit bs s).framingErrs = s.framingErrs := rfl
@[simp] theorem txEmit_rxqDrops (bs : List Byte) (s : State) : (txEmit bs s).rxqDrops = s.rxqDrops := rfl
@[simp] theorem txEmit_teState (bs : List Byte) (s : State) : (txEmit bs s).teState = s.teState := rfl
@[simp] theorem txEmit_tePhase (bs : List Byte) (s : State) : (txEmit bs s).tePhase = s.tePhase := rfl
@[simp] theorem txEmit_imgLen (bs : List Byte) (s : State) : (txEmit bs s).imgLen = s.imgLen := rfl
@[simp] theorem txEmit_totalBlocks (bs : List Byte) (s : State) : (txEmit bs s).totalBlocks = s.totalBlocks := rfl
@[simp] theorem txEmit_curIndex (bs : List Byte) (s : State) : (txEmit bs s).curIndex = s.curIndex := rfl
@[simp] theorem txEmit_retryLimit (bs : List Byte) (s : State) : (txEmit bs s).retryLimit = s.retryLimit := rfl
@[simp] theorem txEmit_retriesLeft (bs : List Byte) (s : State) : (txEmit bs s).retriesLeft = s.retriesLeft := rfl
@[simp] theorem txEmit_hsTimeoutMs (bs : List Byte) (s : State) : (txEmit bs s).hsTimeoutMs = s.hsTimeoutMs := rfl
@[simp] theorem txEmit_blkTimeoutMs (bs : List Byte) (s : State) : (txEmit bs s).blkTimeoutMs = s.blkTimeoutMs := rfl
@[simp] theorem txEmit_progressEn (bs : List Byte) (s : State) : (txEmit bs s).progressEn = s.progressEn := rfl
@[simp] theorem txEmit_hwFlow (bs : List Byte) (s : State) : (txEmit bs s).hwFlow = s.hwFlow := rfl
@[simp] theorem txEmit_swFlow (bs : List Byte) (s : State) : (txEmit bs s).swFlow = s.swFlow := rfl
@[simp] theorem txEmit_teErr (bs : List Byte) (s : State) : (txEmit bs s).teErr = s.teErr := rfl
@[simp] theorem txEmit_progress (bs : List Byte) (s : State) : (txEmit bs s).progress = s.progress := rfl
@[simp] theorem txEmit_verify (bs : List Byte) (s : State) : (txEmit bs s).verify = s.verify := rfl
@[simp] theorem txEmit_irq (bs : List Byte) (s : State) : (txEmit bs s).irq = s.irq := rfl
@[simp] theorem txEmit_irqEnable (bs : List Byte) (s : State) : (txEmit bs s).irqEnable = s.irqEnable := rfl
@[simp] theorem txEmit_rxwin (bs : List Byte) (s : State) : (txEmit bs s).rxwin = s.rxwin := rfl
@[simp] theorem txEmit_rxq (bs : List Byte) (s : State) : (txEmit bs s).rxq = s.rxq := rfl
@[simp] theorem txEmit_txlog (bs : List Byte) (s : State) : (txEmit bs s).txlog = s.txlog ++ bs := rfl
@[simp] theorem txEmit_txbuf (bs : List Byte) (s : State) : (txEmit bs s).txbuf = s.txbuf := rfl
@[simp] theorem txEmit_rxbuf (bs : List Byte) (s : State) : (txEmit bs s).rxbuf = s.rxbuf := rfl
@[simp] theorem txEmit_image (bs : List Byte) (s : State) : (txEmit bs s).image = s.image := rfl
@[simp] theorem txEmit_vbuf (bs : List Byte) (s : State) : (txEmit bs s).vbuf = s.vbuf := rfl
@[simp] theorem txEmit_pending (bs : List Byte) (s : State) : (txEmit bs s).pending = s.pending := rfl
@[simp] theorem txEmit_readData (bs : List Byte) (s : State) : (txEmit bs s).readData = s.readData := rfl
@[simp] theorem txEmit_draws (bs : List Byte) (s : State) : (txEmit bs s).draws = s.draws := rfl

/-! ### `answer` -/

@[simp] theorem answer_params (v : Word) (s : State) : (answer v s).params = s.params := rfl
@[simp] theorem answer_result (v : Word) (s : State) : (answer v s).result = s.result := rfl
@[simp] theorem answer_owner (v : Word) (s : State) : (answer v s).owner = s.owner := rfl
@[simp] theorem answer_linkUp (v : Word) (s : State) : (answer v s).linkUp = s.linkUp := rfl
@[simp] theorem answer_txId (v : Word) (s : State) : (answer v s).txId = s.txId := rfl
@[simp] theorem answer_txType (v : Word) (s : State) : (answer v s).txType = s.txType := rfl
@[simp] theorem answer_txLen (v : Word) (s : State) : (answer v s).txLen = s.txLen := rfl
@[simp] theorem answer_rxId (v : Word) (s : State) : (answer v s).rxId = s.rxId := rfl
@[simp] theorem answer_rxType (v : Word) (s : State) : (answer v s).rxType = s.rxType := rfl
@[simp] theorem answer_rxLen (v : Word) (s : State) : (answer v s).rxLen = s.rxLen := rfl
@[simp] theorem answer_rxCsum (v : Word) (s : State) : (answer v s).rxCsum = s.rxCsum := rfl
@[simp] theorem answer_framingErrs (v : Word) (s : State) : (answer v s).framingErrs = s.framingErrs := rfl
@[simp] theorem answer_rxqDrops (v : Word) (s : State) : (answer v s).rxqDrops = s.rxqDrops := rfl
@[simp] theorem answer_teState (v : Word) (s : State) : (answer v s).teState = s.teState := rfl
@[simp] theorem answer_tePhase (v : Word) (s : State) : (answer v s).tePhase = s.tePhase := rfl
@[simp] theorem answer_imgLen (v : Word) (s : State) : (answer v s).imgLen = s.imgLen := rfl
@[simp] theorem answer_totalBlocks (v : Word) (s : State) : (answer v s).totalBlocks = s.totalBlocks := rfl
@[simp] theorem answer_curIndex (v : Word) (s : State) : (answer v s).curIndex = s.curIndex := rfl
@[simp] theorem answer_retryLimit (v : Word) (s : State) : (answer v s).retryLimit = s.retryLimit := rfl
@[simp] theorem answer_retriesLeft (v : Word) (s : State) : (answer v s).retriesLeft = s.retriesLeft := rfl
@[simp] theorem answer_hsTimeoutMs (v : Word) (s : State) : (answer v s).hsTimeoutMs = s.hsTimeoutMs := rfl
@[simp] theorem answer_blkTimeoutMs (v : Word) (s : State) : (answer v s).blkTimeoutMs = s.blkTimeoutMs := rfl
@[simp] theorem answer_progressEn (v : Word) (s : State) : (answer v s).progressEn = s.progressEn := rfl
@[simp] theorem answer_hwFlow (v : Word) (s : State) : (answer v s).hwFlow = s.hwFlow := rfl
@[simp] theorem answer_swFlow (v : Word) (s : State) : (answer v s).swFlow = s.swFlow := rfl
@[simp] theorem answer_teErr (v : Word) (s : State) : (answer v s).teErr = s.teErr := rfl
@[simp] theorem answer_progress (v : Word) (s : State) : (answer v s).progress = s.progress := rfl
@[simp] theorem answer_verify (v : Word) (s : State) : (answer v s).verify = s.verify := rfl
@[simp] theorem answer_irq (v : Word) (s : State) : (answer v s).irq = s.irq := rfl
@[simp] theorem answer_irqEnable (v : Word) (s : State) : (answer v s).irqEnable = s.irqEnable := rfl
@[simp] theorem answer_rxwin (v : Word) (s : State) : (answer v s).rxwin = s.rxwin := rfl
@[simp] theorem answer_rxq (v : Word) (s : State) : (answer v s).rxq = s.rxq := rfl
@[simp] theorem answer_txlog (v : Word) (s : State) : (answer v s).txlog = s.txlog := rfl
@[simp] theorem answer_txbuf (v : Word) (s : State) : (answer v s).txbuf = s.txbuf := rfl
@[simp] theorem answer_rxbuf (v : Word) (s : State) : (answer v s).rxbuf = s.rxbuf := rfl
@[simp] theorem answer_image (v : Word) (s : State) : (answer v s).image = s.image := rfl
@[simp] theorem answer_vbuf (v : Word) (s : State) : (answer v s).vbuf = s.vbuf := rfl
@[simp] theorem answer_pending (v : Word) (s : State) : (answer v s).pending = s.pending := rfl
@[simp] theorem answer_readData (v : Word) (s : State) : (answer v s).readData = v := rfl
@[simp] theorem answer_draws (v : Word) (s : State) : (answer v s).draws = s.draws := rfl

/-! ### `raiseError` -/

@[simp] theorem raiseError_params (k : ErrKind) (ph : ErrPhase) (bl re : Byte) (s : State) : (raiseError k ph bl re s).params = s.params := rfl
@[simp] theorem raiseError_result (k : ErrKind) (ph : ErrPhase) (bl re : Byte) (s : State) : (raiseError k ph bl re s).result = s.result := rfl
@[simp] theorem raiseError_owner (k : ErrKind) (ph : ErrPhase) (bl re : Byte) (s : State) : (raiseError k ph bl re s).owner = s.owner := rfl
@[simp] theorem raiseError_linkUp (k : ErrKind) (ph : ErrPhase) (bl re : Byte) (s : State) : (raiseError k ph bl re s).linkUp = s.linkUp := rfl
@[simp] theorem raiseError_txId (k : ErrKind) (ph : ErrPhase) (bl re : Byte) (s : State) : (raiseError k ph bl re s).txId = s.txId := rfl
@[simp] theorem raiseError_txType (k : ErrKind) (ph : ErrPhase) (bl re : Byte) (s : State) : (raiseError k ph bl re s).txType = s.txType := rfl
@[simp] theorem raiseError_txLen (k : ErrKind) (ph : ErrPhase) (bl re : Byte) (s : State) : (raiseError k ph bl re s).txLen = s.txLen := rfl
@[simp] theorem raiseError_rxId (k : ErrKind) (ph : ErrPhase) (bl re : Byte) (s : State) : (raiseError k ph bl re s).rxId = s.rxId := rfl
@[simp] theorem raiseError_rxType (k : ErrKind) (ph : ErrPhase) (bl re : Byte) (s : State) : (raiseError k ph bl re s).rxType = s.rxType := rfl
@[simp] theorem raiseError_rxLen (k : ErrKind) (ph : ErrPhase) (bl re : Byte) (s : State) : (raiseError k ph bl re s).rxLen = s.rxLen := rfl
@[simp] theorem raiseError_rxCsum (k : ErrKind) (ph : ErrPhase) (bl re : Byte) (s : State) : (raiseError k ph bl re s).rxCsum = s.rxCsum := rfl
@[simp] theorem raiseError_framingErrs (k : ErrKind) (ph : ErrPhase) (bl re : Byte) (s : State) : (raiseError k ph bl re s).framingErrs = s.framingErrs := rfl
@[simp] theorem raiseError_rxqDrops (k : ErrKind) (ph : ErrPhase) (bl re : Byte) (s : State) : (raiseError k ph bl re s).rxqDrops = s.rxqDrops := rfl
@[simp] theorem raiseError_teState (k : ErrKind) (ph : ErrPhase) (bl re : Byte) (s : State) : (raiseError k ph bl re s).teState = s.teState := rfl
@[simp] theorem raiseError_tePhase (k : ErrKind) (ph : ErrPhase) (bl re : Byte) (s : State) : (raiseError k ph bl re s).tePhase = s.tePhase := rfl
@[simp] theorem raiseError_imgLen (k : ErrKind) (ph : ErrPhase) (bl re : Byte) (s : State) : (raiseError k ph bl re s).imgLen = s.imgLen := rfl
@[simp] theorem raiseError_totalBlocks (k : ErrKind) (ph : ErrPhase) (bl re : Byte) (s : State) : (raiseError k ph bl re s).totalBlocks = s.totalBlocks := rfl
@[simp] theorem raiseError_curIndex (k : ErrKind) (ph : ErrPhase) (bl re : Byte) (s : State) : (raiseError k ph bl re s).curIndex = s.curIndex := rfl
@[simp] theorem raiseError_retryLimit (k : ErrKind) (ph : ErrPhase) (bl re : Byte) (s : State) : (raiseError k ph bl re s).retryLimit = s.retryLimit := rfl
@[simp] theorem raiseError_retriesLeft (k : ErrKind) (ph : ErrPhase) (bl re : Byte) (s : State) : (raiseError k ph bl re s).retriesLeft = s.retriesLeft := rfl
@[simp] theorem raiseError_hsTimeoutMs (k : ErrKind) (ph : ErrPhase) (bl re : Byte) (s : State) : (raiseError k ph bl re s).hsTimeoutMs = s.hsTimeoutMs := rfl
@[simp] theorem raiseError_blkTimeoutMs (k : ErrKind) (ph : ErrPhase) (bl re : Byte) (s : State) : (raiseError k ph bl re s).blkTimeoutMs = s.blkTimeoutMs := rfl
@[simp] theorem raiseError_progressEn (k : ErrKind) (ph : ErrPhase) (bl re : Byte) (s : State) : (raiseError k ph bl re s).progressEn = s.progressEn := rfl
@[simp] theorem raiseError_hwFlow (k : ErrKind) (ph : ErrPhase) (bl re : Byte) (s : State) : (raiseError k ph bl re s).hwFlow = s.hwFlow := rfl
@[simp] theorem raiseError_swFlow (k : ErrKind) (ph : ErrPhase) (bl re : Byte) (s : State) : (raiseError k ph bl re s).swFlow = s.swFlow := rfl
@[simp] theorem raiseError_teErr (k : ErrKind) (ph : ErrPhase) (bl re : Byte) (s : State) : (raiseError k ph bl re s).teErr = { kind := k, phase := ph, block := bl, retries := re } := rfl
@[simp] theorem raiseError_progress (k : ErrKind) (ph : ErrPhase) (bl re : Byte) (s : State) : (raiseError k ph bl re s).progress = s.progress := rfl
@[simp] theorem raiseError_verify (k : ErrKind) (ph : ErrPhase) (bl re : Byte) (s : State) : (raiseError k ph bl re s).verify = s.verify := rfl
@[simp] theorem raiseError_irq (k : ErrKind) (ph : ErrPhase) (bl re : Byte) (s : State) : (raiseError k ph bl re s).irq = s.irq := rfl
@[simp] theorem raiseError_irqEnable (k : ErrKind) (ph : ErrPhase) (bl re : Byte) (s : State) : (raiseError k ph bl re s).irqEnable = s.irqEnable := rfl
@[simp] theorem raiseError_rxwin (k : ErrKind) (ph : ErrPhase) (bl re : Byte) (s : State) : (raiseError k ph bl re s).rxwin = s.rxwin := rfl
@[simp] theorem raiseError_rxq (k : ErrKind) (ph : ErrPhase) (bl re : Byte) (s : State) : (raiseError k ph bl re s).rxq = s.rxq := rfl
@[simp] theorem raiseError_txlog (k : ErrKind) (ph : ErrPhase) (bl re : Byte) (s : State) : (raiseError k ph bl re s).txlog = s.txlog := rfl
@[simp] theorem raiseError_txbuf (k : ErrKind) (ph : ErrPhase) (bl re : Byte) (s : State) : (raiseError k ph bl re s).txbuf = s.txbuf := rfl
@[simp] theorem raiseError_rxbuf (k : ErrKind) (ph : ErrPhase) (bl re : Byte) (s : State) : (raiseError k ph bl re s).rxbuf = s.rxbuf := rfl
@[simp] theorem raiseError_image (k : ErrKind) (ph : ErrPhase) (bl re : Byte) (s : State) : (raiseError k ph bl re s).image = s.image := rfl
@[simp] theorem raiseError_vbuf (k : ErrKind) (ph : ErrPhase) (bl re : Byte) (s : State) : (raiseError k ph bl re s).vbuf = s.vbuf := rfl
@[simp] theorem raiseError_pending (k : ErrKind) (ph : ErrPhase) (bl re : Byte) (s : State) : (raiseError k ph bl re s).pending = s.pending := rfl
@[simp] theorem raiseError_readData (k : ErrKind) (ph : ErrPhase) (bl re : Byte) (s : State) : (raiseError k ph bl re s).readData = s.readData := rfl
@[simp] theorem raiseError_draws (k : ErrKind) (ph : ErrPhase) (bl re : Byte) (s : State) : (raiseError k ph bl re s).draws = s.draws := rfl

/-! ### `enterTerminal` -/

@[simp] theorem enterTerminal_params (st : TeState) (s : State) : (enterTerminal st s).params = s.params := rfl
@[simp] theorem enterTerminal_result (st : TeState) (s : State) : (enterTerminal st s).result = s.result := rfl
@[simp] theorem enterTerminal_owner (st : TeState) (s : State) : (enterTerminal st s).owner = s.owner := rfl
@[simp] theorem enterTerminal_linkUp (st : TeState) (s : State) : (enterTerminal st s).linkUp = s.linkUp := rfl
@[simp] theorem enterTerminal_txId (st : TeState) (s : State) : (enterTerminal st s).txId = s.txId := rfl
@[simp] theorem enterTerminal_txType (st : TeState) (s : State) : (enterTerminal st s).txType = s.txType := rfl
@[simp] theorem enterTerminal_txLen (st : TeState) (s : State) : (enterTerminal st s).txLen = s.txLen := rfl
@[simp] theorem enterTerminal_rxId (st : TeState) (s : State) : (enterTerminal st s).rxId = s.rxId := rfl
@[simp] theorem enterTerminal_rxType (st : TeState) (s : State) : (enterTerminal st s).rxType = s.rxType := rfl
@[simp] theorem enterTerminal_rxLen (st : TeState) (s : State) : (enterTerminal st s).rxLen = s.rxLen := rfl
@[simp] theorem enterTerminal_rxCsum (st : TeState) (s : State) : (enterTerminal st s).rxCsum = s.rxCsum := rfl
@[simp] theorem enterTerminal_framingErrs (st : TeState) (s : State) : (enterTerminal st s).framingErrs = s.framingErrs := rfl
@[simp] theorem enterTerminal_rxqDrops (st : TeState) (s : State) : (enterTerminal st s).rxqDrops = s.rxqDrops := rfl
@[simp] theorem enterTerminal_teState (st : TeState) (s : State) : (enterTerminal st s).teState = st := rfl
@[simp] theorem enterTerminal_tePhase (st : TeState) (s : State) : (enterTerminal st s).tePhase = s.tePhase := rfl
@[simp] theorem enterTerminal_imgLen (st : TeState) (s : State) : (enterTerminal st s).imgLen = s.imgLen := rfl
@[simp] theorem enterTerminal_totalBlocks (st : TeState) (s : State) : (enterTerminal st s).totalBlocks = s.totalBlocks := rfl
@[simp] theorem enterTerminal_curIndex (st : TeState) (s : State) : (enterTerminal st s).curIndex = s.curIndex := rfl
@[simp] theorem enterTerminal_retryLimit (st : TeState) (s : State) : (enterTerminal st s).retryLimit = s.retryLimit := rfl
@[simp] theorem enterTerminal_retriesLeft (st : TeState) (s : State) : (enterTerminal st s).retriesLeft = s.retriesLeft := rfl
@[simp] theorem enterTerminal_hsTimeoutMs (st : TeState) (s : State) : (enterTerminal st s).hsTimeoutMs = s.hsTimeoutMs := rfl
@[simp] theorem enterTerminal_blkTimeoutMs (st : TeState) (s : State) : (enterTerminal st s).blkTimeoutMs = s.blkTimeoutMs := rfl
@[simp] theorem enterTerminal_progressEn (st : TeState) (s : State) : (enterTerminal st s).progressEn = s.progressEn := rfl
@[simp] theorem enterTerminal_hwFlow (st : TeState) (s : State) : (enterTerminal st s).hwFlow = s.hwFlow := rfl
@[simp] theorem enterTerminal_swFlow (st : TeState) (s : State) : (enterTerminal st s).swFlow = s.swFlow := rfl
@[simp] theorem enterTerminal_teErr (st : TeState) (s : State) : (enterTerminal st s).teErr = s.teErr := rfl
@[simp] theorem enterTerminal_progress (st : TeState) (s : State) : (enterTerminal st s).progress = s.progress := rfl
@[simp] theorem enterTerminal_verify (st : TeState) (s : State) : (enterTerminal st s).verify = s.verify := rfl
@[simp] theorem enterTerminal_irq (st : TeState) (s : State) : (enterTerminal st s).irq = { s.irq with teDone := true } := rfl
@[simp] theorem enterTerminal_irqEnable (st : TeState) (s : State) : (enterTerminal st s).irqEnable = s.irqEnable := rfl
@[simp] theorem enterTerminal_rxwin (st : TeState) (s : State) : (enterTerminal st s).rxwin = s.rxwin := rfl
@[simp] theorem enterTerminal_rxq (st : TeState) (s : State) : (enterTerminal st s).rxq = s.rxq := rfl
@[simp] theorem enterTerminal_txlog (st : TeState) (s : State) : (enterTerminal st s).txlog = s.txlog := rfl
@[simp] theorem enterTerminal_txbuf (st : TeState) (s : State) : (enterTerminal st s).txbuf = s.txbuf := rfl
@[simp] theorem enterTerminal_rxbuf (st : TeState) (s : State) : (enterTerminal st s).rxbuf = s.rxbuf := rfl
@[simp] theorem enterTerminal_image (st : TeState) (s : State) : (enterTerminal st s).image = s.image := rfl
@[simp] theorem enterTerminal_vbuf (st : TeState) (s : State) : (enterTerminal st s).vbuf = s.vbuf := rfl
@[simp] theorem enterTerminal_pending (st : TeState) (s : State) : (enterTerminal st s).pending = s.pending := rfl
@[simp] theorem enterTerminal_readData (st : TeState) (s : State) : (enterTerminal st s).readData = s.readData := rfl
@[simp] theorem enterTerminal_draws (st : TeState) (s : State) : (enterTerminal st s).draws = s.draws := rfl

/-! ### `endWithError` -/

@[simp] theorem endWithError_params (k : ErrKind) (bl re : Byte) (st : TeState) (s : State) : (endWithError k bl re st s).params = s.params := rfl
@[simp] theorem endWithError_result (k : ErrKind) (bl re : Byte) (st : TeState) (s : State) : (endWithError k bl re st s).result = s.result := rfl
@[simp] theorem endWithError_owner (k : ErrKind) (bl re : Byte) (st : TeState) (s : State) : (endWithError k bl re st s).owner = s.owner := rfl
@[simp] theorem endWithError_linkUp (k : ErrKind) (bl re : Byte) (st : TeState) (s : State) : (endWithError k bl re st s).linkUp = s.linkUp := rfl
@[simp] theorem endWithError_txId (k : ErrKind) (bl re : Byte) (st : TeState) (s : State) : (endWithError k bl re st s).txId = s.txId := rfl
@[simp] theorem endWithError_txType (k : ErrKind) (bl re : Byte) (st : TeState) (s : State) : (endWithError k bl re st s).txType = s.txType := rfl
@[simp] theorem endWithError_txLen (k : ErrKind) (bl re : Byte) (st : TeState) (s : State) : (endWithError k bl re st s).txLen = s.txLen := rfl
@[simp] theorem endWithError_rxId (k : ErrKind) (bl re : Byte) (st : TeState) (s : State) : (endWithError k bl re st s).rxId = s.rxId := rfl
@[simp] theorem endWithError_rxType (k : ErrKind) (bl re : Byte) (st : TeState) (s : State) : (endWithError k bl re st s).rxType = s.rxType := rfl
@[simp] theorem endWithError_rxLen (k : ErrKind) (bl re : Byte) (st : TeState) (s : State) : (endWithError k bl re st s).rxLen = s.rxLen := rfl
@[simp] theorem endWithError_rxCsum (k : ErrKind) (bl re : Byte) (st : TeState) (s : State) : (endWithError k bl re st s).rxCsum = s.rxCsum := rfl
@[simp] theorem endWithError_framingErrs (k : ErrKind) (bl re : Byte) (st : TeState) (s : State) : (endWithError k bl re st s).framingErrs = s.framingErrs := rfl
@[simp] theorem endWithError_rxqDrops (k : ErrKind) (bl re : Byte) (st : TeState) (s : State) : (endWithError k bl re st s).rxqDrops = s.rxqDrops := rfl
@[simp] theorem endWithError_teState (k : ErrKind) (bl re : Byte) (st : TeState) (s : State) : (endWithError k bl re st s).teState = st := rfl
@[simp] theorem endWithError_tePhase (k : ErrKind) (bl re : Byte) (st : TeState) (s : State) : (endWithError k bl re st s).tePhase = s.tePhase := rfl
@[simp] theorem endWithError_imgLen (k : ErrKind) (bl re : Byte) (st : TeState) (s : State) : (endWithError k bl re st s).imgLen = s.imgLen := rfl
@[simp] theorem endWithError_totalBlocks (k : ErrKind) (bl re : Byte) (st : TeState) (s : State) : (endWithError k bl re st s).totalBlocks = s.totalBlocks := rfl
@[simp] theorem endWithError_curIndex (k : ErrKind) (bl re : Byte) (st : TeState) (s : State) : (endWithError k bl re st s).curIndex = s.curIndex := rfl
@[simp] theorem endWithError_retryLimit (k : ErrKind) (bl re : Byte) (st : TeState) (s : State) : (endWithError k bl re st s).retryLimit = s.retryLimit := rfl
@[simp] theorem endWithError_retriesLeft (k : ErrKind) (bl re : Byte) (st : TeState) (s : State) : (endWithError k bl re st s).retriesLeft = s.retriesLeft := rfl
@[simp] theorem endWithError_hsTimeoutMs (k : ErrKind) (bl re : Byte) (st : TeState) (s : State) : (endWithError k bl re st s).hsTimeoutMs = s.hsTimeoutMs := rfl
@[simp] theorem endWithError_blkTimeoutMs (k : ErrKind) (bl re : Byte) (st : TeState) (s : State) : (endWithError k bl re st s).blkTimeoutMs = s.blkTimeoutMs := rfl
@[simp] theorem endWithError_progressEn (k : ErrKind) (bl re : Byte) (st : TeState) (s : State) : (endWithError k bl re st s).progressEn = s.progressEn := rfl
@[simp] theorem endWithError_hwFlow (k : ErrKind) (bl re : Byte) (st : TeState) (s : State) : (endWithError k bl re st s).hwFlow = s.hwFlow := rfl
@[simp] theorem endWithError_swFlow (k : ErrKind) (bl re : Byte) (st : TeState) (s : State) : (endWithError k bl re st s).swFlow = s.swFlow := rfl
@[simp] theorem endWithError_teErr (k : ErrKind) (bl re : Byte) (st : TeState) (s : State) : (endWithError k bl re st s).teErr = { kind := k, phase := errPhaseOf s.teState s.tePhase, block := bl, retries := re } := rfl
@[simp] theorem endWithError_progress (k : ErrKind) (bl re : Byte) (st : TeState) (s : State) : (endWithError k bl re st s).progress = s.progress := rfl
@[simp] theorem endWithError_verify (k : ErrKind) (bl re : Byte) (st : TeState) (s : State) : (endWithError k bl re st s).verify = s.verify := rfl
@[simp] theorem endWithError_irq (k : ErrKind) (bl re : Byte) (st : TeState) (s : State) : (endWithError k bl re st s).irq = { s.irq with teDone := true } := rfl
@[simp] theorem endWithError_irqEnable (k : ErrKind) (bl re : Byte) (st : TeState) (s : State) : (endWithError k bl re st s).irqEnable = s.irqEnable := rfl
@[simp] theorem endWithError_rxwin (k : ErrKind) (bl re : Byte) (st : TeState) (s : State) : (endWithError k bl re st s).rxwin = s.rxwin := rfl
@[simp] theorem endWithError_rxq (k : ErrKind) (bl re : Byte) (st : TeState) (s : State) : (endWithError k bl re st s).rxq = s.rxq := rfl
@[simp] theorem endWithError_txlog (k : ErrKind) (bl re : Byte) (st : TeState) (s : State) : (endWithError k bl re st s).txlog = s.txlog := rfl
@[simp] theorem endWithError_txbuf (k : ErrKind) (bl re : Byte) (st : TeState) (s : State) : (endWithError k bl re st s).txbuf = s.txbuf := rfl
@[simp] theorem endWithError_rxbuf (k : ErrKind) (bl re : Byte) (st : TeState) (s : State) : (endWithError k bl re st s).rxbuf = s.rxbuf := rfl
@[simp] theorem endWithError_image (k : ErrKind) (bl re : Byte) (st : TeState) (s : State) : (endWithError k bl re st s).image = s.image := rfl
@[simp] theorem endWithError_vbuf (k : ErrKind) (bl re : Byte) (st : TeState) (s : State) : (endWithError k bl re st s).vbuf = s.vbuf := rfl
@[simp] theorem endWithError_pending (k : ErrKind) (bl re : Byte) (st : TeState) (s : State) : (endWithError k bl re st s).pending = s.pending := rfl
@[simp] theorem endWithError_readData (k : ErrKind) (bl re : Byte) (st : TeState) (s : State) : (endWithError k bl re st s).readData = s.readData := rfl
@[simp] theorem endWithError_draws (k : ErrKind) (bl re : Byte) (st : TeState) (s : State) : (endWithError k bl re st s).draws = s.draws := rfl

/-! ### `countErrors` -/

@[simp] theorem countErrors_params (n : Nat) (s : State) : (countErrors n s).params = s.params := rfl
@[simp] theorem countErrors_result (n : Nat) (s : State) : (countErrors n s).result = s.result := rfl
@[simp] theorem countErrors_owner (n : Nat) (s : State) : (countErrors n s).owner = s.owner := rfl
@[simp] theorem countErrors_linkUp (n : Nat) (s : State) : (countErrors n s).linkUp = s.linkUp := rfl
@[simp] theorem countErrors_txId (n : Nat) (s : State) : (countErrors n s).txId = s.txId := rfl
@[simp] theorem countErrors_txType (n : Nat) (s : State) : (countErrors n s).txType = s.txType := rfl
@[simp] theorem countErrors_txLen (n : Nat) (s : State) : (countErrors n s).txLen = s.txLen := rfl
@[simp] theorem countErrors_rxId (n : Nat) (s : State) : (countErrors n s).rxId = s.rxId := rfl
@[simp] theorem countErrors_rxType (n : Nat) (s : State) : (countErrors n s).rxType = s.rxType := rfl
@[simp] theorem countErrors_rxLen (n : Nat) (s : State) : (countErrors n s).rxLen = s.rxLen := rfl
@[simp] theorem countErrors_rxCsum (n : Nat) (s : State) : (countErrors n s).rxCsum = s.rxCsum := rfl
@[simp] theorem countErrors_framingErrs (n : Nat) (s : State) : (countErrors n s).framingErrs = sat16Add s.framingErrs n := rfl
@[simp] theorem countErrors_rxqDrops (n : Nat) (s : State) : (countErrors n s).rxqDrops = s.rxqDrops := rfl
@[simp] theorem countErrors_teState (n : Nat) (s : State) : (countErrors n s).teState = s.teState := rfl
@[simp] theorem countErrors_tePhase (n : Nat) (s : State) : (countErrors n s).tePhase = s.tePhase := rfl
@[simp] theorem countErrors_imgLen (n : Nat) (s : State) : (countErrors n s).imgLen = s.imgLen := rfl
@[simp] theorem countErrors_totalBlocks (n : Nat) (s : State) : (countErrors n s).totalBlocks = s.totalBlocks := rfl
@[simp] theorem countErrors_curIndex (n : Nat) (s : State) : (countErrors n s).curIndex = s.curIndex := rfl
@[simp] theorem countErrors_retryLimit (n : Nat) (s : State) : (countErrors n s).retryLimit = s.retryLimit := rfl
@[simp] theorem countErrors_retriesLeft (n : Nat) (s : State) : (countErrors n s).retriesLeft = s.retriesLeft := rfl
@[simp] theorem countErrors_hsTimeoutMs (n : Nat) (s : State) : (countErrors n s).hsTimeoutMs = s.hsTimeoutMs := rfl
@[simp] theorem countErrors_blkTimeoutMs (n : Nat) (s : State) : (countErrors n s).blkTimeoutMs = s.blkTimeoutMs := rfl
@[simp] theorem countErrors_progressEn (n : Nat) (s : State) : (countErrors n s).progressEn = s.progressEn := rfl
@[simp] theorem countErrors_hwFlow (n : Nat) (s : State) : (countErrors n s).hwFlow = s.hwFlow := rfl
@[simp] theorem countErrors_swFlow (n : Nat) (s : State) : (countErrors n s).swFlow = s.swFlow := rfl
@[simp] theorem countErrors_teErr (n : Nat) (s : State) : (countErrors n s).teErr = s.teErr := rfl
@[simp] theorem countErrors_progress (n : Nat) (s : State) : (countErrors n s).progress = s.progress := rfl
@[simp] theorem countErrors_verify (n : Nat) (s : State) : (countErrors n s).verify = s.verify := rfl
@[simp] theorem countErrors_irq (n : Nat) (s : State) : (countErrors n s).irq = { s.irq with framing := s.irq.framing || decide (0 < n) } := rfl
@[simp] theorem countErrors_irqEnable (n : Nat) (s : State) : (countErrors n s).irqEnable = s.irqEnable := rfl
@[simp] theorem countErrors_rxwin (n : Nat) (s : State) : (countErrors n s).rxwin = s.rxwin := rfl
@[simp] theorem countErrors_rxq (n : Nat) (s : State) : (countErrors n s).rxq = s.rxq := rfl
@[simp] theorem countErrors_txlog (n : Nat) (s : State) : (countErrors n s).txlog = s.txlog := rfl
@[simp] theorem countErrors_txbuf (n : Nat) (s : State) : (countErrors n s).txbuf = s.txbuf := rfl
@[simp] theorem countErrors_rxbuf (n : Nat) (s : State) : (countErrors n s).rxbuf = s.rxbuf := rfl
@[simp] theorem countErrors_image (n : Nat) (s : State) : (countErrors n s).image = s.image := rfl
@[simp] theorem countErrors_vbuf (n : Nat) (s : State) : (countErrors n s).vbuf = s.vbuf := rfl
@[simp] theorem countErrors_pending (n : Nat) (s : State) : (countErrors n s).pending = s.pending := rfl
@[simp] theorem countErrors_readData (n : Nat) (s : State) : (countErrors n s).readData = s.readData := rfl
@[simp] theorem countErrors_draws (n : Nat) (s : State) : (countErrors n s).draws = s.draws := rfl

/-! ### `State.place` -/

@[simp] theorem State.place_params (s : State) (pk : Packet) : (s.place pk).params = s.params := rfl
@[simp] theorem State.place_result (s : State) (pk : Packet) : (s.place pk).result = s.result := rfl
@[simp] theorem State.place_owner (s : State) (pk : Packet) : (s.place pk).owner = s.owner := rfl
@[simp] theorem State.place_linkUp (s : State) (pk : Packet) : (s.place pk).linkUp = s.linkUp := rfl
@[simp] theorem State.place_txId (s : State) (pk : Packet) : (s.place pk).txId = s.txId := rfl
@[simp] theorem State.place_txType (s : State) (pk : Packet) : (s.place pk).txType = s.txType := rfl
@[simp] theorem State.place_txLen (s : State) (pk : Packet) : (s.place pk).txLen = s.txLen := rfl
@[simp] theorem State.place_rxId (s : State) (pk : Packet) : (s.place pk).rxId = s.rxId := rfl
@[simp] theorem State.place_rxType (s : State) (pk : Packet) : (s.place pk).rxType = s.rxType := rfl
@[simp] theorem State.place_rxLen (s : State) (pk : Packet) : (s.place pk).rxLen = s.rxLen := rfl
@[simp] theorem State.place_rxCsum (s : State) (pk : Packet) : (s.place pk).rxCsum = s.rxCsum := rfl
@[simp] theorem State.place_framingErrs (s : State) (pk : Packet) : (s.place pk).framingErrs = s.framingErrs := rfl
@[simp] theorem State.place_rxqDrops (s : State) (pk : Packet) : (s.place pk).rxqDrops = s.rxqDrops := rfl
@[simp] theorem State.place_teState (s : State) (pk : Packet) : (s.place pk).teState = s.teState := rfl
@[simp] theorem State.place_tePhase (s : State) (pk : Packet) : (s.place pk).tePhase = s.tePhase := rfl
@[simp] theorem State.place_imgLen (s : State) (pk : Packet) : (s.place pk).imgLen = s.imgLen := rfl
@[simp] theorem State.place_totalBlocks (s : State) (pk : Packet) : (s.place pk).totalBlocks = s.totalBlocks := rfl
@[simp] theorem State.place_curIndex (s : State) (pk : Packet) : (s.place pk).curIndex = s.curIndex := rfl
@[simp] theorem State.place_retryLimit (s : State) (pk : Packet) : (s.place pk).retryLimit = s.retryLimit := rfl
@[simp] theorem State.place_retriesLeft (s : State) (pk : Packet) : (s.place pk).retriesLeft = s.retriesLeft := rfl
@[simp] theorem State.place_hsTimeoutMs (s : State) (pk : Packet) : (s.place pk).hsTimeoutMs = s.hsTimeoutMs := rfl
@[simp] theorem State.place_blkTimeoutMs (s : State) (pk : Packet) : (s.place pk).blkTimeoutMs = s.blkTimeoutMs := rfl
@[simp] theorem State.place_progressEn (s : State) (pk : Packet) : (s.place pk).progressEn = s.progressEn := rfl
@[simp] theorem State.place_hwFlow (s : State) (pk : Packet) : (s.place pk).hwFlow = s.hwFlow := rfl
@[simp] theorem State.place_swFlow (s : State) (pk : Packet) : (s.place pk).swFlow = s.swFlow := rfl
@[simp] theorem State.place_teErr (s : State) (pk : Packet) : (s.place pk).teErr = s.teErr := rfl
@[simp] theorem State.place_progress (s : State) (pk : Packet) : (s.place pk).progress = s.progress := rfl
@[simp] theorem State.place_verify (s : State) (pk : Packet) : (s.place pk).verify = s.verify := rfl
@[simp] theorem State.place_irq (s : State) (pk : Packet) : (s.place pk).irq = s.irq := rfl
@[simp] theorem State.place_irqEnable (s : State) (pk : Packet) : (s.place pk).irqEnable = s.irqEnable := rfl
@[simp] theorem State.place_rxwin (s : State) (pk : Packet) : (s.place pk).rxwin = s.rxwin := rfl
@[simp] theorem State.place_rxq (s : State) (pk : Packet) : (s.place pk).rxq = s.rxq := rfl
@[simp] theorem State.place_txlog (s : State) (pk : Packet) : (s.place pk).txlog = s.txlog := rfl
@[simp] theorem State.place_txbuf (s : State) (pk : Packet) : (s.place pk).txbuf = s.txbuf := rfl
@[simp] theorem State.place_rxbuf (s : State) (pk : Packet) : (s.place pk).rxbuf = s.rxbuf := rfl
@[simp] theorem State.place_image (s : State) (pk : Packet) : (s.place pk).image = s.image := rfl
@[simp] theorem State.place_vbuf (s : State) (pk : Packet) : (s.place pk).vbuf = s.vbuf := rfl
@[simp] theorem State.place_pending (s : State) (pk : Packet) : (s.place pk).pending = pk :: s.pending := rfl
@[simp] theorem State.place_readData (s : State) (pk : Packet) : (s.place pk).readData = s.readData := rfl
@[simp] theorem State.place_draws (s : State) (pk : Packet) : (s.place pk).draws = s.draws := rfl

/-! ### `expand`: only `pending` changes -/

@[simp] theorem expand_params (is : List Instr) (s : State) : (expand is s).params = s.params := rfl
@[simp] theorem expand_result (is : List Instr) (s : State) : (expand is s).result = s.result := rfl
@[simp] theorem expand_owner (is : List Instr) (s : State) : (expand is s).owner = s.owner := rfl
@[simp] theorem expand_linkUp (is : List Instr) (s : State) : (expand is s).linkUp = s.linkUp := rfl
@[simp] theorem expand_txId (is : List Instr) (s : State) : (expand is s).txId = s.txId := rfl
@[simp] theorem expand_txType (is : List Instr) (s : State) : (expand is s).txType = s.txType := rfl
@[simp] theorem expand_txLen (is : List Instr) (s : State) : (expand is s).txLen = s.txLen := rfl
@[simp] theorem expand_rxId (is : List Instr) (s : State) : (expand is s).rxId = s.rxId := rfl
@[simp] theorem expand_rxType (is : List Instr) (s : State) : (expand is s).rxType = s.rxType := rfl
@[simp] theorem expand_rxLen (is : List Instr) (s : State) : (expand is s).rxLen = s.rxLen := rfl
@[simp] theorem expand_rxCsum (is : List Instr) (s : State) : (expand is s).rxCsum = s.rxCsum := rfl
@[simp] theorem expand_framingErrs (is : List Instr) (s : State) : (expand is s).framingErrs = s.framingErrs := rfl
@[simp] theorem expand_rxqDrops (is : List Instr) (s : State) : (expand is s).rxqDrops = s.rxqDrops := rfl
@[simp] theorem expand_teState (is : List Instr) (s : State) : (expand is s).teState = s.teState := rfl
@[simp] theorem expand_tePhase (is : List Instr) (s : State) : (expand is s).tePhase = s.tePhase := rfl
@[simp] theorem expand_imgLen (is : List Instr) (s : State) : (expand is s).imgLen = s.imgLen := rfl
@[simp] theorem expand_totalBlocks (is : List Instr) (s : State) : (expand is s).totalBlocks = s.totalBlocks := rfl
@[simp] theorem expand_curIndex (is : List Instr) (s : State) : (expand is s).curIndex = s.curIndex := rfl
@[simp] theorem expand_retryLimit (is : List Instr) (s : State) : (expand is s).retryLimit = s.retryLimit := rfl
@[simp] theorem expand_retriesLeft (is : List Instr) (s : State) : (expand is s).retriesLeft = s.retriesLeft := rfl
@[simp] theorem expand_hsTimeoutMs (is : List Instr) (s : State) : (expand is s).hsTimeoutMs = s.hsTimeoutMs := rfl
@[simp] theorem expand_blkTimeoutMs (is : List Instr) (s : State) : (expand is s).blkTimeoutMs = s.blkTimeoutMs := rfl
@[simp] theorem expand_progressEn (is : List Instr) (s : State) : (expand is s).progressEn = s.progressEn := rfl
@[simp] theorem expand_hwFlow (is : List Instr) (s : State) : (expand is s).hwFlow = s.hwFlow := rfl
@[simp] theorem expand_swFlow (is : List Instr) (s : State) : (expand is s).swFlow = s.swFlow := rfl
@[simp] theorem expand_teErr (is : List Instr) (s : State) : (expand is s).teErr = s.teErr := rfl
@[simp] theorem expand_progress (is : List Instr) (s : State) : (expand is s).progress = s.progress := rfl
@[simp] theorem expand_verify (is : List Instr) (s : State) : (expand is s).verify = s.verify := rfl
@[simp] theorem expand_irq (is : List Instr) (s : State) : (expand is s).irq = s.irq := rfl
@[simp] theorem expand_irqEnable (is : List Instr) (s : State) : (expand is s).irqEnable = s.irqEnable := rfl
@[simp] theorem expand_rxwin (is : List Instr) (s : State) : (expand is s).rxwin = s.rxwin := rfl
@[simp] theorem expand_rxq (is : List Instr) (s : State) : (expand is s).rxq = s.rxq := rfl
@[simp] theorem expand_txlog (is : List Instr) (s : State) : (expand is s).txlog = s.txlog := rfl
@[simp] theorem expand_txbuf (is : List Instr) (s : State) : (expand is s).txbuf = s.txbuf := rfl
@[simp] theorem expand_rxbuf (is : List Instr) (s : State) : (expand is s).rxbuf = s.rxbuf := rfl
@[simp] theorem expand_image (is : List Instr) (s : State) : (expand is s).image = s.image := rfl
@[simp] theorem expand_vbuf (is : List Instr) (s : State) : (expand is s).vbuf = s.vbuf := rfl
@[simp] theorem expand_readData (is : List Instr) (s : State) : (expand is s).readData = s.readData := rfl
@[simp] theorem expand_draws (is : List Instr) (s : State) : (expand is s).draws = s.draws := rfl
@[simp] theorem expand_pending (is : List Instr) (s : State) :
    (expand is s).pending = is.map (encode s.params) ++ s.pending := rfl

/-! ### `State.consume`: only `pending` changes -/

@[simp] theorem State.consume_params (s : State) (l : Lane) (rest : List Byte) (more : List Packet) :
    (s.consume l rest more).params = s.params := by cases rest <;> rfl
@[simp] theorem State.consume_result (s : State) (l : Lane) (rest : List Byte) (more : List Packet) :
    (s.consume l rest more).result = s.result := by cases rest <;> rfl
@[simp] theorem State.consume_owner (s : State) (l : Lane) (rest : List Byte) (more : List Packet) :
    (s.consume l rest more).owner = s.owner := by cases rest <;> rfl
@[simp] theorem State.consume_linkUp (s : State) (l : Lane) (rest : List Byte) (more : List Packet) :
    (s.consume l rest more).linkUp = s.linkUp := by cases rest <;> rfl
@[simp] theorem State.consume_txId (s : State) (l : Lane) (rest : List Byte) (more : List Packet) :
    (s.consume l rest more).txId = s.txId := by cases rest <;> rfl
@[simp] theorem State.consume_txType (s : State) (l : Lane) (rest : List Byte) (more : List Packet) :
    (s.consume l rest more).txType = s.txType := by cases rest <;> rfl
@[simp] theorem State.consume_txLen (s : State) (l : Lane) (rest : List Byte) (more : List Packet) :
    (s.consume l rest more).txLen = s.txLen := by cases rest <;> rfl
@[simp] theorem State.consume_rxId (s : State) (l : Lane) (rest : List Byte) (more : List Packet) :
    (s.consume l rest more).rxId = s.rxId := by cases rest <;> rfl
@[simp] theorem State.consume_rxType (s : State) (l : Lane) (rest : List Byte) (more : List Packet) :
    (s.consume l rest more).rxType = s.rxType := by cases rest <;> rfl
@[simp] theorem State.consume_rxLen (s : State) (l : Lane) (rest : List Byte) (more : List Packet) :
    (s.consume l rest more).rxLen = s.rxLen := by cases rest <;> rfl
@[simp] theorem State.consume_rxCsum (s : State) (l : Lane) (rest : List Byte) (more : List Packet) :
    (s.consume l rest more).rxCsum = s.rxCsum := by cases rest <;> rfl
@[simp] theorem State.consume_framingErrs (s : State) (l : Lane) (rest : List Byte) (more : List Packet) :
    (s.consume l rest more).framingErrs = s.framingErrs := by cases rest <;> rfl
@[simp] theorem State.consume_rxqDrops (s : State) (l : Lane) (rest : List Byte) (more : List Packet) :
    (s.consume l rest more).rxqDrops = s.rxqDrops := by cases rest <;> rfl
@[simp] theorem State.consume_teState (s : State) (l : Lane) (rest : List Byte) (more : List Packet) :
    (s.consume l rest more).teState = s.teState := by cases rest <;> rfl
@[simp] theorem State.consume_tePhase (s : State) (l : Lane) (rest : List Byte) (more : List Packet) :
    (s.consume l rest more).tePhase = s.tePhase := by cases rest <;> rfl
@[simp] theorem State.consume_imgLen (s : State) (l : Lane) (rest : List Byte) (more : List Packet) :
    (s.consume l rest more).imgLen = s.imgLen := by cases rest <;> rfl
@[simp] theorem State.consume_totalBlocks (s : State) (l : Lane) (rest : List Byte) (more : List Packet) :
    (s.consume l rest more).totalBlocks = s.totalBlocks := by cases rest <;> rfl
@[simp] theorem State.consume_curIndex (s : State) (l : Lane) (rest : List Byte) (more : List Packet) :
    (s.consume l rest more).curIndex = s.curIndex := by cases rest <;> rfl
@[simp] theorem State.consume_retryLimit (s : State) (l : Lane) (rest : List Byte) (more : List Packet) :
    (s.consume l rest more).retryLimit = s.retryLimit := by cases rest <;> rfl
@[simp] theorem State.consume_retriesLeft (s : State) (l : Lane) (rest : List Byte) (more : List Packet) :
    (s.consume l rest more).retriesLeft = s.retriesLeft := by cases rest <;> rfl
@[simp] theorem State.consume_hsTimeoutMs (s : State) (l : Lane) (rest : List Byte) (more : List Packet) :
    (s.consume l rest more).hsTimeoutMs = s.hsTimeoutMs := by cases rest <;> rfl
@[simp] theorem State.consume_blkTimeoutMs (s : State) (l : Lane) (rest : List Byte) (more : List Packet) :
    (s.consume l rest more).blkTimeoutMs = s.blkTimeoutMs := by cases rest <;> rfl
@[simp] theorem State.consume_progressEn (s : State) (l : Lane) (rest : List Byte) (more : List Packet) :
    (s.consume l rest more).progressEn = s.progressEn := by cases rest <;> rfl
@[simp] theorem State.consume_hwFlow (s : State) (l : Lane) (rest : List Byte) (more : List Packet) :
    (s.consume l rest more).hwFlow = s.hwFlow := by cases rest <;> rfl
@[simp] theorem State.consume_swFlow (s : State) (l : Lane) (rest : List Byte) (more : List Packet) :
    (s.consume l rest more).swFlow = s.swFlow := by cases rest <;> rfl
@[simp] theorem State.consume_teErr (s : State) (l : Lane) (rest : List Byte) (more : List Packet) :
    (s.consume l rest more).teErr = s.teErr := by cases rest <;> rfl
@[simp] theorem State.consume_progress (s : State) (l : Lane) (rest : List Byte) (more : List Packet) :
    (s.consume l rest more).progress = s.progress := by cases rest <;> rfl
@[simp] theorem State.consume_verify (s : State) (l : Lane) (rest : List Byte) (more : List Packet) :
    (s.consume l rest more).verify = s.verify := by cases rest <;> rfl
@[simp] theorem State.consume_irq (s : State) (l : Lane) (rest : List Byte) (more : List Packet) :
    (s.consume l rest more).irq = s.irq := by cases rest <;> rfl
@[simp] theorem State.consume_irqEnable (s : State) (l : Lane) (rest : List Byte) (more : List Packet) :
    (s.consume l rest more).irqEnable = s.irqEnable := by cases rest <;> rfl
@[simp] theorem State.consume_rxwin (s : State) (l : Lane) (rest : List Byte) (more : List Packet) :
    (s.consume l rest more).rxwin = s.rxwin := by cases rest <;> rfl
@[simp] theorem State.consume_rxq (s : State) (l : Lane) (rest : List Byte) (more : List Packet) :
    (s.consume l rest more).rxq = s.rxq := by cases rest <;> rfl
@[simp] theorem State.consume_txlog (s : State) (l : Lane) (rest : List Byte) (more : List Packet) :
    (s.consume l rest more).txlog = s.txlog := by cases rest <;> rfl
@[simp] theorem State.consume_txbuf (s : State) (l : Lane) (rest : List Byte) (more : List Packet) :
    (s.consume l rest more).txbuf = s.txbuf := by cases rest <;> rfl
@[simp] theorem State.consume_rxbuf (s : State) (l : Lane) (rest : List Byte) (more : List Packet) :
    (s.consume l rest more).rxbuf = s.rxbuf := by cases rest <;> rfl
@[simp] theorem State.consume_image (s : State) (l : Lane) (rest : List Byte) (more : List Packet) :
    (s.consume l rest more).image = s.image := by cases rest <;> rfl
@[simp] theorem State.consume_vbuf (s : State) (l : Lane) (rest : List Byte) (more : List Packet) :
    (s.consume l rest more).vbuf = s.vbuf := by cases rest <;> rfl
@[simp] theorem State.consume_readData (s : State) (l : Lane) (rest : List Byte) (more : List Packet) :
    (s.consume l rest more).readData = s.readData := by cases rest <;> rfl
@[simp] theorem State.consume_draws (s : State) (l : Lane) (rest : List Byte) (more : List Packet) :
    (s.consume l rest more).draws = s.draws := by cases rest <;> rfl

/-! ### `State.withBuffer`: only one buffer changes -/

@[simp] theorem State.withBuffer_params (s : State) (sp : Space) (m : Memory) :
    (s.withBuffer sp m).params = s.params := by cases sp <;> rfl
@[simp] theorem State.withBuffer_result (s : State) (sp : Space) (m : Memory) :
    (s.withBuffer sp m).result = s.result := by cases sp <;> rfl
@[simp] theorem State.withBuffer_owner (s : State) (sp : Space) (m : Memory) :
    (s.withBuffer sp m).owner = s.owner := by cases sp <;> rfl
@[simp] theorem State.withBuffer_linkUp (s : State) (sp : Space) (m : Memory) :
    (s.withBuffer sp m).linkUp = s.linkUp := by cases sp <;> rfl
@[simp] theorem State.withBuffer_txId (s : State) (sp : Space) (m : Memory) :
    (s.withBuffer sp m).txId = s.txId := by cases sp <;> rfl
@[simp] theorem State.withBuffer_txType (s : State) (sp : Space) (m : Memory) :
    (s.withBuffer sp m).txType = s.txType := by cases sp <;> rfl
@[simp] theorem State.withBuffer_txLen (s : State) (sp : Space) (m : Memory) :
    (s.withBuffer sp m).txLen = s.txLen := by cases sp <;> rfl
@[simp] theorem State.withBuffer_rxId (s : State) (sp : Space) (m : Memory) :
    (s.withBuffer sp m).rxId = s.rxId := by cases sp <;> rfl
@[simp] theorem State.withBuffer_rxType (s : State) (sp : Space) (m : Memory) :
    (s.withBuffer sp m).rxType = s.rxType := by cases sp <;> rfl
@[simp] theorem State.withBuffer_rxLen (s : State) (sp : Space) (m : Memory) :
    (s.withBuffer sp m).rxLen = s.rxLen := by cases sp <;> rfl
@[simp] theorem State.withBuffer_rxCsum (s : State) (sp : Space) (m : Memory) :
    (s.withBuffer sp m).rxCsum = s.rxCsum := by cases sp <;> rfl
@[simp] theorem State.withBuffer_framingErrs (s : State) (sp : Space) (m : Memory) :
    (s.withBuffer sp m).framingErrs = s.framingErrs := by cases sp <;> rfl
@[simp] theorem State.withBuffer_rxqDrops (s : State) (sp : Space) (m : Memory) :
    (s.withBuffer sp m).rxqDrops = s.rxqDrops := by cases sp <;> rfl
@[simp] theorem State.withBuffer_teState (s : State) (sp : Space) (m : Memory) :
    (s.withBuffer sp m).teState = s.teState := by cases sp <;> rfl
@[simp] theorem State.withBuffer_tePhase (s : State) (sp : Space) (m : Memory) :
    (s.withBuffer sp m).tePhase = s.tePhase := by cases sp <;> rfl
@[simp] theorem State.withBuffer_imgLen (s : State) (sp : Space) (m : Memory) :
    (s.withBuffer sp m).imgLen = s.imgLen := by cases sp <;> rfl
@[simp] theorem State.withBuffer_totalBlocks (s : State) (sp : Space) (m : Memory) :
    (s.withBuffer sp m).totalBlocks = s.totalBlocks := by cases sp <;> rfl
@[simp] theorem State.withBuffer_curIndex (s : State) (sp : Space) (m : Memory) :
    (s.withBuffer sp m).curIndex = s.curIndex := by cases sp <;> rfl
@[simp] theorem State.withBuffer_retryLimit (s : State) (sp : Space) (m : Memory) :
    (s.withBuffer sp m).retryLimit = s.retryLimit := by cases sp <;> rfl
@[simp] theorem State.withBuffer_retriesLeft (s : State) (sp : Space) (m : Memory) :
    (s.withBuffer sp m).retriesLeft = s.retriesLeft := by cases sp <;> rfl
@[simp] theorem State.withBuffer_hsTimeoutMs (s : State) (sp : Space) (m : Memory) :
    (s.withBuffer sp m).hsTimeoutMs = s.hsTimeoutMs := by cases sp <;> rfl
@[simp] theorem State.withBuffer_blkTimeoutMs (s : State) (sp : Space) (m : Memory) :
    (s.withBuffer sp m).blkTimeoutMs = s.blkTimeoutMs := by cases sp <;> rfl
@[simp] theorem State.withBuffer_progressEn (s : State) (sp : Space) (m : Memory) :
    (s.withBuffer sp m).progressEn = s.progressEn := by cases sp <;> rfl
@[simp] theorem State.withBuffer_hwFlow (s : State) (sp : Space) (m : Memory) :
    (s.withBuffer sp m).hwFlow = s.hwFlow := by cases sp <;> rfl
@[simp] theorem State.withBuffer_swFlow (s : State) (sp : Space) (m : Memory) :
    (s.withBuffer sp m).swFlow = s.swFlow := by cases sp <;> rfl
@[simp] theorem State.withBuffer_teErr (s : State) (sp : Space) (m : Memory) :
    (s.withBuffer sp m).teErr = s.teErr := by cases sp <;> rfl
@[simp] theorem State.withBuffer_progress (s : State) (sp : Space) (m : Memory) :
    (s.withBuffer sp m).progress = s.progress := by cases sp <;> rfl
@[simp] theorem State.withBuffer_verify (s : State) (sp : Space) (m : Memory) :
    (s.withBuffer sp m).verify = s.verify := by cases sp <;> rfl
@[simp] theorem State.withBuffer_irq (s : State) (sp : Space) (m : Memory) :
    (s.withBuffer sp m).irq = s.irq := by cases sp <;> rfl
@[simp] theorem State.withBuffer_irqEnable (s : State) (sp : Space) (m : Memory) :
    (s.withBuffer sp m).irqEnable = s.irqEnable := by cases sp <;> rfl
@[simp] theorem State.withBuffer_rxwin (s : State) (sp : Space) (m : Memory) :
    (s.withBuffer sp m).rxwin = s.rxwin := by cases sp <;> rfl
@[simp] theorem State.withBuffer_rxq (s : State) (sp : Space) (m : Memory) :
    (s.withBuffer sp m).rxq = s.rxq := by cases sp <;> rfl
@[simp] theorem State.withBuffer_txlog (s : State) (sp : Space) (m : Memory) :
    (s.withBuffer sp m).txlog = s.txlog := by cases sp <;> rfl
@[simp] theorem State.withBuffer_pending (s : State) (sp : Space) (m : Memory) :
    (s.withBuffer sp m).pending = s.pending := by cases sp <;> rfl
@[simp] theorem State.withBuffer_readData (s : State) (sp : Space) (m : Memory) :
    (s.withBuffer sp m).readData = s.readData := by cases sp <;> rfl
@[simp] theorem State.withBuffer_draws (s : State) (sp : Space) (m : Memory) :
    (s.withBuffer sp m).draws = s.draws := by cases sp <;> rfl

@[simp] theorem State.withBuffer_buffer (s : State) (sp : Space) (m : Memory) : (s.withBuffer sp m).buffer sp = m := by
  cases sp <;> rfl

theorem State.withBuffer_buffer_ne (s : State) (sp sp' : Space) (m : Memory) (h : sp' ≠ sp) :
    (s.withBuffer sp m).buffer sp' = s.buffer sp' := by
  cases sp <;> cases sp' <;> first | rfl | exact absurd rfl h

/-! ### `deliver`: only the queue, its drop count and its drop bit change -/

@[simp] theorem deliver_params (s : State) (fr : Frame) : (deliver s fr).params = s.params := by unfold deliver; split <;> rfl
@[simp] theorem deliver_result (s : State) (fr : Frame) : (deliver s fr).result = s.result := by unfold deliver; split <;> rfl
@[simp] theorem deliver_owner (s : State) (fr : Frame) : (deliver s fr).owner = s.owner := by unfold deliver; split <;> rfl
@[simp] theorem deliver_linkUp (s : State) (fr : Frame) : (deliver s fr).linkUp = s.linkUp := by unfold deliver; split <;> rfl
@[simp] theorem deliver_txId (s : State) (fr : Frame) : (deliver s fr).txId = s.txId := by unfold deliver; split <;> rfl
@[simp] theorem deliver_txType (s : State) (fr : Frame) : (deliver s fr).txType = s.txType := by unfold deliver; split <;> rfl
@[simp] theorem deliver_txLen (s : State) (fr : Frame) : (deliver s fr).txLen = s.txLen := by unfold deliver; split <;> rfl
@[simp] theorem deliver_rxId (s : State) (fr : Frame) : (deliver s fr).rxId = s.rxId := by unfold deliver; split <;> rfl
@[simp] theorem deliver_rxType (s : State) (fr : Frame) : (deliver s fr).rxType = s.rxType := by unfold deliver; split <;> rfl
@[simp] theorem deliver_rxLen (s : State) (fr : Frame) : (deliver s fr).rxLen = s.rxLen := by unfold deliver; split <;> rfl
@[simp] theorem deliver_rxCsum (s : State) (fr : Frame) : (deliver s fr).rxCsum = s.rxCsum := by unfold deliver; split <;> rfl
@[simp] theorem deliver_framingErrs (s : State) (fr : Frame) : (deliver s fr).framingErrs = s.framingErrs := by unfold deliver; split <;> rfl
@[simp] theorem deliver_teState (s : State) (fr : Frame) : (deliver s fr).teState = s.teState := by unfold deliver; split <;> rfl
@[simp] theorem deliver_tePhase (s : State) (fr : Frame) : (deliver s fr).tePhase = s.tePhase := by unfold deliver; split <;> rfl
@[simp] theorem deliver_imgLen (s : State) (fr : Frame) : (deliver s fr).imgLen = s.imgLen := by unfold deliver; split <;> rfl
@[simp] theorem deliver_totalBlocks (s : State) (fr : Frame) : (deliver s fr).totalBlocks = s.totalBlocks := by unfold deliver; split <;> rfl
@[simp] theorem deliver_curIndex (s : State) (fr : Frame) : (deliver s fr).curIndex = s.curIndex := by unfold deliver; split <;> rfl
@[simp] theorem deliver_retryLimit (s : State) (fr : Frame) : (deliver s fr).retryLimit = s.retryLimit := by unfold deliver; split <;> rfl
@[simp] theorem deliver_retriesLeft (s : State) (fr : Frame) : (deliver s fr).retriesLeft = s.retriesLeft := by unfold deliver; split <;> rfl
@[simp] theorem deliver_hsTimeoutMs (s : State) (fr : Frame) : (deliver s fr).hsTimeoutMs = s.hsTimeoutMs := by unfold deliver; split <;> rfl
@[simp] theorem deliver_blkTimeoutMs (s : State) (fr : Frame) : (deliver s fr).blkTimeoutMs = s.blkTimeoutMs := by unfold deliver; split <;> rfl
@[simp] theorem deliver_progressEn (s : State) (fr : Frame) : (deliver s fr).progressEn = s.progressEn := by unfold deliver; split <;> rfl
@[simp] theorem deliver_hwFlow (s : State) (fr : Frame) : (deliver s fr).hwFlow = s.hwFlow := by unfold deliver; split <;> rfl
@[simp] theorem deliver_swFlow (s : State) (fr : Frame) : (deliver s fr).swFlow = s.swFlow := by unfold deliver; split <;> rfl
@[simp] theorem deliver_teErr (s : State) (fr : Frame) : (deliver s fr).teErr = s.teErr := by unfold deliver; split <;> rfl
@[simp] theorem deliver_progress (s : State) (fr : Frame) : (deliver s fr).progress = s.progress := by unfold deliver; split <;> rfl
@[simp] theorem deliver_verify (s : State) (fr : Frame) : (deliver s fr).verify = s.verify := by unfold deliver; split <;> rfl
@[simp] theorem deliver_irqEnable (s : State) (fr : Frame) : (deliver s fr).irqEnable = s.irqEnable := by unfold deliver; split <;> rfl
@[simp] theorem deliver_rxwin (s : State) (fr : Frame) : (deliver s fr).rxwin = s.rxwin := by unfold deliver; split <;> rfl
@[simp] theorem deliver_txlog (s : State) (fr : Frame) : (deliver s fr).txlog = s.txlog := by unfold deliver; split <;> rfl
@[simp] theorem deliver_txbuf (s : State) (fr : Frame) : (deliver s fr).txbuf = s.txbuf := by unfold deliver; split <;> rfl
@[simp] theorem deliver_rxbuf (s : State) (fr : Frame) : (deliver s fr).rxbuf = s.rxbuf := by unfold deliver; split <;> rfl
@[simp] theorem deliver_image (s : State) (fr : Frame) : (deliver s fr).image = s.image := by unfold deliver; split <;> rfl
@[simp] theorem deliver_vbuf (s : State) (fr : Frame) : (deliver s fr).vbuf = s.vbuf := by unfold deliver; split <;> rfl
@[simp] theorem deliver_pending (s : State) (fr : Frame) : (deliver s fr).pending = s.pending := by unfold deliver; split <;> rfl
@[simp] theorem deliver_readData (s : State) (fr : Frame) : (deliver s fr).readData = s.readData := by unfold deliver; split <;> rfl
@[simp] theorem deliver_draws (s : State) (fr : Frame) : (deliver s fr).draws = s.draws := by unfold deliver; split <;> rfl

/-! ### Delivering several frames -/

@[simp] theorem deliver_foldl_params (fs : List Frame) (s : State) : (fs.foldl deliver s).params = s.params := by
  induction fs generalizing s with
  | nil => rfl
  | cons fr fs ih => simp [ih]
@[simp] theorem deliver_foldl_result (fs : List Frame) (s : State) : (fs.foldl deliver s).result = s.result := by
  induction fs generalizing s with
  | nil => rfl
  | cons fr fs ih => simp [ih]
@[simp] theorem deliver_foldl_owner (fs : List Frame) (s : State) : (fs.foldl deliver s).owner = s.owner := by
  induction fs generalizing s with
  | nil => rfl
  | cons fr fs ih => simp [ih]
@[simp] theorem deliver_foldl_linkUp (fs : List Frame) (s : State) : (fs.foldl deliver s).linkUp = s.linkUp := by
  induction fs generalizing s with
  | nil => rfl
  | cons fr fs ih => simp [ih]
@[simp] theorem deliver_foldl_txId (fs : List Frame) (s : State) : (fs.foldl deliver s).txId = s.txId := by
  induction fs generalizing s with
  | nil => rfl
  | cons fr fs ih => simp [ih]
@[simp] theorem deliver_foldl_txType (fs : List Frame) (s : State) : (fs.foldl deliver s).txType = s.txType := by
  induction fs generalizing s with
  | nil => rfl
  | cons fr fs ih => simp [ih]
@[simp] theorem deliver_foldl_txLen (fs : List Frame) (s : State) : (fs.foldl deliver s).txLen = s.txLen := by
  induction fs generalizing s with
  | nil => rfl
  | cons fr fs ih => simp [ih]
@[simp] theorem deliver_foldl_rxId (fs : List Frame) (s : State) : (fs.foldl deliver s).rxId = s.rxId := by
  induction fs generalizing s with
  | nil => rfl
  | cons fr fs ih => simp [ih]
@[simp] theorem deliver_foldl_rxType (fs : List Frame) (s : State) : (fs.foldl deliver s).rxType = s.rxType := by
  induction fs generalizing s with
  | nil => rfl
  | cons fr fs ih => simp [ih]
@[simp] theorem deliver_foldl_rxLen (fs : List Frame) (s : State) : (fs.foldl deliver s).rxLen = s.rxLen := by
  induction fs generalizing s with
  | nil => rfl
  | cons fr fs ih => simp [ih]
@[simp] theorem deliver_foldl_rxCsum (fs : List Frame) (s : State) : (fs.foldl deliver s).rxCsum = s.rxCsum := by
  induction fs generalizing s with
  | nil => rfl
  | cons fr fs ih => simp [ih]
@[simp] theorem deliver_foldl_framingErrs (fs : List Frame) (s : State) : (fs.foldl deliver s).framingErrs = s.framingErrs := by
  induction fs generalizing s with
  | nil => rfl
  | cons fr fs ih => simp [ih]
@[simp] theorem deliver_foldl_teState (fs : List Frame) (s : State) : (fs.foldl deliver s).teState = s.teState := by
  induction fs generalizing s with
  | nil => rfl
  | cons fr fs ih => simp [ih]
@[simp] theorem deliver_foldl_tePhase (fs : List Frame) (s : State) : (fs.foldl deliver s).tePhase = s.tePhase := by
  induction fs generalizing s with
  | nil => rfl
  | cons fr fs ih => simp [ih]
@[simp] theorem deliver_foldl_imgLen (fs : List Frame) (s : State) : (fs.foldl deliver s).imgLen = s.imgLen := by
  induction fs generalizing s with
  | nil => rfl
  | cons fr fs ih => simp [ih]
@[simp] theorem deliver_foldl_totalBlocks (fs : List Frame) (s : State) : (fs.foldl deliver s).totalBlocks = s.totalBlocks := by
  induction fs generalizing s with
  | nil => rfl
  | cons fr fs ih => simp [ih]
@[simp] theorem deliver_foldl_curIndex (fs : List Frame) (s : State) : (fs.foldl deliver s).curIndex = s.curIndex := by
  induction fs generalizing s with
  | nil => rfl
  | cons fr fs ih => simp [ih]
@[simp] theorem deliver_foldl_retryLimit (fs : List Frame) (s : State) : (fs.foldl deliver s).retryLimit = s.retryLimit := by
  induction fs generalizing s with
  | nil => rfl
  | cons fr fs ih => simp [ih]
@[simp] theorem deliver_foldl_retriesLeft (fs : List Frame) (s : State) : (fs.foldl deliver s).retriesLeft = s.retriesLeft := by
  induction fs generalizing s with
  | nil => rfl
  | cons fr fs ih => simp [ih]
@[simp] theorem deliver_foldl_hsTimeoutMs (fs : List Frame) (s : State) : (fs.foldl deliver s).hsTimeoutMs = s.hsTimeoutMs := by
  induction fs generalizing s with
  | nil => rfl
  | cons fr fs ih => simp [ih]
@[simp] theorem deliver_foldl_blkTimeoutMs (fs : List Frame) (s : State) : (fs.foldl deliver s).blkTimeoutMs = s.blkTimeoutMs := by
  induction fs generalizing s with
  | nil => rfl
  | cons fr fs ih => simp [ih]
@[simp] theorem deliver_foldl_progressEn (fs : List Frame) (s : State) : (fs.foldl deliver s).progressEn = s.progressEn := by
  induction fs generalizing s with
  | nil => rfl
  | cons fr fs ih => simp [ih]
@[simp] theorem deliver_foldl_hwFlow (fs : List Frame) (s : State) : (fs.foldl deliver s).hwFlow = s.hwFlow := by
  induction fs generalizing s with
  | nil => rfl
  | cons fr fs ih => simp [ih]
@[simp] theorem deliver_foldl_swFlow (fs : List Frame) (s : State) : (fs.foldl deliver s).swFlow = s.swFlow := by
  induction fs generalizing s with
  | nil => rfl
  | cons fr fs ih => simp [ih]
@[simp] theorem deliver_foldl_teErr (fs : List Frame) (s : State) : (fs.foldl deliver s).teErr = s.teErr := by
  induction fs generalizing s with
  | nil => rfl
  | cons fr fs ih => simp [ih]
@[simp] theorem deliver_foldl_progress (fs : List Frame) (s : State) : (fs.foldl deliver s).progress = s.progress := by
  induction fs generalizing s with
  | nil => rfl
  | cons fr fs ih => simp [ih]
@[simp] theorem deliver_foldl_verify (fs : List Frame) (s : State) : (fs.foldl deliver s).verify = s.verify := by
  induction fs generalizing s with
  | nil => rfl
  | cons fr fs ih => simp [ih]
@[simp] theorem deliver_foldl_irqEnable (fs : List Frame) (s : State) : (fs.foldl deliver s).irqEnable = s.irqEnable := by
  induction fs generalizing s with
  | nil => rfl
  | cons fr fs ih => simp [ih]
@[simp] theorem deliver_foldl_rxwin (fs : List Frame) (s : State) : (fs.foldl deliver s).rxwin = s.rxwin := by
  induction fs generalizing s with
  | nil => rfl
  | cons fr fs ih => simp [ih]
@[simp] theorem deliver_foldl_txlog (fs : List Frame) (s : State) : (fs.foldl deliver s).txlog = s.txlog := by
  induction fs generalizing s with
  | nil => rfl
  | cons fr fs ih => simp [ih]
@[simp] theorem deliver_foldl_txbuf (fs : List Frame) (s : State) : (fs.foldl deliver s).txbuf = s.txbuf := by
  induction fs generalizing s with
  | nil => rfl
  | cons fr fs ih => simp [ih]
@[simp] theorem deliver_foldl_rxbuf (fs : List Frame) (s : State) : (fs.foldl deliver s).rxbuf = s.rxbuf := by
  induction fs generalizing s with
  | nil => rfl
  | cons fr fs ih => simp [ih]
@[simp] theorem deliver_foldl_image (fs : List Frame) (s : State) : (fs.foldl deliver s).image = s.image := by
  induction fs generalizing s with
  | nil => rfl
  | cons fr fs ih => simp [ih]
@[simp] theorem deliver_foldl_vbuf (fs : List Frame) (s : State) : (fs.foldl deliver s).vbuf = s.vbuf := by
  induction fs generalizing s with
  | nil => rfl
  | cons fr fs ih => simp [ih]
@[simp] theorem deliver_foldl_pending (fs : List Frame) (s : State) : (fs.foldl deliver s).pending = s.pending := by
  induction fs generalizing s with
  | nil => rfl
  | cons fr fs ih => simp [ih]
@[simp] theorem deliver_foldl_readData (fs : List Frame) (s : State) : (fs.foldl deliver s).readData = s.readData := by
  induction fs generalizing s with
  | nil => rfl
  | cons fr fs ih => simp [ih]
@[simp] theorem deliver_foldl_draws (fs : List Frame) (s : State) : (fs.foldl deliver s).draws = s.draws := by
  induction fs generalizing s with
  | nil => rfl
  | cons fr fs ih => simp [ih]

end Sys2Proof.Machine
end

