-- ==== Sys2Proof/Laws/Memory.lean ====
section
/-! SUPPORT. What the memory operations do: reads after writes, the canonical form, and what a read of several bytes answers. -/

namespace Sys2Proof.Machine

/-! ### One byte -/

@[simp] theorem Memory.read_nil (a : Nat) : Memory.read [] a = none := rfl

theorem Memory.read_write_same (m : Memory) (a : Nat) (b : Byte) : Memory.read (Memory.write m a b) a = some b := by
  induction m with
  | nil => simp [Memory.write, Memory.read]
  | cons c rest ih =>
    obtain ⟨x, y⟩ := c
    unfold Memory.write
    split
    · simp [Memory.read]
    · split
      · simp [Memory.read]
      · rename_i h
        simp [Memory.read, ih, Ne.symm h]

theorem Memory.read_write_other (m : Memory) (a c : Nat) (b : Byte) (h : c ≠ a) :
    Memory.read (Memory.write m a b) c = Memory.read m c := by
  induction m with
  | nil => simp [Memory.write, Memory.read, Ne.symm h]
  | cons e rest ih =>
    obtain ⟨x, y⟩ := e
    unfold Memory.write
    split
    · simp [Memory.read, Ne.symm h]
    · split
      · rename_i hax
        subst hax
        simp [Memory.read, Ne.symm h]
      · simp only [Memory.read, ih]

/-- The addresses a write leaves listed: the old ones and the written one. -/
theorem Memory.mem_write {m : Memory} {a : Nat} {b : Byte} {c : Host.Cell} (h : c ∈ Memory.write m a b) :
    c = (a, b) ∨ c ∈ m := by
  induction m with
  | nil => simpa [Memory.write] using h
  | cons e rest ih =>
    obtain ⟨x, y⟩ := e
    unfold Memory.write at h
    split at h
    · simpa using h
    · split at h
      · rcases List.mem_cons.1 h with h | h
        · exact .inl h
        · exact .inr (List.mem_cons_of_mem _ h)
      · rcases List.mem_cons.1 h with h | h
        · exact .inr (h ▸ List.mem_cons_self)
        · exact (ih h).imp_right (List.mem_cons_of_mem _)

/-- A write keeps the canonical form. -/
theorem Memory.write_wf {m : Memory} (h : Memory.wf m) (a : Nat) (b : Byte) : Memory.wf (Memory.write m a b) := by
  induction m with
  | nil => simp [Memory.write]
  | cons e rest ih =>
    obtain ⟨x, y⟩ := e
    have hr := List.pairwise_cons.1 h
    unfold Memory.write
    split
    · rename_i hax
      refine List.pairwise_cons.2 ⟨fun c hc => ?_, h⟩
      rcases List.mem_cons.1 hc with rfl | hc
      · exact hax
      · exact Nat.lt_trans hax (hr.1 c hc)
    · split
      · rename_i hax
        subst hax
        exact List.pairwise_cons.2 ⟨hr.1, hr.2⟩
      · refine List.pairwise_cons.2 ⟨fun c hc => ?_, ih hr.2⟩
        rcases Memory.mem_write hc with rfl | hc
        · simp only; omega
        · exact hr.1 c hc

/-- A byte that a memory lists is what a read of its address gives, in canonical form. -/
theorem Memory.read_of_mem {m : Memory} (h : Memory.wf m) {c : Host.Cell} (hc : c ∈ m) :
    Memory.read m c.1 = some c.2 := by
  induction m with
  | nil => cases hc
  | cons e rest ih =>
    obtain ⟨x, y⟩ := e
    have hr := List.pairwise_cons.1 h
    rcases List.mem_cons.1 hc with rfl | hc
    · simp [Memory.read]
    · have := hr.1 c hc
      simp only [Memory.read]
      rw [if_neg (by simp only at this; omega)]
      exact ih hr.2 hc

/-! ### Several bytes -/

theorem Memory.writeAll_wf {m : Memory} (h : Memory.wf m) (a : Nat) (bs : List Byte) : Memory.wf (Memory.writeAll m a bs) := by
  induction bs generalizing m a with
  | nil => exact h
  | cons b bs ih => exact ih (Memory.write_wf h a b) (a + 1)

theorem Memory.mem_writeAll {m : Memory} {a : Nat} {bs : List Byte} {c : Host.Cell} (h : c ∈ Memory.writeAll m a bs) :
    c ∈ m ∨ (a ≤ c.1 ∧ c.1 < a + bs.length) := by
  induction bs generalizing m a with
  | nil => exact .inl h
  | cons b bs ih =>
    rcases ih h with h | ⟨h1, h2⟩
    · rcases Memory.mem_write h with rfl | h
      · exact .inr ⟨Nat.le_refl _, by simp⟩
      · exact .inl h
    · exact .inr ⟨by omega, by simp only [List.length_cons]; omega⟩

/-- What a write of several bytes stores. -/
theorem Memory.read_writeAll_inside (m : Memory) (a : Nat) (bs : List Byte) (k : Nat) (h : k < bs.length) :
    Memory.read (Memory.writeAll m a bs) (a + k) = some bs[k] := by
  induction bs generalizing m a k with
  | nil => simp at h
  | cons b bs ih =>
    have outside : ∀ (bs : List Byte) (m : Memory) (a c : Nat), c < a →
        Memory.read (Memory.writeAll m a bs) c = Memory.read m c := by
      intro bs
      induction bs with
      | nil => intro m a c _; rfl
      | cons b bs ih =>
        intro m a c hc
        rw [Memory.writeAll, ih _ _ _ (by omega), Memory.read_write_other _ _ _ _ (by omega)]
    cases k with
    | zero => simp [Memory.writeAll, outside bs _ _ _ (Nat.lt_succ_self a), Memory.read_write_same]
    | succ k =>
      have := ih (Memory.write m a b) (a + 1) k (by simpa using h)
      rw [show a + (k + 1) = a + 1 + k by omega]
      simpa [Memory.writeAll] using this

/-- What a write of several bytes leaves alone. -/
theorem Memory.read_writeAll_outside (m : Memory) (a : Nat) (bs : List Byte) (c : Nat) (h : c < a ∨ a + bs.length ≤ c) :
    Memory.read (Memory.writeAll m a bs) c = Memory.read m c := by
  induction bs generalizing m a with
  | nil => rfl
  | cons b bs ih =>
    simp only [List.length_cons] at h
    rw [Memory.writeAll, ih _ _ (by omega), Memory.read_write_other _ _ _ _ (by omega)]

/-- A read of several bytes answers them when every one holds a value. -/
theorem memRead_ok (sp : Space) (m : Memory) (a : Nat) (bs : List Byte)
    (h : ∀ (k : Nat) (hk : k < bs.length), Memory.read m (a + k) = some bs[k]) :
    memRead sp m a bs.length = .ok bs := by
  induction bs generalizing a with
  | nil => rfl
  | cons b bs ih =>
    have h0 := h 0 (by simp)
    have hs := ih (a + 1) fun k hk => by
      have := h (k + 1) (by simpa using hk)
      simpa [Nat.add_assoc, Nat.add_comm 1 k] using this
    simp only [Nat.add_zero, List.getElem_cons_zero] at h0
    simp [memRead, h0, hs]

/-- What an answer to a read of several bytes says about the memory. -/
theorem memRead_inv {sp : Space} {m : Memory} {a n : Nat} {bs : List Byte} (h : memRead sp m a n = .ok bs) :
    bs.length = n ∧ ∀ (k : Nat) (hk : k < bs.length), Memory.read m (a + k) = some bs[k] := by
  induction n generalizing a bs with
  | zero => simp only [memRead, Except.ok.injEq] at h; subst h; simp
  | succ n ih =>
    unfold memRead at h
    split at h
    · simp at h
    · rename_i b hb
      split at h
      · rename_i bs' h'
        simp only [Except.ok.injEq] at h
        subst h
        obtain ⟨h1, h2⟩ := ih h'
        refine ⟨by simp [h1], fun k hk => ?_⟩
        cases k with
        | zero => simpa using hb
        | succ k =>
          have := h2 k (by simpa using hk)
          simpa [Nat.add_assoc, Nat.add_comm 1 k] using this
      · simp at h

/-- A read of several bytes faults exactly at the first byte with no value. -/
theorem memRead_error {sp : Space} {m : Memory} {a n : Nat} {f : Fault} (h : memRead sp m a n = .error f) :
    ∃ k, k < n ∧ f = .uninitByte sp (a + k) ∧ Memory.read m (a + k) = none ∧
      ∀ j, j < k → Memory.read m (a + j) ≠ none := by
  induction n generalizing a with
  | zero => simp [memRead] at h
  | succ n ih =>
    unfold memRead at h
    split at h
    · rename_i hb
      simp only [Except.error.injEq] at h
      exact ⟨0, by omega, h.symm, hb, by omega⟩
    · rename_i b hb
      split at h
      · simp at h
      · rename_i f' h'
        simp only [Except.error.injEq] at h
        subst h
        obtain ⟨k, hk, hf, hn, hj⟩ := ih h'
        refine ⟨k + 1, by omega, by rw [hf]; congr 1; omega, by rw [← hn]; congr 1; omega, fun j hjk => ?_⟩
        cases j with
        | zero => simp [hb]
        | succ j => have := hj j (by omega); rwa [Nat.add_assoc, Nat.add_comm 1 j] at this

/-- A read of several bytes faults at the first byte with no value. -/
theorem memRead_fault (sp : Space) (m : Memory) (a n k : Nat) (hk : k < n) (hn : Memory.read m (a + k) = none)
    (hj : ∀ j, j < k → Memory.read m (a + j) ≠ none) : memRead sp m a n = .error (.uninitByte sp (a + k)) := by
  cases h : memRead sp m a n with
  | ok bs =>
    obtain ⟨h1, h2⟩ := memRead_inv h
    have := h2 k (by omega)
    simp [hn] at this
  | error f =>
    obtain ⟨k', hk', hf, hn', hj'⟩ := memRead_error h
    have : k' = k := by
      rcases Nat.lt_trichotomy k' k with h | h | h
      · exact absurd hn' (hj k' h)
      · exact h
      · exact absurd hn (hj' k h)
    rw [hf, this]

/-- The buffers of the state after reset are in canonical form. -/
theorem reset_buffer_wf (sp : Space) : Memory.wf (State.reset.buffer sp) := by cases sp <;> exact List.Pairwise.nil

end Sys2Proof.Machine
end

