-- ==== Sys2Proof/Laws/Codec.lean ====
section
/-! SUPPORT. The small lemmas of the byte-order functions, the opcode map and the wire formats. -/

namespace Sys2Proof

/-! ### Bytes of words -/

/-- `v[7:0]` in its two spellings. -/
theorem setWidth_eq_low (v : Word) (n : Nat) : v.setWidth n = v.extractLsb' 0 n := by
  ext i; simp

theorem word32_le32 (v : Word) :
    word32 (v.extractLsb' 0 8) (v.extractLsb' 8 8) (v.extractLsb' 16 8) (v.extractLsb' 24 8) = v := by
  apply BitVec.eq_of_getLsbD_eq
  intro i hi
  have hb := hi
  simp only [word32]
  rw [BitVec.getLsbD_append, BitVec.getLsbD_append, BitVec.getLsbD_append]
  simp only [BitVec.getLsbD_extractLsb']
  rcases (by omega : i < 8 ∨ (8 ≤ i ∧ i < 16) ∨ (16 ≤ i ∧ i < 24) ∨ 24 ≤ i) with h | h | h | h
  · simp [h]
  · simp [show ¬ i < 8 by omega, show i - 8 < 8 by omega, show 8 + (i - 8) = i by omega]
  · simp [show ¬ i < 8 by omega, show ¬ i - 8 < 8 by omega, show i - 8 - 8 < 8 by omega,
      show 16 + (i - 8 - 8) = i by omega]
  · simp [show ¬ i < 8 by omega, show ¬ i - 8 < 8 by omega, show ¬ i - 8 - 8 < 8 by omega,
      show i - 8 - 8 - 8 < 8 by omega, show 24 + (i - 8 - 8 - 8) = i by omega]

@[simp] theorem le32_length (v : Word) : (le32 v).length = 4 := rfl

@[simp] theorem be16_length (v : Half) : (be16 v).length = 2 := rfl

@[simp] theorem put16_length (o : FieldOrder) (v : Half) : (put16 o v).length = 2 := by cases o <;> rfl

/-- A two-byte field is read back as it was put (00_scope.md R9). -/
theorem append_extract_half (v : Half) : v.extractLsb' 8 8 ++ v.extractLsb' 0 8 = v := by
  ext i hi
  simp only [BitVec.getElem_append, BitVec.getElem_extractLsb']
  by_cases h : i < 8
  · simp [h, BitVec.getLsbD_eq_getElem hi]
  · simp only [h, dite_false]
    rw [show 8 + (i - 8) = i by omega, BitVec.getLsbD_eq_getElem hi]

/-- Two bytes are a value high byte first exactly when they add up to it (20_memory.md R63). -/
theorem be16_eq_iff (v : Half) (hi lo : Byte) : [hi, lo] = be16 v ↔ v.toNat = hi.toNat * 256 + lo.toNat := by
  have h1 : (hi ++ lo).toNat = hi.toNat * 256 + lo.toNat := by
    rw [BitVec.toNat_append, Nat.shiftLeft_eq, Nat.mul_comm hi.toNat, ← Nat.two_pow_add_eq_or_of_lt lo.isLt]
  have h2 : v = hi ++ lo ↔ hi = v.extractLsb' 8 8 ∧ lo = v.extractLsb' 0 8 := by
    constructor
    · rintro rfl
      constructor
      · exact BitVec.eq_of_getLsbD_eq fun i hi' => by
          rw [BitVec.getLsbD_extractLsb', BitVec.getLsbD_append]
          simp [hi']
      · exact BitVec.eq_of_getLsbD_eq fun i hi' => by
          rw [BitVec.getLsbD_extractLsb', BitVec.getLsbD_append]
          simp [hi']
    · rintro ⟨rfl, rfl⟩
      exact (append_extract_half v).symm
  rw [← h1, BitVec.toNat_inj, h2]
  simp [be16]

/-- `put16` names two bytes that `field16` joins again. -/
theorem put16_field16 (o : FieldOrder) (v : Half) : ∃ a b : Byte, put16 o v = [a, b] ∧ field16 o a b = v := by
  cases o
  · exact ⟨_, _, rfl, append_extract_half v⟩
  · exact ⟨_, _, rfl, append_extract_half v⟩

/-- The two bytes of a joined field are the ones it was joined from. -/
theorem put16_of_field16 (o : FieldOrder) (a b : Byte) : put16 o (field16 o a b) = [a, b] := by
  have h : ∀ x y : Byte, (x ++ y).extractLsb' 8 8 = x ∧ (x ++ y).extractLsb' 0 8 = y := by
    intro x y
    constructor
    · exact BitVec.eq_of_getLsbD_eq fun i hi => by
        rw [BitVec.getLsbD_extractLsb', BitVec.getLsbD_append]
        simp [hi]
    · exact BitVec.eq_of_getLsbD_eq fun i hi => by
        rw [BitVec.getLsbD_extractLsb', BitVec.getLsbD_append]
        simp [hi]
  cases o
  · simp [put16, field16, be16, (h a b).1, (h a b).2]
  · simp [put16, field16, le16, (h b a).1, (h b a).2]

/-! ### Opcodes and codes -/

theorem Command.ofOpcode?_opcode (c : Command) : Command.ofOpcode? c.opcode = some c := by cases c <;> rfl

/-- An opcode that the map selects a command by is that command's (30_encoding.md R81). -/
theorem Command.opcode_of_ofOpcode? {op : Byte} {c : Command} (h : Command.ofOpcode? op = some c) : op = c.opcode := by
  unfold Command.ofOpcode? at h
  repeat' split at h
  all_goals first
    | (simp only [Option.some.injEq] at h; subst h; assumption)
    | simp at h

theorem Space.ofCode?_code (sp : Space) : Space.ofCode? sp.code = some sp := by cases sp <;> rfl

/-! ### Wire formats -/

@[simp] theorem frameBody_length (p : Params) (id : Byte) (type : Half) (payload : List Byte) :
    (frameBody p id type payload).length = 6 + payload.length := by
  simp only [frameBody, List.length_append, List.length_cons, List.length_nil, put16_length]

@[simp] theorem encodeFrame_length (p : Params) (id : Byte) (type : Half) (payload : List Byte) :
    (encodeFrame p id type payload).length = 7 + payload.length := by
  simp only [encodeFrame, List.length_append, List.length_cons, List.length_nil, frameBody_length]; omega

@[simp] theorem encodeBlock_length (blk : Byte) (payload : List Byte) :
    (encodeBlock blk payload).length = 5 + payload.length := by
  simp only [encodeBlock, List.length_append, List.length_cons, List.length_nil, be16_length]; omega

/-- The complement in numbers (30_encoding.md R88). -/
theorem complement_toNat (b : Byte) : (complement b).toNat = 255 - b.toNat := by
  have := b.isLt
  simp only [complement, BitVec.toNat_sub]
  have : BitVec.toNat (255 : Byte) = 255 := rfl
  omega

/-- The header bytes of a frame, named, with what they join to. -/
theorem frameBody_bytes (p : Params) (id : Byte) (type : Half) (payload : List Byte) :
    ∃ t0 t1 l0 l1 : Byte,
      frameBody p id type payload = [p.startMarker, id, t0, t1, l0, l1] ++ payload ∧
        field16 p.fieldOrder t0 t1 = type ∧ field16 p.fieldOrder l0 l1 = BitVec.ofNat 16 payload.length := by
  obtain ⟨t0, t1, ht, ht'⟩ := put16_field16 p.fieldOrder type
  obtain ⟨l0, l1, hl, hl'⟩ := put16_field16 p.fieldOrder (BitVec.ofNat 16 payload.length)
  exact ⟨t0, t1, l0, l1, by simp [frameBody, ht, hl], ht', hl'⟩

end Sys2Proof
end

