-- ==== Sys2Proof/Laws/Ops.lean ====
section
/-! SUPPORT. What the shared operations can do: one inversion or one closed form for each, so that a proof about an instruction
cites it and does not unfold the operation. -/

namespace Sys2Proof.Machine

/-! ### Sequencing -/

@[simp] theorem andThen_next (s : State) (f : State → Result) : andThen (.next s) f = f s := rfl
@[simp] theorem andThen_fault (e : Fault) (f : State → Result) : andThen (.fault e) f = .fault e := rfl
@[simp] theorem andThen_refused (e : Refusal) (f : State → Result) : andThen (.refused e) f = .refused e := rfl

theorem andThen_eq_next {r : Result} {f : State → Result} {t : State} (h : andThen r f = .next t) :
    ∃ s, r = .next s ∧ f s = .next t := by
  cases r with
  | next s => exact ⟨s, rfl, h⟩
  | fault e => cases h
  | refused e => cases h

theorem andThen_eq_fault {r : Result} {f : State → Result} {e : Fault} (h : andThen r f = .fault e) :
    r = .fault e ∨ ∃ s, r = .next s ∧ f s = .fault e := by
  cases r with
  | next s => exact .inr ⟨s, rfl, h⟩
  | fault e => exact .inl h
  | refused e => cases h

@[simp] theorem withBytes_ok (bs : List Byte) (f : List Byte → Result) : withBytes (.ok bs) f = f bs := rfl
@[simp] theorem withBytes_error (e : Fault) (f : List Byte → Result) : withBytes (.error e) f = .fault e := rfl

theorem withBytes_eq_next {r : Except Fault (List Byte)} {f : List Byte → Result} {t : State}
    (h : withBytes r f = .next t) : ∃ bs, r = .ok bs ∧ f bs = .next t := by
  cases r with
  | ok bs => exact ⟨bs, rfl, h⟩
  | error e => cases h

theorem withBytes_eq_fault {r : Except Fault (List Byte)} {f : List Byte → Result} {e : Fault}
    (h : withBytes r f = .fault e) : r = .error e ∨ ∃ bs, r = .ok bs ∧ f bs = .fault e := by
  cases r with
  | ok bs => exact .inr ⟨bs, rfl, h⟩
  | error e' => exact .inl (by simpa using h)

@[simp] theorem finish_eq_next {c : ResultCode} {s t : State} :
    finish c s = .next t ↔ { s with result := c } = t := by simp [finish]

@[simp] theorem finish_ne_fault (c : ResultCode) (s : State) (e : Fault) : finish c s ≠ .fault e := by simp [finish]

/-! ### The session -/

theorem active_iff (st : TeState) : st.active = true ↔ st = .awaitHandshake ∨ st = .sending := by
  cases st <;> simp [TeState.active]

theorem inactive_iff (st : TeState) : st.active = false ↔ st ≠ .awaitHandshake ∧ st ≠ .sending := by
  cases st <;> simp [TeState.active]

theorem terminal_iff (st : TeState) : st.terminal = true ↔ st = .complete ∨ st = .aborted ∨ st = .cancelled := by
  cases st <;> simp [TeState.terminal]

/-! ### Transmitting a block -/

theorem wireNumber_eq (k : Word) : wireNumber k = BitVec.ofNat 8 k.toNat := by
  simp [wireNumber]

/-- The wire form of a block from its payload is the block of 43_transfer_engine.md R184. -/
theorem encodeBlock_wireBlock (k : Word) (bs : List Byte) :
    encodeBlock (wireNumber k) (bs ++ List.replicate (128 - bs.length) 0x1A) = wireBlock k.toNat bs := by
  simp [encodeBlock, wireBlock, complement, be16, wireNumber_eq]

/-- The payload of a block whose image bytes are all written (43_transfer_engine.md R183). -/
theorem blockPayload_held {s : State} {k : Word} {bs : List Byte} (h : blockHeld s k.toNat bs) :
    blockPayload k s = .ok (bs ++ List.replicate (128 - bs.length) 0x1A) := by
  obtain ⟨hl, hb⟩ := h
  have := memRead_ok .image s.image (blockStart k.toNat) bs hb
  simp only [hl, blockBytesOf, blockStart] at this
  simp only [blockPayload, Config.blockPayload, this, Config.padByte, hl, blockBytesOf, blockStart]

/-- What an answer of `blockPayload` says about the image. -/
theorem blockPayload_inv {s : State} {k : Word} {pl : List Byte} (h : blockPayload k s = .ok pl) :
    ∃ bs, blockHeld s k.toNat bs ∧ pl = bs ++ List.replicate (128 - bs.length) 0x1A := by
  simp only [blockPayload, Config.blockPayload] at h
  split at h
  · rename_i bs hb
    obtain ⟨h1, h2⟩ := memRead_inv hb
    refine ⟨bs, ⟨h1, h2⟩, ?_⟩
    simp only [Except.ok.injEq, Config.padByte] at h
    rw [← h, h1]
  · simp at h

/-- `blockPayload` faults exactly at the first image byte of the block with no value. -/
theorem blockPayload_missing {s : State} {k : Word} {j : Nat}
    (h : firstMissing s.image (blockStart k.toNat) (blockBytesOf s.imgLen k.toNat) j) :
    blockPayload k s = .error (.uninitByte .image (blockStart k.toNat + j)) := by
  have := memRead_fault .image s.image _ _ _ h.1 h.2.1 h.2.2
  simp only [blockBytesOf, blockStart] at this ⊢
  simp only [blockPayload, Config.blockPayload, this]

theorem blockPayload_fault {s : State} {k : Word} {f : Fault} (h : blockPayload k s = .error f) :
    ∃ j, firstMissing s.image (blockStart k.toNat) (blockBytesOf s.imgLen k.toNat) j ∧
      f = .uninitByte .image (blockStart k.toNat + j) := by
  simp only [blockPayload, Config.blockPayload] at h
  split at h
  · simp at h
  · rename_i e he
    obtain ⟨j, hj, hf, hn, hm⟩ := memRead_error he
    simp only [Except.error.injEq] at h
    exact ⟨j, ⟨hj, hn, hm⟩, by rw [← h, hf]; rfl⟩

/-- A block whose image bytes are all written is transmitted whole. -/
theorem transmitBlock_held {s : State} {k : Word} {bs : List Byte} (h : blockHeld s k.toNat bs) :
    transmitBlock k s = .next (txEmit (wireBlock k.toNat bs) s) := by
  rw [transmitBlock, blockPayload_held h, withBytes_ok, encodeBlock_wireBlock]

/-- Everything a transmission of a block that gives a next state does. -/
theorem transmitBlock_next {s t : State} {k : Word} (h : transmitBlock k s = .next t) :
    ∃ bs, blockHeld s k.toNat bs ∧ t = txEmit (wireBlock k.toNat bs) s := by
  obtain ⟨pl, h1, h2⟩ := withBytes_eq_next h
  obtain ⟨bs, hb, rfl⟩ := blockPayload_inv h1
  refine ⟨bs, hb, ?_⟩
  rw [encodeBlock_wireBlock] at h2
  simpa using h2.symm

theorem transmitBlock_missing {s : State} {k : Word} {j : Nat}
    (h : firstMissing s.image (blockStart k.toNat) (blockBytesOf s.imgLen k.toNat) j) :
    transmitBlock k s = .fault (.uninitByte .image (blockStart k.toNat + j)) := by
  simp [transmitBlock, blockPayload_missing h]

theorem transmitBlock_fault {s : State} {k : Word} {f : Fault} (h : transmitBlock k s = .fault f) :
    ∃ j, firstMissing s.image (blockStart k.toNat) (blockBytesOf s.imgLen k.toNat) j ∧
      f = .uninitByte .image (blockStart k.toNat + j) := by
  rcases withBytes_eq_fault h with h | ⟨pl, -, h⟩
  · exact blockPayload_fault h
  · simp at h

theorem transmitBlock_ne_refused (s : State) (k : Word) (e : Refusal) : transmitBlock k s ≠ .refused e := by
  unfold transmitBlock withBytes; split <;> simp

theorem transmitEot_eq (s : State) : transmitEot s = .next (txEmit [0x04] s) := rfl

/-! ### Receiving bytes -/

theorem receiveByte_down (b : Byte) (s : State) (h : s.linkUp = false) : receiveByte b s = .refused (.notEnabled .rxByte) := by
  simp [receiveByte, h]

theorem receiveByte_fc (b : Byte) (s : State) (h : s.linkUp = true) (ho : s.owner = .fc) :
    receiveByte b s = .next (fcReceive b s) := by simp [receiveByte, h, ho]

theorem receiveByte_te (b : Byte) (s : State) (h : s.linkUp = true) (ho : s.owner = .te) :
    receiveByte b s = teReceive b s := by simp [receiveByte, h, ho]

/-- What a step that transmits `bs` is: one of the received bytes, on which exactly `bs` was transmitted. -/
theorem transmittedOn_next {bs cs : List Byte} {s t : State} (h : transmittedOn bs cs s = .next t) :
    ∃ b ∈ cs, receiveByte b s = .next t ∧ t.txlog = s.txlog ++ bs := by
  induction cs with
  | nil => cases h
  | cons b cs ih =>
    unfold transmittedOn at h
    have later : transmittedOn bs cs s = .next t → ∃ b' ∈ b :: cs, receiveByte b' s = .next t ∧ t.txlog = s.txlog ++ bs :=
      fun h => let ⟨b', hb, h'⟩ := ih h; ⟨b', .tail _ hb, h'⟩
    split at h
    · rename_i u hu
      split at h
      · rename_i hl
        cases h
        exact ⟨b, .head _, hu, hl⟩
      · exact later h
    all_goals exact later h

/-- It faults never: a received byte that would fault transmits nothing. -/
theorem transmittedOn_ne_fault (bs cs : List Byte) (s : State) (e : Fault) : transmittedOn bs cs s ≠ .fault e := by
  induction cs with
  | nil => simp [transmittedOn]
  | cons b cs ih =>
    unfold transmittedOn
    split
    · split
      · simp
      · exact ih
    all_goals exact ih

/-- The first received byte transmits exactly `bs`. -/
theorem transmittedOn_head {bs cs : List Byte} {b : Byte} {s t : State} (h : receiveByte b s = .next t)
    (hl : t.txlog = s.txlog ++ bs) : transmittedOn bs (b :: cs) s = .next t := by
  simp [transmittedOn, h, hl]

/-- The first received byte does not transmit `bs`. -/
theorem transmittedOn_skip {bs cs : List Byte} {b : Byte} {s : State}
    (h : ∀ t, receiveByte b s = .next t → t.txlog ≠ s.txlog ++ bs) :
    transmittedOn bs (b :: cs) s = transmittedOn bs cs s := by
  rw [transmittedOn]
  split
  · rename_i t ht
    rw [if_neg (h t ht)]
  all_goals rfl

/-- No received byte transmits `bs`. -/
theorem transmittedOn_none {bs cs : List Byte} {s : State}
    (h : ∀ b ∈ cs, ∀ t, receiveByte b s = .next t → t.txlog ≠ s.txlog ++ bs) :
    transmittedOn bs cs s = .refused .mayNotTransmit := by
  induction cs with
  | nil => rfl
  | cons b cs ih => rw [transmittedOn_skip (h b (.head _)), ih fun c hc => h c (.tail _ hc)]

end Sys2Proof.Machine
end

