-- ==== Sys2Proof/Laws/Crc.lean ====
section
/-! SUPPORT. The CRC register step is injective, and what BLOCK_VERIFY makes of a block laid out byte by byte. -/

namespace Sys2Proof

/-! ### The CRC register (42_crc16_verifier.md R160) -/

/-- No two register values shift to the same one: the polynomial has its lowest bit set. -/
theorem crcShift_injective {c d : Half} (h : crcShift c = crcShift d) : c = d := by
  have top : c.msb = d.msb := by
    have hb := congrArg (fun v : Half => v.getLsbD 0) h
    cases h1 : c.msb <;> cases h2 : d.msb <;> simp [crcShift, h1, h2] at hb ⊢
  have low : c <<< 1 = d <<< 1 := by
    simp only [crcShift, top] at h
    split at h
    · have := congrArg (· ^^^ (0x1021#16)) h
      simpa [BitVec.xor_assoc] using this
    · exact h
  apply BitVec.eq_of_getLsbD_eq
  intro i hi
  by_cases hi15 : i = 15
  · subst hi15
    simpa only [BitVec.msb_eq_getLsbD_last] using top
  · have := congrArg (fun v : Half => v.getLsbD (i + 1)) low
    simp only [BitVec.getLsbD_shiftLeft, show i + 1 < 16 by omega] at this
    simpa using this

/-- Two register values that give the same one after their bytes agree once the bytes have entered. -/
theorem crcByte_eq_iff (c d : Half) (a b : Byte) :
    crcByte c a = crcByte d b ↔ c ^^^ (a.setWidth 16 <<< 8) = d ^^^ (b.setWidth 16 <<< 8) := by
  constructor
  · intro h
    unfold crcByte at h
    iterate 8 replace h := crcShift_injective h
    exact h
  · intro h
    simp only [crcByte, h]

/-- The same bytes after two register values give the same one only if the values agree. -/
theorem foldl_crcByte_injective (xs : List Byte) {c d : Half} (h : xs.foldl crcByte c = xs.foldl crcByte d) : c = d := by
  induction xs generalizing c d with
  | nil => exact h
  | cons x xs ih =>
    have := congrArg (· ^^^ (x.setWidth 16 <<< 8)) ((crcByte_eq_iff _ _ _ _).1 (ih h))
    simpa [BitVec.xor_assoc] using this

end Sys2Proof

namespace Sys2Proof.Machine

/-! ### BLOCK_VERIFY (42_crc16_verifier.md R163) -/

/-- The verdict on a block laid out byte by byte. -/
theorem verifyBytes_block (soh blk nblk : Byte) (payload tail : List Byte) (h : payload.length = 128) :
    verifyBytes ([soh, blk, nblk] ++ payload ++ tail) =
      { sohOk := decide (soh = 0x01)
        compOk := decide (nblk = complement blk)
        crcOk := decide (tail = be16 (crc16 payload))
        valid := decide (soh = 0x01) && decide (nblk = complement blk) && decide (tail = be16 (crc16 payload))
        crcCalc := crc16 payload } := by
  have take : (payload ++ tail).take Config.blockPayload = payload := by
    rw [show Config.blockPayload = payload.length from h.symm, List.take_left]
  have drop : (payload ++ tail).drop Config.blockPayload = tail := by
    rw [show Config.blockPayload = payload.length from h.symm, List.drop_left]
  simp only [List.cons_append, List.nil_append, verifyBytes, take, drop]

end Sys2Proof.Machine
end

