-- ==== Sys2Proof/Laws/Session.lean ====
section
/-! SUPPORT. Everything the Transfer Engine's operations can do when they give a next state: one inversion for each. -/

namespace Sys2Proof.Machine

/-! ### One session operation -/

/-- The answer to 'C' in AWAIT_HANDSHAKE: an empty image goes to its end of file, any other to its first block
(43_transfer_engine.md R186). -/
theorem teHandshake_next {s t : State} (h : teHandshake s = .next t) :
    (s.totalBlocks = 0 ∧
        t = txEmit [0x04] { s with retriesLeft := s.retryLimit, tePhase := .eot, teState := .sending }) ∨
      (s.totalBlocks ≠ 0 ∧
        ∃ bs, blockHeld s 1 bs ∧
          t =
            txEmit (wireBlock 1 bs)
              { s with retriesLeft := s.retryLimit, curIndex := 1, tePhase := .data, teState := .sending }) := by
  unfold teHandshake at h
  split at h
  · rename_i h0
    exact .inl ⟨h0, by simpa [transmitEot_eq] using h.symm⟩
  · rename_i h0
    obtain ⟨bs, hb, rfl⟩ := transmitBlock_next h
    exact .inr ⟨h0, bs, hb, rfl⟩

/-- The answer to ACK in the DATA phase: the next block, or the end of file (43_transfer_engine.md R187). -/
theorem teAckData_next {s t : State} (h : teAckData s = .next t) :
    (s.curIndex < s.totalBlocks ∧
        ∃ bs, blockHeld s (s.curIndex + 1).toNat bs ∧
          t =
            txEmit (wireBlock (s.curIndex + 1).toNat bs)
              { s with
                progress := s.curIndex
                irq := { s.irq with progress := s.irq.progress || s.progressEn }
                retriesLeft := s.retryLimit
                curIndex := s.curIndex + 1 }) ∨
      (¬ s.curIndex < s.totalBlocks ∧
        t =
          txEmit [0x04]
            { s with
              progress := s.curIndex
              irq := { s.irq with progress := s.irq.progress || s.progressEn }
              retriesLeft := s.retryLimit
              tePhase := .eot }) := by
  unfold teAckData at h
  split at h
  · rename_i h0
    obtain ⟨bs, hb, rfl⟩ := transmitBlock_next h
    exact .inl ⟨h0, bs, hb, rfl⟩
  · rename_i h0
    exact .inr ⟨h0, by simpa [transmitEot_eq] using h.symm⟩

/-- A failed attempt: the end of the session at the limit, else what was sent is sent again (43_transfer_engine.md R191). -/
theorem teFailedAttempt_next {s t : State} (h : teFailedAttempt s = .next t) :
    (s.retriesLeft - 1 = 0 ∧
        t =
          endWithError .blockRetryExhausted (wireNumber s.curIndex) s.retryLimit .aborted
            { s with retriesLeft := s.retriesLeft - 1 }) ∨
      (s.retriesLeft - 1 ≠ 0 ∧ s.tePhase = .data ∧
        ∃ bs, blockHeld s s.curIndex.toNat bs ∧
          t = txEmit (wireBlock s.curIndex.toNat bs) { s with retriesLeft := s.retriesLeft - 1 }) ∨
      (s.retriesLeft - 1 ≠ 0 ∧ s.tePhase = .eot ∧ t = txEmit [0x04] { s with retriesLeft := s.retriesLeft - 1 }) := by
  simp only [teFailedAttempt] at h
  split at h
  · rename_i h0
    exact .inl ⟨h0, by simpa using h.symm⟩
  · rename_i h0
    split at h
    · rename_i hp
      obtain ⟨bs, hb, rfl⟩ := transmitBlock_next h
      exact .inr (.inl ⟨h0, hp, bs, hb, rfl⟩)
    · rename_i hp
      exact .inr (.inr ⟨h0, hp, by simpa [transmitEot_eq] using h.symm⟩)

/-! ### Events -/

/-- Everything a byte routed to TE can do (43_transfer_engine.md R186 to R189, R193). -/
theorem teReceive_next {b : Byte} {s t : State} (h : teReceive b s = .next t) :
    t = s ∨ (s.teState = .awaitHandshake ∧ b = 0x43 ∧ teHandshake s = .next t) ∨
      (s.teState = .sending ∧ s.tePhase = .data ∧ b = 0x06 ∧ teAckData s = .next t) ∨
      (s.teState = .sending ∧ s.tePhase = .eot ∧ b = 0x06 ∧ t = enterTerminal .complete s) ∨
      (s.teState = .sending ∧ b ≠ 0x06 ∧ teFailedAttempt s = .next t) := by
  unfold teReceive at h
  split at h
  · rename_i hs
    split at h
    · exact .inr (.inl ⟨hs, by assumption, h⟩)
    · exact .inl (by simpa using h.symm)
  · rename_i hs
    split at h
    · rename_i hb
      split at h
      · rename_i hp
        exact .inr (.inr (.inl ⟨hs, hp, hb, h⟩))
      · rename_i hp
        exact .inr (.inr (.inr (.inl ⟨hs, hp, hb, by simpa [teAckEot] using h.symm⟩)))
    · rename_i hb
      exact .inr (.inr (.inr (.inr ⟨hs, hb, h⟩)))
  all_goals exact .inl (by simpa using h.symm)

/-- Everything a timeout can do (43_transfer_engine.md R190, R192, R196). -/
theorem execTimeout_next {s t : State} (h : execTimeout s = .next t) :
    (s.teState = .awaitHandshake ∧ t = endWithError .handshakeTimeout 0 0 .aborted s) ∨
      (s.teState = .sending ∧ teFailedAttempt s = .next t) := by
  unfold execTimeout at h
  split at h
  · exact .inl ⟨by assumption, by simpa using h.symm⟩
  · exact .inr ⟨by assumption, h⟩
  all_goals cases h

/-- Everything a received byte can do: FC's decoder or TE (41_control.md R144). -/
theorem receiveByte_next {b : Byte} {s t : State} (h : receiveByte b s = .next t) :
    s.linkUp = true ∧ ((s.owner = .fc ∧ t = fcReceive b s) ∨ (s.owner = .te ∧ teReceive b s = .next t)) := by
  unfold receiveByte at h
  split at h
  · cases h
  · rename_i hl
    split at h
    · exact ⟨by simpa using hl, .inl ⟨by assumption, by simpa using h.symm⟩⟩
    · exact ⟨by simpa using hl, .inr ⟨by assumption, h⟩⟩

/-! ### Faults -/

theorem teFailedAttempt_fault {s : State} {f : Fault} (h : teFailedAttempt s = .fault f) :
    ∃ a, f = .uninitByte .image a ∧ Memory.read s.image a = none := by
  simp only [teFailedAttempt] at h
  split at h
  · cases h
  · split at h
    · obtain ⟨j, ⟨-, hn, -⟩, rfl⟩ := transmitBlock_fault h
      exact ⟨_, rfl, hn⟩
    · cases h

/-- A byte routed to TE faults only on an image byte with no value (43_transfer_engine.md R183). -/
theorem teReceive_fault {b : Byte} {s : State} {f : Fault} (h : teReceive b s = .fault f) :
    ∃ a, f = .uninitByte .image a ∧ Memory.read s.image a = none := by
  unfold teReceive at h
  split at h
  · split at h
    · unfold teHandshake at h
      split at h
      · cases h
      · obtain ⟨j, ⟨-, hn, -⟩, rfl⟩ := transmitBlock_fault h
        exact ⟨_, rfl, hn⟩
    · cases h
  · split at h
    · split at h
      · unfold teAckData at h
        split at h
        · obtain ⟨j, ⟨-, hn, -⟩, rfl⟩ := transmitBlock_fault h
          exact ⟨_, rfl, hn⟩
        · cases h
      · cases h
    · exact teFailedAttempt_fault h
  all_goals cases h

theorem receiveByte_fault {b : Byte} {s : State} {f : Fault} (h : receiveByte b s = .fault f) :
    ∃ a, f = .uninitByte .image a ∧ Memory.read s.image a = none := by
  unfold receiveByte at h
  split at h
  · cases h
  · split at h
    · cases h
    · exact teReceive_fault h

end Sys2Proof.Machine
end

