-- ==== Sys2Proof/Laws/Pending.lean ====
section
/-! SUPPORT. No step of an agent reads or writes the steps still pending: with other steps pending it has the same outcome. -/

namespace Sys2Proof.Machine

/-- The state with these packets pending. -/
abbrev State.withPending (s : State) (q : List Packet) : State := { s with pending := q }

/-- The outcome with these packets pending. -/
def Result.withPending (r : Result) (q : List Packet) : Result := andThen r fun t => .next (t.withPending q)

@[simp] theorem Result.withPending_next (s : State) (q : List Packet) :
    Result.withPending (.next s) q = .next (s.withPending q) := rfl
@[simp] theorem Result.withPending_fault (e : Fault) (q : List Packet) : Result.withPending (.fault e) q = .fault e := rfl
@[simp] theorem Result.withPending_refused (e : Refusal) (q : List Packet) :
    Result.withPending (.refused e) q = .refused e := rfl

/-! ### What a step is made of -/

theorem finish_withPending (c : ResultCode) (s : State) (q : List Packet) :
    finish c (s.withPending q) = Result.withPending (finish c s) q := rfl

theorem txEmit_withPending (bs : List Byte) (s : State) (q : List Packet) :
    txEmit bs (s.withPending q) = (txEmit bs s).withPending q := rfl

theorem withBytes_withPending {r : Except Fault (List Byte)} {f g : List Byte → Result} {q : List Packet}
    (h : ∀ bs, f bs = Result.withPending (g bs) q) : withBytes r f = Result.withPending (withBytes r g) q := by
  cases r with
  | ok bs => exact h bs
  | error e => rfl

theorem transmitBlock_withPending (k : Word) (s : State) (q : List Packet) :
    transmitBlock k (s.withPending q) = Result.withPending (transmitBlock k s) q :=
  withBytes_withPending (r := blockPayload k s) fun _ => rfl

theorem transmitEot_withPending (s : State) (q : List Packet) :
    transmitEot (s.withPending q) = Result.withPending (transmitEot s) q := rfl

theorem deliver_withPending (fs : List Frame) (s : State) (q : List Packet) :
    fs.foldl deliver (s.withPending q) = (fs.foldl deliver s).withPending q := by
  induction fs generalizing s with
  | nil => rfl
  | cons f fs ih =>
    have one : deliver (s.withPending q) f = (deliver s f).withPending q := by
      by_cases h : s.rxq.length < s.params.rxqDepth.toNat <;> simp [deliver, h]
    rw [List.foldl_cons, List.foldl_cons, one, ih]

theorem fcReceive_withPending (b : Byte) (s : State) (q : List Packet) :
    fcReceive b (s.withPending q) = (fcReceive b s).withPending q :=
  deliver_withPending _ (countErrors _ { s with rxwin := _ }) q

/-! ### The Transfer Engine -/

theorem teFailedAttempt_withPending (s : State) (q : List Packet) :
    teFailedAttempt (s.withPending q) = Result.withPending (teFailedAttempt s) q := by
  simp only [teFailedAttempt]
  by_cases h : s.retriesLeft - 1 = 0
  · rw [if_pos h, if_pos h]; rfl
  · rw [if_neg h, if_neg h]
    cases s.tePhase with
    | data =>
      simp only
      exact transmitBlock_withPending s.curIndex { s with retriesLeft := s.retriesLeft - 1, tePhase := .data } q
    | eot => rfl

theorem teHandshake_withPending (s : State) (q : List Packet) :
    teHandshake (s.withPending q) = Result.withPending (teHandshake s) q := by
  simp only [teHandshake]
  by_cases h : s.totalBlocks = 0
  · rw [if_pos h, if_pos h]; rfl
  · rw [if_neg h, if_neg h]
    exact
      transmitBlock_withPending 1
        { s with retriesLeft := s.retryLimit, curIndex := 1, tePhase := .data, teState := .sending } q

theorem teAckData_withPending (s : State) (q : List Packet) :
    teAckData (s.withPending q) = Result.withPending (teAckData s) q := by
  simp only [teAckData]
  by_cases h : s.curIndex < s.totalBlocks
  · rw [if_pos h, if_pos h]
    exact
      transmitBlock_withPending (s.curIndex + 1)
        { s with
          progress := s.curIndex
          irq := { s.irq with progress := s.irq.progress || s.progressEn }
          retriesLeft := s.retryLimit
          curIndex := s.curIndex + 1 } q
  · rw [if_neg h, if_neg h]; rfl

theorem teReceive_withPending (b : Byte) (s : State) (q : List Packet) :
    teReceive b (s.withPending q) = Result.withPending (teReceive b s) q := by
  cases hs : s.teState with
  | awaitHandshake =>
    simp only [teReceive, hs]
    by_cases hb : b = 0x43
    · rw [if_pos hb, if_pos hb]; exact teHandshake_withPending s q
    · rw [if_neg hb, if_neg hb]; rfl
  | sending =>
    simp only [teReceive, hs]
    by_cases hb : b = 0x06
    · rw [if_pos hb, if_pos hb]
      cases s.tePhase with
      | data => exact teAckData_withPending s q
      | eot => rfl
    · rw [if_neg hb, if_neg hb]; exact teFailedAttempt_withPending s q
  | idle | init | complete | aborted | cancelled => simp [teReceive, hs]

/-! ### The steps that FRAME expands to -/

/-- RX_BYTE does not depend on what is pending, nor change it. -/
theorem receiveByte_withPending (b : Byte) (s : State) (q : List Packet) :
    receiveByte b (s.withPending q) = Result.withPending (receiveByte b s) q := by
  cases hl : s.linkUp with
  | false => simp [receiveByte, hl]
  | true =>
    cases ho : s.owner with
    | fc => simpa [receiveByte, hl, ho] using fcReceive_withPending b s q
    | te => simpa [receiveByte, hl, ho] using teReceive_withPending b s q

/-- BUF_WR of TXBUF does not depend on what is pending, nor change it. -/
theorem execBufWr_txbuf_withPending (a : Word) (b : Byte) (s : State) (q : List Packet) :
    execBufWr .txbuf a b (s.withPending q) = Result.withPending (execBufWr .txbuf a b s) q := by
  by_cases h : 65535 ≤ a.toNat
  · simp [execBufWr, spaceSize, h]
  · simp [execBufWr, spaceSize, writeIgnored, h, State.withBuffer, State.buffer]

end Sys2Proof.Machine
end

