-- ==== Sys2Proof/Laws/PerInstr.lean ====
section
/-! SUPPORT. One statement per instruction as syntax: its encoding starts with the byte that its row of
spec/opcode_table.json matches on, and lies in that row's space of encodings. -/

namespace Sys2Proof.Laws.RowByte

/-- Bits 7..0 of the "match" column of an instruction's row, as the table has them. The row FRAME gives the default start
marker. -/
def matchByte : Instr → Byte
  | .nop => 0x00
  | .fcSend => 0x01
  | .fcRxPop => 0x02
  | .fcRxRestart => 0x03
  | .portGrantTe => 0x10
  | .portReturnFc => 0x11
  | .teStart => 0x20
  | .teCancel => 0x21
  | .blockVerify => 0x30
  | .rxByte _ => 0x80
  | .timeout => 0x81
  | .portFault => 0x82
  | .portReopen => 0x83
  | .reset => 0x84
  | .regWr _ _ => 0x90
  | .regRd _ => 0x91
  | .bufWr _ _ _ => 0x92
  | .bufRd _ _ => 0x93
  | .frame _ _ _ _ => 0x01
  | .block _ _ => 0x01
  | .eot => 0x04
  | .canCan => 0x18
  | .ack => 0x06
  | .nak => 0x15
  | .handshakeC => 0x43

/-- The "format" column: a command word, a step tag, or a wire format and its direction. -/
def format : Instr → Lane
  | .nop | .fcSend | .fcRxPop | .fcRxRestart | .portGrantTe | .portReturnFc | .teStart | .teCancel | .blockVerify => .command
  | .rxByte _ | .timeout | .portFault | .portReopen | .reset | .regWr _ _ | .regRd _ | .bufWr _ _ _ | .bufRd _ _ => .step
  | .frame .rx _ _ _ => .frameRx
  | .frame .tx _ _ _ => .frameTx
  | .block _ _ | .eot | .canCan => .blockTx
  | .ack | .nak | .handshakeC => .blockRx

/-- The encoding starts as the row says (30_encoding.md R81, R84, R86, R88 to R91). -/
def Statement (i : Instr) : Prop :=
  (encode Params.default i).lane = format i ∧ (encode Params.default i).bytes.head? = some (matchByte i)

theorem nop : Statement .nop := ⟨rfl, rfl⟩
theorem fcSend : Statement .fcSend := ⟨rfl, rfl⟩
theorem fcRxPop : Statement .fcRxPop := ⟨rfl, rfl⟩
theorem fcRxRestart : Statement .fcRxRestart := ⟨rfl, rfl⟩
theorem portGrantTe : Statement .portGrantTe := ⟨rfl, rfl⟩
theorem portReturnFc : Statement .portReturnFc := ⟨rfl, rfl⟩
theorem teStart : Statement .teStart := ⟨rfl, rfl⟩
theorem teCancel : Statement .teCancel := ⟨rfl, rfl⟩
theorem blockVerify : Statement .blockVerify := ⟨rfl, rfl⟩
theorem rxByte (b : Byte) : Statement (.rxByte b) := ⟨rfl, rfl⟩
theorem timeout : Statement .timeout := ⟨rfl, rfl⟩
theorem portFault : Statement .portFault := ⟨rfl, rfl⟩
theorem portReopen : Statement .portReopen := ⟨rfl, rfl⟩
theorem reset : Statement .reset := ⟨rfl, rfl⟩
theorem regWr (off : Byte) (v : Word) : Statement (.regWr off v) := ⟨rfl, rfl⟩
theorem regRd (off : Byte) : Statement (.regRd off) := ⟨rfl, rfl⟩
theorem bufWr (space : Space) (a : Word) (b : Byte) : Statement (.bufWr space a b) := ⟨rfl, rfl⟩
theorem bufRd (space : Space) (a : Word) : Statement (.bufRd space a) := ⟨rfl, rfl⟩
theorem frame (dir : Direction) (id : Byte) (type : Half) (payload : List Byte) : Statement (.frame dir id type payload) := by
  cases dir <;> exact ⟨rfl, rfl⟩
theorem block (blk : Byte) (payload : List Byte) : Statement (.block blk payload) := ⟨rfl, rfl⟩
theorem eot : Statement .eot := ⟨rfl, rfl⟩
theorem canCan : Statement .canCan := ⟨rfl, rfl⟩
theorem ack : Statement .ack := ⟨rfl, rfl⟩
theorem nak : Statement .nak := ⟨rfl, rfl⟩
theorem handshakeC : Statement .handshakeC := ⟨rfl, rfl⟩

end Sys2Proof.Laws.RowByte
end

