-- ==== Sys2Proof/Laws/Registers.lean ====
section
/-! SUPPORT. What the register views read as, field by field, and what register writes leave alone. -/

namespace Sys2Proof.Machine

/-! ### Fields of a register value -/

theorem fieldAt_getLsbD {n : Nat} (lo : Nat) (v : BitVec n) (i : Nat) (hi : i < 32) :
    (fieldAt lo v).getLsbD i = (decide (lo ≤ i) && v.getLsbD (i - lo)) := by
  simp only [fieldAt, BitVec.getLsbD_shiftLeft, BitVec.getLsbD_setWidth, hi, decide_true, Bool.true_and]
  by_cases h : i < lo
  · simp [h, Nat.not_le.2 h]
  · simp [h, Nat.not_lt.1 h, show i - lo < 32 by omega]

theorem flagAt_getLsbD (lo : Nat) (b : Bool) (i : Nat) (hi : i < 32) :
    (flagAt lo b).getLsbD i = (decide (i = lo) && b) := by
  rw [flagAt, fieldAt_getLsbD _ _ _ hi, BitVec.getLsbD_ofBool]
  by_cases h : i = lo
  · simp [h]
  · simp only [h, decide_false, Bool.false_and]
    by_cases h' : lo ≤ i
    · simp [show ¬ i - lo = 0 by omega]
    · simp [h']

/-- A field is 0 when its bits are. -/
theorem extractLsb'_eq_zero {v : Word} {lo n : Nat} (h : ∀ i, lo ≤ i → i < lo + n → v.getLsbD i = false) :
    v.extractLsb' lo n = 0 := by
  apply BitVec.eq_of_getLsbD_eq
  intro i hi
  simp [hi, h (lo + i) (by omega) (by omega)]

/-- A field is what its bits are. -/
theorem extractLsb'_eq {v : Word} {lo n : Nat} {w : BitVec n} (h : ∀ i, i < n → v.getLsbD (lo + i) = w.getLsbD i) :
    v.extractLsb' lo n = w := by
  apply BitVec.eq_of_getLsbD_eq
  intro i hi
  simp [hi, h i hi]

/-! ### The pending bits (10_state.md R49) -/

theorem pendingBits_bits (s : State) :
    (pendingBits s).getLsbD 0 = !s.rxq.isEmpty ∧ (pendingBits s).getLsbD 1 = s.irq.framing ∧
      (pendingBits s).getLsbD 2 = s.irq.rxqDrop ∧ (pendingBits s).getLsbD 3 = s.irq.progress ∧
      (pendingBits s).getLsbD 4 = s.irq.teDone ∧ (pendingBits s).getLsbD 5 = s.irq.portErr := by
  have key : ∀ a b c d e f : Bool,
      let v : BitVec 6 := BitVec.ofBool f ++ BitVec.ofBool e ++ BitVec.ofBool d ++ BitVec.ofBool c ++ BitVec.ofBool b ++
        BitVec.ofBool a
      v.getLsbD 0 = a ∧ v.getLsbD 1 = b ∧ v.getLsbD 2 = c ∧ v.getLsbD 3 = d ∧ v.getLsbD 4 = e ∧ v.getLsbD 5 = f := by
    decide
  exact key _ _ _ _ _ _

/-- The register IRQ_PENDING shows the pending bits and nothing above them. -/
theorem irqPending_getLsbD (s : State) (k : Nat) (hk : k < 32) :
    (readReg s .irqPending).getLsbD k = (pendingBits s).getLsbD k := by
  simp only [readReg, fieldAt_getLsbD 0 _ k hk, Nat.zero_le, decide_true, Bool.true_and, Nat.sub_zero]

/-- The IRQ line in bits (10_state.md R51). -/
theorem irqLine_iff (s : State) :
    irqLine s = true ↔ ∃ k, k < 6 ∧ (pendingBits s).getLsbD k = true ∧ s.irqEnable.getLsbD k = true := by
  simp only [irqLine, bne_iff_ne, ne_eq]
  constructor
  · intro h
    apply Classical.byContradiction
    intro hc
    apply h
    apply BitVec.eq_of_getLsbD_eq
    intro i hi
    simp only [BitVec.getLsbD_and]
    cases h1 : (pendingBits s).getLsbD i <;> cases h2 : s.irqEnable.getLsbD i
    · simp
    · simp
    · simp
    · exact absurd ⟨i, hi, h1, h2⟩ hc
  · rintro ⟨k, hk, h1, h2⟩ h
    have := congrArg (fun v : BitVec 6 => v.getLsbD k) h
    simp [h1, h2] at this

/-! ### Register offsets -/

theorem regAt?_none (off : Byte) (h : off.toNat % 4 ≠ 0 ∨ 128 ≤ off.toNat) : regAt? off = none := by
  revert off; decide

theorem regAt?_some (off : Byte) (h : regOffsetOk off = true) : regAt? off ≠ none := by
  revert off; decide

/-! ### What a register write can change -/

/-- A register write that is no command leaves everything but the writable fields of the map. -/
theorem writeReg_keeps (r : HostReg) (v : Word) (s : State) :
    (writeReg r v s).params = s.params ∧ (writeReg r v s).pending = s.pending ∧ (writeReg r v s).result = s.result ∧
      (writeReg r v s).owner = s.owner ∧ (writeReg r v s).linkUp = s.linkUp ∧ (writeReg r v s).teState = s.teState ∧
      (writeReg r v s).tePhase = s.tePhase ∧ (writeReg r v s).totalBlocks = s.totalBlocks ∧
      (writeReg r v s).curIndex = s.curIndex ∧ (writeReg r v s).progress = s.progress ∧
      (writeReg r v s).retriesLeft = s.retriesLeft ∧ (writeReg r v s).teErr = s.teErr ∧
      (writeReg r v s).verify = s.verify ∧ (writeReg r v s).rxwin = s.rxwin ∧ (writeReg r v s).rxq = s.rxq ∧
      (writeReg r v s).txlog = s.txlog ∧ (writeReg r v s).txbuf = s.txbuf ∧ (writeReg r v s).rxbuf = s.rxbuf ∧
      (writeReg r v s).image = s.image ∧ (writeReg r v s).vbuf = s.vbuf := by
  unfold writeReg
  split
  · simp
  · cases r <;> simp [storeReg]

/-- During a session a register write leaves the TE configuration (41_control.md R146). -/
theorem writeReg_active (r : HostReg) (v : Word) (s : State) (h : s.teState.active = true) :
    (writeReg r v s).imgLen = s.imgLen ∧ (writeReg r v s).retryLimit = s.retryLimit ∧
      (writeReg r v s).hsTimeoutMs = s.hsTimeoutMs ∧ (writeReg r v s).blkTimeoutMs = s.blkTimeoutMs ∧
      (writeReg r v s).progressEn = s.progressEn ∧ (writeReg r v s).hwFlow = s.hwFlow ∧
      (writeReg r v s).swFlow = s.swFlow := by
  cases r <;> simp [writeReg, HostReg.locked, h, storeReg]

/-- RETRY_LIMIT is never written 0 (10_state.md R40). -/
theorem writeReg_retryLimit (r : HostReg) (v : Word) (s : State) (h : s.retryLimit ≠ 0) :
    (writeReg r v s).retryLimit ≠ 0 := by
  unfold writeReg
  split
  · exact h
  · cases r <;> first
      | exact h
      | (simp only [storeReg, retryLimitOf]; split
         · decide
         · assumption)

/-- What a register write can do: store a register, run a command, or find an illegal opcode (41_control.md R141, R145). -/
theorem execRegWr_next {off : Byte} {v : Word} {s t : State} (h : execRegWr off v s = .next t) :
    (∃ r, t = writeReg r v s) ∨
      (off = 0 ∧ ∃ c : Command, v.extractLsb' 0 8 = c.opcode ∧ exec c.toInstr s = .next t) ∨
      (off = 0 ∧ t = { s with result := .illegalOpcode }) := by
  unfold execRegWr at h
  split at h
  · cases h
  · rename_i hr
    have ho : off = 0 := by revert hr; revert off; decide
    subst ho
    rw [setWidth_eq_low] at h
    unfold runOpcode at h
    right
    split at h
    case h_10 => exact .inr ⟨rfl, (finish_eq_next.1 h).symm⟩
    all_goals
      rename_i hc
      exact .inl ⟨rfl, _, Command.opcode_of_ofOpcode? hc, h⟩
  · simp only [Host.Outcome.next.injEq] at h
    exact .inl ⟨_, h.symm⟩

end Sys2Proof.Machine
end

