-- ==== Sys2Proof/Laws/Scan.lean ====
section
/-! SUPPORT. The decoder's scan, one equation per way it can go, and the delivery of several frames in closed form. -/

namespace Sys2Proof.Machine

/-! ### The scan, byte by byte -/

/-- Consuming bytes is dropping them. -/
theorem scanFrom_eq_drop (p : Params) (win : List Byte) (n : Nat) : scanFrom p win n = scan p (win.drop n) := by
  induction win generalizing n with
  | nil => simp [scan, scanFrom]
  | cons b rest ih =>
    cases n with
    | zero => rfl
    | succ n => simpa [scanFrom] using ih n

@[simp] theorem scan_nil (p : Params) : scan p [] = { window := [], frames := [], errs := 0 } := rfl

/-- A byte that is no marker is discarded (40_frame_codec.md R119). -/
theorem scan_garbage (p : Params) (b : Byte) (rest : List Byte) (h : b ≠ p.startMarker) :
    scan p (b :: rest) = scan p rest := by
  simp [scan, scanFrom, h]

/-- An incomplete candidate is held (40_frame_codec.md R114). -/
theorem scan_incomplete (p : Params) (rest : List Byte) (h : candidate p (p.startMarker :: rest) = .incomplete) :
    scan p (p.startMarker :: rest) = { window := p.startMarker :: rest, frames := [], errs := 0 } := by
  simp [scan, scanFrom, h]

/-- A rejected candidate loses its marker and is counted (40_frame_codec.md R117, R118). -/
theorem scan_rejected (p : Params) (rest : List Byte)
    (h : candidate p (p.startMarker :: rest) = .lengthMismatch ∨
      candidate p (p.startMarker :: rest) = .checksumMismatch) :
    scan p (p.startMarker :: rest) = { scan p rest with errs := (scan p rest).errs + 1 } := by
  rcases h with h | h <;> simp [scan, scanFrom, h]

/-- An accepted candidate is consumed whole (40_frame_codec.md R116). -/
theorem scan_accepted (p : Params) (rest : List Byte) (f : Frame)
    (h : candidate p (p.startMarker :: rest) = .accepted f) :
    scan p (p.startMarker :: rest) =
      { scan p (rest.drop (6 + f.payload.length)) with
        frames := f :: (scan p (rest.drop (6 + f.payload.length))).frames } := by
  rw [← scanFrom_eq_drop]
  simp [scan, scanFrom, h]

/-! ### The test of a candidate -/

theorem candidate_short (p : Params) (win : List Byte) (h : win.length < 6) : candidate p win = .incomplete := by
  unfold candidate
  split
  · simp only [List.length_cons] at h; omega
  · rfl

/-- A candidate with a whole header: its length, then its checksum (40_frame_codec.md R114). -/
theorem candidate_header (p : Params) (m id t0 t1 l0 l1 : Byte) (tail : List Byte) :
    candidate p (m :: id :: t0 :: t1 :: l0 :: l1 :: tail) =
      if p.maxRxPayload < field16 p.fieldOrder l0 l1 then .lengthMismatch
      else
        match tail.drop (field16 p.fieldOrder l0 l1).toNat with
        | [] => .incomplete
        | c :: _ =>
          if checksumOf p.checksum ([m, id, t0, t1, l0, l1] ++ tail.take (field16 p.fieldOrder l0 l1).toNat) = c then
            .accepted
              { id := id, type := field16 p.fieldOrder t0 t1, payload := tail.take (field16 p.fieldOrder l0 l1).toNat
                checksum := c }
          else .checksumMismatch := rfl

/-- Everything the test of a candidate can say. -/
theorem candidate_cases (p : Params) (win : List Byte) :
    (candidate p win = .incomplete ∧
        (win.length < 6 ∨
          (win.length < 7 + (field16 p.fieldOrder (win.getD 4 0) (win.getD 5 0)).toNat ∧
            (field16 p.fieldOrder (win.getD 4 0) (win.getD 5 0)).toNat ≤ p.maxRxPayload.toNat))) ∨
      candidate p win = .lengthMismatch ∨ candidate p win = .checksumMismatch ∨
      ∃ f, candidate p win = .accepted f ∧ 7 + f.payload.length ≤ win.length ∧
        f.payload.length ≤ p.maxRxPayload.toNat := by
  rcases Nat.lt_or_ge win.length 6 with h | h
  · exact .inl ⟨candidate_short p win h, .inl h⟩
  · match win, h with
    | m :: id :: t0 :: t1 :: l0 :: l1 :: tail, _ =>
      rw [candidate_header]
      split
      · exact .inr (.inl rfl)
      · rename_i hm
        have hm' : (field16 p.fieldOrder l0 l1).toNat ≤ p.maxRxPayload.toNat := Nat.not_lt.1 hm
        split
        · rename_i hd
          have := List.drop_eq_nil_iff.1 hd
          refine .inl ⟨rfl, .inr ⟨?_, hm'⟩⟩
          simp only [List.length_cons]
          show _ < 7 + (field16 p.fieldOrder l0 l1).toNat
          omega
        · rename_i c after hd
          split
          · refine .inr (.inr (.inr ⟨_, rfl, ?_, ?_⟩))
            · have := congrArg List.length hd
              simp only [List.length_drop, List.length_cons] at this
              simp only [List.length_take, List.length_cons]
              omega
            · simp only [List.length_take]; omega
          · exact .inr (.inr (.inl rfl))

/-- More bytes do not change the verdict on a candidate that has one (40_frame_codec.md R114). -/
theorem candidate_append (p : Params) (win more : List Byte) (h : candidate p win ≠ .incomplete) :
    candidate p (win ++ more) = candidate p win := by
  rcases Nat.lt_or_ge win.length 6 with h' | h'
  · exact absurd (candidate_short p win h') h
  · match win, h' with
    | m :: id :: t0 :: t1 :: l0 :: l1 :: tail, _ =>
      simp only [List.cons_append] at *
      rw [candidate_header] at h ⊢
      rw [candidate_header]
      split
      · rfl
      · rename_i hm
        rw [if_neg hm] at h
        have hlen : (field16 p.fieldOrder l0 l1).toNat < tail.length := by
          apply Classical.byContradiction
          intro hc
          rw [List.drop_eq_nil_of_le (by omega)] at h
          exact h rfl
        rw [List.drop_append_of_le_length (by omega), List.take_append_of_le_length (by omega)]
        have : List.drop (field16 p.fieldOrder l0 l1).toNat tail ≠ [] := by simpa using hlen
        obtain ⟨c, r, e⟩ := List.exists_cons_of_ne_nil this
        rw [e]; rfl

/-- A frame that a candidate is accepted as has a legal length and the recomputed checksum (40_frame_codec.md R116). -/
theorem candidate_accepted {p : Params} {rest : List Byte} {f : Frame}
    (h : candidate p (p.startMarker :: rest) = .accepted f) : frameOk p f := by
  rcases Nat.lt_or_ge (p.startMarker :: rest).length 6 with h' | h'
  · rw [candidate_short p _ h'] at h; cases h
  · match rest, h' with
    | id :: t0 :: t1 :: l0 :: l1 :: tail, _ =>
      rw [candidate_header] at h
      split at h
      · cases h
      · rename_i hm
        have hm' : (field16 p.fieldOrder l0 l1).toNat ≤ p.maxRxPayload.toNat := Nat.not_lt.1 hm
        split at h
        · cases h
        · rename_i c after hd
          split at h
          · rename_i hc
            cases h
            have hl : (tail.take (field16 p.fieldOrder l0 l1).toNat).length = (field16 p.fieldOrder l0 l1).toNat := by
              have := congrArg List.length hd
              simp only [List.length_drop, List.length_cons] at this
              rw [List.length_take]; omega
            refine ⟨by rw [hl]; exact hm', ?_⟩
            simp only [frameBody, hl, BitVec.ofNat_toNat, BitVec.setWidth_eq, put16_of_field16]
            exact hc.symm
          · cases h

/-- Every frame a scan finds has a legal length and the recomputed checksum. -/
theorem scan_frameOk (p : Params) (win : List Byte) : ∀ f ∈ (scan p win).frames, frameOk p f := by
  induction hn : win.length using Nat.strongRecOn generalizing win with
  | ind n ih =>
    cases win with
    | nil => simp
    | cons b rest =>
      simp only [List.length_cons] at hn
      by_cases hb : b = p.startMarker
      · subst hb
        rcases candidate_cases p (p.startMarker :: rest) with ⟨h, -⟩ | h | h | ⟨f, h, -, -⟩
        · simp [scan_incomplete p rest h]
        · rw [scan_rejected p rest (.inl h)]; exact ih rest.length (by omega) rest rfl
        · rw [scan_rejected p rest (.inr h)]; exact ih rest.length (by omega) rest rfl
        · rw [scan_accepted p rest f h]
          intro g hg
          rcases List.mem_cons.1 hg with rfl | hg
          · exact candidate_accepted h
          · exact ih _ (by rw [List.length_drop]; omega) _ rfl g hg
      · rw [scan_garbage p b _ hb]; exact ih rest.length (by omega) rest rfl

/-! ### Delivering frames -/

theorem sat16Add_zero (c : Half) : sat16Add c 0 = c := by
  have := c.isLt
  apply BitVec.eq_of_toNat_eq
  simp only [sat16Add, BitVec.toNat_ofNat, Nat.add_zero]
  omega

theorem sat16Add_add (c : Half) (m n : Nat) : sat16Add (sat16Add c m) n = sat16Add c (m + n) := by
  have := c.isLt
  apply BitVec.eq_of_toNat_eq
  simp only [sat16Add, BitVec.toNat_ofNat]
  omega

/-- Delivering several frames: the first ones as long as there is room, the others dropped and counted
(40_frame_codec.md R120, R122). -/
theorem deliver_foldl_eq (fs : List Frame) (s : State) :
    fs.foldl deliver s =
      { s with
        rxq := s.rxq ++ fs.take (s.params.rxqDepth.toNat - s.rxq.length)
        rxqDrops := sat16Add s.rxqDrops (fs.length - (s.params.rxqDepth.toNat - s.rxq.length))
        irq :=
          { s.irq with
            rxqDrop :=
              s.irq.rxqDrop || decide (s.params.rxqDepth.toNat - s.rxq.length < fs.length) } } := by
  induction fs generalizing s with
  | nil => simp [sat16Add_zero]
  | cons f fs ih =>
    rw [List.foldl_cons, ih, deliver]
    split
    · rename_i h
      obtain ⟨k, hk⟩ : ∃ k, s.params.rxqDepth.toNat - s.rxq.length = k + 1 := ⟨_, (Nat.succ_pred (by omega)).symm⟩
      have hk' : s.params.rxqDepth.toNat - (s.rxq.length + 1) = k := by omega
      simp only [List.length_append, List.length_cons, List.length_nil, Nat.zero_add, hk, hk', List.take_succ_cons,
        List.append_assoc, List.cons_append, List.nil_append, Nat.add_sub_add_right, Nat.add_lt_add_iff_right]
    · rename_i h
      have h0 : s.params.rxqDepth.toNat - s.rxq.length = 0 := by omega
      simp only [h0, List.take_zero, List.append_nil, Nat.sub_zero, sat16Add_add, List.length_cons, Bool.true_or,
        Nat.add_comm 1, Nat.zero_lt_succ, decide_true, Bool.or_true]

/-- A received byte in closed form (40_frame_codec.md R115). -/
theorem fcReceive_eq (b : Byte) (s : State) :
    fcReceive b s =
      (scan s.params (s.rxwin ++ [b])).frames.foldl deliver
        (countErrors (scan s.params (s.rxwin ++ [b])).errs { s with rxwin := (scan s.params (s.rxwin ++ [b])).window }) :=
  rfl

end Sys2Proof.Machine
end

