-- ==== Sys2Proof/Tests/Slice0.lean ====
section
/-! SUPPORT. Tests: ill-formed terms, words written out from the spec's encodings, the vectors of 95_test_vectors.md on single
steps, and for each statement with hypotheses a state that meets them. -/

namespace Sys2Proof.Tests

open Sys2Proof.Machine

/-! ### Helpers -/

/-- What a next state holds. -/
def field {α : Type} (f : State → α) : Result → Option α
  | .next s => some (f s)
  | .fault _ => none
  | .refused _ => none

/-- The fault of a step that faults. -/
def faultOf : Result → Option Fault
  | .fault e => some e
  | .next _ => none
  | .refused _ => none

/-- The refusal of a step that is refused. -/
def refusalOf : Result → Option Refusal
  | .refused e => some e
  | .next _ => none
  | .fault _ => none

/-- The bytes that a read of several bytes answers lie there. -/
theorem holds {m : Memory} {a n : Nat} {bs : List Byte} (h : memRead .txbuf m a n = .ok bs) : holdsAt m a bs :=
  (memRead_inv h).2

/-- The same from an answer that can be compared. -/
theorem holds_some {m : Memory} {a n : Nat} {bs : List Byte} (h : (memRead .txbuf m a n).toOption = some bs) :
    holdsAt m a bs := by
  cases hr : memRead .txbuf m a n with
  | ok r => rw [hr] at h; cases h; exact holds hr
  | error e => rw [hr] at h; cases h

/-- The decoder under the default parameters. -/
def dec (lane : Lane) (bytes : List Byte) : Option (Instr × List Byte) :=
  match decode Params.default { lane := lane, bytes := bytes } with
  | .ok r => some r
  | .error _ => none

/-- The reason the decoder gives. -/
def decError (lane : Lane) (bytes : List Byte) : Option DecodeError :=
  match decode Params.default { lane := lane, bytes := bytes } with
  | .ok _ => none
  | .error e => some e

/-! ### States -/

/-- The transport handed to TE, no session. -/
def teOwns : State := { State.reset with owner := .te }

/-- A frame of one byte to send. -/
def oneByteFrame : State :=
  { State.reset with txId := 0x02, txType := 0x4000, txLen := 2, txbuf := [(0, 0xAA), (1, 0x55)] }

/-- A session of the image `41` (one block), waiting for the handshake. -/
def waiting : State :=
  { teOwns with
    teState := .awaitHandshake, imgLen := 1, totalBlocks := 1, retriesLeft := 10, image := [(0, 0x41)] }

/-- The same session after its block was sent. -/
def sending : State := { waiting with teState := .sending, curIndex := 1 }

/-- The same session after its block was acknowledged. -/
def ending : State := { sending with tePhase := .eot, progress := 1 }

/-- A session of an empty image. -/
def emptyImage : State := { teOwns with teState := .awaitHandshake, retriesLeft := 10 }

/-- A session of two blocks, 129 bytes, whose second block is held and whose first is not. -/
def twoBlocks : State :=
  { teOwns with
    teState := .sending, imgLen := 129, totalBlocks := 2, curIndex := 1, retriesLeft := 10, image := [(128, 0x42)] }

/-- A queued frame (FC-E5). -/
def f3 : Frame := { id := 3, type := 0xFFFF, payload := [0, 1, 2, 3], checksum := 0x0C }

/-- One frame queued, and older bytes in RXBUF. -/
def queued : State := { State.reset with rxq := [f3], rxbuf := [(3, 0x77), (4, 0x99)] }

/-- A queue of depth 1 that is full. -/
def full : State := { State.reset with params := { Params.default with rxqDepth := 1 }, rxq := [f3] }

/-- VBUF of CRC-V1: `01 01 FE`, 128 times `1A`, `F8 B0`. -/
def padBlock : List Byte := [0x01, 0x01, 0xFE] ++ List.replicate 128 0x1A ++ [0xF8, 0xB0]

/-- A block in VBUF. -/
def verifying (bs : List Byte) : State := { State.reset with vbuf := Memory.writeAll [] 0 bs }

/-! ### WellFormed refuses an ill-formed term of each check -/

theorem test_wf_offset_misaligned : Instr.wellFormed (.regWr 0x01 0) = false := by decide
theorem test_wf_offset_beyond : Instr.wellFormed (.regRd 0x80) = false := by decide
theorem test_wf_offset_last : Instr.wellFormed (.regRd 0x7C) = true := by decide
theorem test_wf_frame_too_long : Instr.wellFormed (.frame .tx 0 0 (List.replicate 65536 0)) = false := by
  simp only [Instr.wellFormed, framePayloadOk, List.length_replicate]; decide
theorem test_wf_frame_longest : Instr.wellFormed (.frame .tx 0 0 (List.replicate 65535 0)) = true := by
  simp only [Instr.wellFormed, framePayloadOk, List.length_replicate]; decide
theorem test_wf_block_short : Instr.wellFormed (.block 1 (List.replicate 127 0)) = false := by decide +kernel
theorem test_wf_block_long : Instr.wellFormed (.block 1 (List.replicate 129 0)) = false := by decide +kernel

/-! ### Decoding (30_encoding.md R81, R84, R86 to R91) -/

theorem test_dec_nop : dec .command [0x00, 0, 0, 0] = some (.nop, []) := by decide
theorem test_dec_fcSend : dec .command [0x01, 0, 0, 0] = some (.fcSend, []) := by decide
theorem test_dec_fcRxPop : dec .command [0x02, 0, 0, 0] = some (.fcRxPop, []) := by decide
theorem test_dec_fcRxRestart : dec .command [0x03, 0, 0, 0] = some (.fcRxRestart, []) := by decide
/-- CT-4: bits 31..8 are ignored. -/
theorem test_dec_portGrantTe : dec .command [0x10, 0xEF, 0xCD, 0xAB] = some (.portGrantTe, []) := by decide
theorem test_dec_portReturnFc : dec .command [0x11, 0, 0, 0] = some (.portReturnFc, []) := by decide
theorem test_dec_teStart : dec .command [0x20, 0, 0, 0] = some (.teStart, []) := by decide
theorem test_dec_teCancel : dec .command [0x21, 0, 0, 0] = some (.teCancel, []) := by decide
theorem test_dec_blockVerify : dec .command [0x30, 0, 0, 0] = some (.blockVerify, []) := by decide
/-- 30_encoding.md R82: an illegal opcode is the register write that it is. -/
theorem test_dec_illegal : dec .command [0x05, 0, 0, 0] = some (.regWr 0x00 5, []) := by decide
theorem test_dec_rxByte : dec .step [0x80, 0x43] = some (.rxByte 0x43, []) := by decide
theorem test_dec_timeout : dec .step [0x81] = some (.timeout, []) := by decide
theorem test_dec_portFault : dec .step [0x82] = some (.portFault, []) := by decide
theorem test_dec_portReopen : dec .step [0x83] = some (.portReopen, []) := by decide
theorem test_dec_reset : dec .step [0x84] = some (.reset, []) := by decide
/-- P2: `wr IMG_LEN, 300` is REG_WR(0x44, 0x0000012C). -/
theorem test_dec_regWr : dec .step [0x90, 0x44, 0x2C, 0x01, 0, 0] = some (.regWr 0x44 300, []) := by decide
theorem test_dec_regRd : dec .step [0x91, 0x7C] = some (.regRd 0x7C, []) := by decide
theorem test_dec_bufWr : dec .step [0x92, 2, 0x2B, 0x01, 0, 0, 0x41] = some (.bufWr .image 299 0x41, []) := by decide
theorem test_dec_bufRd : dec .step [0x93, 3, 132, 0, 0, 0, 0x81] = some (.bufRd .vbuf 132, [0x81]) := by decide
/-- FC-E3. -/
theorem test_dec_frame : dec .frameTx [0x01, 0x01, 0x30, 0, 0, 0, 0x32] = some (.frame .tx 1 0x3000 [], []) := by decide
/-- FC-E6: marker bytes inside the payload. -/
theorem test_dec_frame_payload :
    dec .frameRx [0x01, 0x7F, 0x12, 0x34, 0x00, 0x03, 0x01, 0x01, 0x01, 0xCC] =
      some (.frame .rx 0x7F 0x1234 [1, 1, 1], []) := by decide
theorem test_dec_frame_checksum : decError .frameRx [0x01, 0x01, 0x30, 0, 0, 0, 0x33] = some (.frameChecksum 0x33) := by
  decide
set_option maxRecDepth 100000 in
/-- CRC-V1: the block of 128 pad bytes. -/
theorem test_dec_block : dec .blockTx padBlock = some (.block 1 (List.replicate 128 0x1A), []) := by decide +kernel
set_option maxRecDepth 100000 in
/-- CRC-V3. -/
theorem test_dec_block_complement :
    decError .blockTx ([0x01, 0x01, 0xFF] ++ List.replicate 128 0x1A ++ [0xF8, 0xB0]) = some (.blockComplement 0xFF) := by
  decide +kernel
theorem test_dec_eot : dec .blockTx [0x04] = some (.eot, []) := by decide
theorem test_dec_canCan : dec .blockTx [0x18, 0x18] = some (.canCan, []) := by decide
theorem test_dec_one_can : decError .blockTx [0x18, 0x04] = some (.unknownSymbol 0x04) := by decide
theorem test_dec_ack : dec .blockRx [0x06] = some (.ack, []) := by decide
theorem test_dec_nak : dec .blockRx [0x15] = some (.nak, []) := by decide
theorem test_dec_handshakeC : dec .blockRx [0x43] = some (.handshakeC, []) := by decide
theorem test_dec_bad_tag : decError .step [0x85] = some (.unknownTag 0x85) := by decide
theorem test_dec_bad_offset : decError .step [0x91, 0x7D] = some (.badRegOffset 0x7D) := by decide
theorem test_dec_bad_space : decError .step [0x93, 4, 0, 0, 0, 0] = some (.unknownSpace 4) := by decide
theorem test_dec_truncated : decError .command [0x00, 0] = some .truncated := by decide

/-- 00_scope.md R9: the other field order. -/
theorem test_field16_le : field16 .le 0x34 0x12 = 0x1234 ∧ put16 .le 0x1234 = [0x34, 0x12] := by decide

/-! ### The words of the opcode table -/

theorem test_table_nop : decodeTableWord 8 0x00 = some .nop := by decide
theorem test_table_teStart : decodeTableWord 32 0x20 = some .teStart := by decide
theorem test_table_bufWr : decodeTableWord 8 0x92 = some (.bufWr .txbuf 0 0) := by decide
theorem test_table_canCan : decodeTableWord 16 0x1818 = some .canCan := by decide
theorem test_table_handshakeC : decodeTableWord 8 0x43 = some .handshakeC := by decide
/-- The first step after reset runs the word. -/
theorem test_fetch_grant : field (·.owner) (step (State.reset.withFetchWord 8 0x10)) = some .te := by decide
theorem test_fetch_bufWr : field (·.txbuf) (step (State.reset.withFetchWord 8 0x92)) = some [(0, 0)] := by decide

/-! ### The CRC (42_crc16_verifier.md R166) and the frame encoder (95_test_vectors.md 2.1) -/

theorem test_crc_one : crc16 [0x01] = 0x1021 := by decide
theorem test_crc_top_bit : crc16 [0x80] = 0x9188 := by decide
set_option maxRecDepth 20000 in
theorem test_crc_digits : crc16 [0x31, 0x32, 0x33, 0x34, 0x35, 0x36, 0x37, 0x38, 0x39] = 0x31C3 := by decide +kernel
set_option maxRecDepth 100000 in
theorem test_crc_ff : crc16 (List.replicate 128 0xFF) = 0xEDA9 := by decide +kernel
/-- FC-E4. -/
theorem test_encodeFrame :
    encodeFrame Params.default 0x02 0x4000 [0xAA, 0x55] = [0x01, 0x02, 0x40, 0, 0, 0x02, 0xAA, 0x55, 0x44] := by decide
/-- FC-E7: the sum wraps. -/
theorem test_encodeFrame_wraps :
    encodeFrame Params.default 0xFF 0xFFFF [0xFF, 0xFF, 0xFF, 0xFF] =
      [0x01, 0xFF, 0xFF, 0xFF, 0, 0x04, 0xFF, 0xFF, 0xFF, 0xFF, 0xFE] := by decide

/-! ### Commands -/

/-- CT-1. -/
theorem test_nop : field (·.result) (exec .nop { State.reset with result := .noSession }) = some .ok := by decide
/-- CT-2. -/
theorem test_illegal : field (·.result) (exec (.regWr 0x00 0x05) State.reset) = some .illegalOpcode := by decide
/-- FC-E4 by FC_SEND. -/
theorem test_fcSend :
    field (·.txlog) (exec .fcSend oneByteFrame) = some [0x01, 0x02, 0x40, 0, 0, 0x02, 0xAA, 0x55, 0x44] := by decide
/-- FC-S5: NOT_OWNER comes before PORT_ERROR. -/
theorem test_fcSend_precedence : field (·.result) (exec .fcSend { teOwns with linkUp := false }) = some .notOwner := by
  decide
/-- FC-P1. -/
theorem test_fcRxPop :
    field (fun s => (s.rxId, s.rxType, s.rxLen, s.rxCsum, s.rxq)) (exec .fcRxPop queued) = some (3, 0xFFFF, 4, 0x0C, []) ∧
      field (·.rxbuf) (exec .fcRxPop queued) = some [(0, 0), (1, 1), (2, 2), (3, 3), (4, 0x99)] := by decide
/-- FC-P3. -/
theorem test_fcRxPop_empty : field (·.result) (exec .fcRxPop State.reset) = some .rxqEmpty := by decide
/-- FC-R1. -/
theorem test_fcRxRestart :
    field (fun s => (s.rxwin, s.framingErrs)) (exec .fcRxRestart { State.reset with rxwin := [1, 1, 0x30, 0] }) =
      some ([], 0) := by decide
/-- FC-R2: the grant discards a partial frame. -/
theorem test_portGrantTe :
    field (fun s => (readReg s .port, s.rxwin)) (exec .portGrantTe { State.reset with rxwin := [1, 1, 0x30, 0] }) =
      some (3, []) := by decide
/-- CT-7. -/
theorem test_portReturnFc_busy : field (fun s => (s.result, s.owner)) (exec .portReturnFc waiting) = some (.sessionBusy, .te) := by
  decide
/-- P2, last line. -/
theorem test_portReturnFc :
    field (fun s => readReg s .port) (exec .portReturnFc { teOwns with teState := .complete }) = some 2 := by decide
/-- R185, example: 300 bytes are 3 blocks. -/
theorem test_teStart :
    field (fun s => (readReg s .teStatus, s.totalBlocks, readReg s .retry)) (exec .teStart { teOwns with imgLen := 300 }) =
      some (2, 3, 0x0A0A) := by decide
/-- TE-S3. -/
theorem test_teStart_length :
    field (·.result)
        (exec .teStart { teOwns with imgLen := 257, params := { Params.default with imageMax := 256 } }) =
      some .lengthError := by decide
/-- TE-9. -/
theorem test_teCancel :
    field (fun s => (readReg s .teErr, readReg s .teStatus, s.txlog, readReg s .irqPending)) (exec .teCancel waiting) =
      some (0x13, 6, [0x18, 0x18], 0x10) := by decide
/-- TE-11. -/
theorem test_teCancel_none : field (·.result) (exec .teCancel teOwns) = some .noSession := by decide
set_option maxRecDepth 100000 in
/-- CRC-V1. -/
theorem test_blockVerify :
    field (fun s => readReg s .verify) (exec .blockVerify (verifying padBlock)) = some 0xF8B0000F := by decide +kernel
/-- CRC-V10 in small: the first byte with no value. -/
theorem test_blockVerify_fault :
    faultOf (exec .blockVerify { State.reset with vbuf := [(0, 1), (2, 0xFE)] }) = some (.uninitByte .vbuf 1) := by decide

/-! ### Received bytes, events -/

/-- FC-D2: the byte that rejects the stray marker's candidate. -/
theorem test_rxByte_framing :
    field (fun s => (s.rxwin, s.rxq, readReg s .fcStats, readReg s .irqPending))
        (exec (.rxByte 0x02) { State.reset with rxwin := [1, 1, 2, 0x40, 0, 0] }) =
      some ([1, 2, 0x40, 0, 0, 2], [], 1, 2) := by decide
/-- FC-Q1 in small: a full queue drops the frame. -/
theorem test_rxByte_full :
    field (fun s => (s.rxq, readReg s .fcStats, readReg s .irqPending))
        (exec (.rxByte 0x32) { full with rxwin := [1, 1, 0x30, 0, 0, 0] }) = some ([f3], 0x00010000, 5) := by decide
/-- TE-3. -/
theorem test_timeout :
    field (fun s => (readReg s .teStatus, readReg s .teErr, readReg s .irqPending)) (exec .timeout waiting) =
      some (5, 0x11, 0x10) := by decide
/-- 60_exceptions.md R246. -/
theorem test_timeout_refused : refusalOf (exec .timeout teOwns) = some (.notEnabled .timeout) := by decide
/-- TE-15. -/
theorem test_portFault_session :
    field (fun s => (readReg s .port, readReg s .teStatus, readReg s .teErr, readReg s .irqPending))
        (exec .portFault emptyImage) = some (1, 5, 0x14, 0x30) := by decide
/-- CT-8. -/
theorem test_portFault : field (fun s => (readReg s .port, readReg s .irqPending)) (exec .portFault State.reset) = some (0, 0x20) := by
  decide
/-- CT-9. -/
theorem test_portReopen :
    field (fun s => readReg s .port) (exec .portReopen { State.reset with linkUp := false }) = some 2 := by decide
/-- RS-2, RS-3. -/
theorem test_reset :
    field (fun s => (readReg s .teStatus, s.image, s.txlog, s.retryLimit)) (exec .reset { sending with txlog := [9], retryLimit := 3 }) =
      some (0, [], [9], 10) := by decide

/-! ### Host access -/

/-- CT-10: a write of 0 to RETRY stores 1. -/
theorem test_regWr_retry : field (fun s => readReg s .retry) (exec (.regWr 0x54 0) State.reset) = some 1 := by decide
/-- CT-12: the lock. -/
theorem test_regWr_locked : field (fun s => readReg s .retry) (exec (.regWr 0x54 3) waiting) = some 0x0A0A := by decide
/-- RS-1: TE_BLOCK after reset. -/
theorem test_regRd_teBlock : field (·.readData) (exec (.regRd 0x50) State.reset) = some 0xFF00 := by decide
/-- TE-12: TE_BLOCK of index 257. -/
theorem test_regRd_wraps : field (·.readData) (exec (.regRd 0x50) { sending with curIndex := 257 }) = some 0xFE01 := by decide
/-- CT-13: host writes of RXBUF are ignored. -/
theorem test_bufWr_rxbuf : field (·.rxbuf) (exec (.bufWr .rxbuf 0 0x55) State.reset) = some [] := by decide
/-- 20_memory.md R60: the last byte of TXBUF. -/
theorem test_bufWr_last : field (·.txbuf) (exec (.bufWr .txbuf 65534 7) State.reset) = some [(65534, 7)] := by decide
theorem test_bufRd : field (·.readData) (exec (.bufRd .txbuf 1) oneByteFrame) = some 0x55 := by decide
theorem test_bufRd_beyond : refusalOf (exec (.bufRd .vbuf 133) State.reset) = some (.noSuchAddress .vbuf 133) := by decide

/-! ### Wire formats -/

/-- FC-E4 arrives: nine RX_BYTE steps (30_encoding.md R93, tag 0x80), before what is pending. -/
theorem test_frame_rx :
    field (fun s => s.pending.map (·.bytes)) (exec (.frame .rx 2 0x4000 [0xAA, 0x55]) State.reset) =
      some
        [[0x80, 0x01], [0x80, 0x02], [0x80, 0x40], [0x80, 0x00], [0x80, 0x00], [0x80, 0x02], [0x80, 0xAA], [0x80, 0x55],
          [0x80, 0x44]] := by decide
/-- FC-E4 departs: the steps of `send 2, 0x4000, [0xAA, 0x55]` (30_encoding.md R93, tags 0x92 and 0x90). -/
theorem test_frame_tx :
    field (fun s => s.pending.map (·.bytes)) (exec (.frame .tx 2 0x4000 [0xAA, 0x55]) State.reset) =
      some
        [[0x92, 0, 0, 0, 0, 0, 0xAA], [0x92, 0, 1, 0, 0, 0, 0x55], [0x90, 0x10, 0x02, 0, 0, 0], [0x90, 0x14, 0, 0x40, 0, 0],
          [0x90, 0x18, 2, 0, 0, 0], [0x90, 0x00, 1, 0, 0, 0]] := by decide
set_option maxRecDepth 100000 in
/-- TE-6: the block of the image `41` is sent again, which costs one attempt (43_transfer_engine.md R191). -/
theorem test_block :
    field (fun s => (s.retriesLeft, s.txlog.take 4, s.txlog.drop 131))
        (exec (.block 1 (0x41 :: List.replicate 127 0x1A)) sending) =
      some (9, [0x01, 0x01, 0xFE, 0x41], [0xF2, 0xDD]) := by decide +kernel
/-- EOT after the last block is the answer to its ACK (43_transfer_engine.md R187). -/
theorem test_eot :
    field (fun s => (s.txlog, s.tePhase, s.progress)) (exec .eot sending) = some ([0x04], .eot, 1) := by decide
theorem test_eot_refused : refusalOf (exec .eot State.reset) = some .mayNotTransmit := by decide
/-- Only one CAN CAN leaves a session: the cancellation ends it (43_transfer_engine.md R194). -/
theorem test_canCan :
    field (fun s => (s.txlog, s.teState)) (exec .canCan waiting) = some ([0x18, 0x18], .cancelled) := by decide
/-- TE-4, last byte: the ACK of the last block is followed by EOT. -/
theorem test_ack :
    field (fun s => (readReg s .teStatus, s.txlog, s.progress, readReg s .irqPending)) (exec .ack sending) =
      some (0xB, [0x04], 1, 8) := by decide
/-- TE-8: the ACK of EOT. -/
theorem test_ack_eot : field (fun s => (readReg s .teStatus, readReg s .irqPending)) (exec .ack ending) = some (0xC, 0x10) := by
  decide
/-- TE-6: the last failure. -/
theorem test_nak :
    field (fun s => (readReg s .teStatus, readReg s .teErr, readReg s .retry, s.txlog))
        (exec .nak { sending with retryLimit := 3, retriesLeft := 1 }) = some (5, 0x00030122, 3, []) := by decide
set_option maxRecDepth 100000 in
/-- TE-6: the first transmission. -/
theorem test_handshakeC_block :
    field (fun s => (readReg s .teStatus, s.curIndex, s.txlog.take 4, s.txlog.drop 131)) (exec .handshakeC waiting) =
      some (3, 1, [0x01, 0x01, 0xFE, 0x41], [0xF2, 0xDD]) := by decide +kernel
/-- TE-S7: an image byte with no value. -/
theorem test_handshakeC_fault :
    faultOf (exec .handshakeC { waiting with imgLen := 2 }) = some (.uninitByte .image 1) := by decide

/-! ### Witnesses: for each statement with hypotheses, states and operands that meet them -/

/-- Bytes written to a memory lie there. -/
theorem holds_written (bs : List Byte) : holdsAt (Memory.writeAll [] 0 bs) 0 bs :=
  fun k hk => by simpa using Memory.read_writeAll_inside [] 0 bs k hk

/-- The bytes of a block that was written to VBUF lie there. -/
theorem verifying_holds (bs : List Byte) : holdsAt (verifying bs).vbuf 0 bs := holds_written bs

/-- A session of two blocks of zeros with every image byte written, block 1 sent. -/
def twoHeld : State :=
  { twoBlocks with image := Memory.writeAll [] 0 (List.replicate 129 0) }

/-- A packet of one step that FC or TE receives. -/
def ackPacket : Packet := { lane := .step, bytes := [0x80, 0x06] }

theorem test_witness_DecodeEncodeRoundTrip : Instr.wellFormed (.frame .rx 0xFF 0xFFFF (List.replicate 65535 0xFF)) = true := by
  simp only [Instr.wellFormed, framePayloadOk, List.length_replicate]; decide

theorem test_witness_DecoderAnswersWellFormed :
    decode Params.default ackPacket = .ok (.rxByte 0x06, []) ∧
      decode Params.default { lane := .frameRx, bytes := [0x01, 0x01, 0x30, 0, 0, 0, 0x32, 0x01] } =
        .ok (.frame .rx 1 0x3000 [], [0x01]) := ⟨rfl, rfl⟩

theorem test_witness_StepRunsDecodedInstruction :
    ({ sending with pending := [ackPacket, ackPacket] } : State).pending = ackPacket :: [ackPacket] ∧
      decode sending.params ackPacket = .ok (.rxByte 0x06, []) := ⟨rfl, rfl⟩

theorem test_witness_NoStepWithoutAnAgent :
    State.reset.pending = [] ∧
      ({ State.reset with pending := [{ lane := .step, bytes := [] }] } : State).pending = [{ lane := .step, bytes := [] }] ∧
        decode Params.default { lane := .step, bytes := [] } = .error .truncated ∧
          (∃ t, exec .canCan waiting = .next t) ∧ ∃ t, exec (.frame .rx 1 0x3000 []) State.reset = .next t :=
  ⟨rfl, rfl, rfl, ⟨_, rfl⟩, _, rfl⟩

theorem test_witness_CmdWriteExecutesCommand : (0xABCDEF21 : Word).extractLsb' 0 8 = Command.teCancel.opcode := by decide

theorem test_witness_NopAndIllegalOpcodes :
    (0x00000004 : Word).extractLsb' 0 8 ∉ ([0x00, 0x01, 0x02, 0x03, 0x10, 0x11, 0x20, 0x21, 0x30] : List Byte) ∧
      (0xFFFFFFFF : Word).extractLsb' 0 8 ∉ ([0x00, 0x01, 0x02, 0x03, 0x10, 0x11, 0x20, 0x21, 0x30] : List Byte) := by
  decide

theorem test_witness_GrantHandsPort : teOwns.owner = .te ∧ State.reset.owner = .fc := ⟨rfl, rfl⟩

theorem test_witness_ReturnHandsPort :
    (waiting.teState = .awaitHandshake ∨ waiting.teState = .sending) ∧
      (State.reset.teState ≠ .awaitHandshake ∧ State.reset.teState ≠ .sending ∧ State.reset.owner = .fc) ∧
        teOwns.teState ≠ .awaitHandshake ∧ teOwns.teState ≠ .sending ∧ teOwns.owner = .te := by decide

theorem test_witness_EncodedFrameLayout :
    (List.replicate 65535 (0 : Byte)).length ≤ 65535 ∧ ([] : List Byte).length ≤ 65535 := by
  rw [List.length_replicate]; decide

theorem test_witness_FcSend :
    teOwns.owner = .te ∧
      (State.reset.owner = .fc ∧ ({ State.reset with linkUp := false } : State).linkUp = false) ∧
        (({ oneByteFrame with txbuf := [(0, 5)] } : State).linkUp = true ∧ firstMissing [(0, 5)] 0 oneByteFrame.txLen.toNat 1) ∧
          (State.reset.linkUp = true ∧ ([] : List Byte).length = State.reset.txLen.toNat ∧ holdsAt State.reset.txbuf 0 []) ∧
            ([0xAA, 0x55] : List Byte).length = oneByteFrame.txLen.toNat ∧ holdsAt oneByteFrame.txbuf 0 [0xAA, 0x55] :=
  ⟨rfl, ⟨rfl, rfl⟩, ⟨rfl, by unfold firstMissing; decide⟩, ⟨rfl, rfl, holds (n := 0) rfl⟩, rfl, holds (n := 2) rfl⟩

theorem test_witness_FcRxPop : State.reset.rxq = [] ∧ queued.rxq = f3 :: [] := ⟨rfl, rfl⟩

theorem test_witness_TeStart :
    (sending.teState = .awaitHandshake ∨ sending.teState = .sending) ∧
      (State.reset.teState ≠ .awaitHandshake ∧ State.reset.teState ≠ .sending ∧ State.reset.owner = .fc) ∧
        (teOwns.teState ≠ .awaitHandshake ∧ teOwns.teState ≠ .sending ∧ teOwns.owner = .te ∧ teOwns.linkUp = true) ∧
          ({ teOwns with linkUp := false } : State).linkUp = false ∧
            teOwns.params.imageMax.toNat < ({ teOwns with imgLen := 1048577 } : State).imgLen.toNat ∧
              ({ teOwns with imgLen := 1048576 } : State).imgLen.toNat ≤ teOwns.params.imageMax.toNat ∧
                teOwns.imgLen.toNat ≤ teOwns.params.imageMax.toNat := by decide

theorem test_witness_TeCancel :
    (teOwns.teState ≠ .awaitHandshake ∧ teOwns.teState ≠ .sending) ∧
      (waiting.teState = .awaitHandshake ∨ waiting.teState = .sending) ∧
        (ending.teState = .awaitHandshake ∨ ending.teState = .sending) := by decide

theorem test_witness_BlockVerify :
    firstMissing [] 0 133 0 ∧
      (List.replicate 128 (0x1A : Byte)).length = 128 ∧ holdsAt (verifying padBlock).vbuf 0 padBlock :=
  ⟨by unfold firstMissing; decide, List.length_replicate, verifying_holds padBlock⟩

theorem test_witness_BlockVerify_last_byte : firstMissing (Memory.writeAll [] 0 (List.replicate 132 0)) 0 133 132 := by
  unfold firstMissing; decide +kernel

theorem test_witness_FailedCommand :
    exec Command.fcRxPop.toInstr State.reset = .next { State.reset with result := .rxqEmpty } ∧
      ({ State.reset with result := .rxqEmpty } : State).result ≠ .ok := ⟨rfl, by decide⟩

/-- The block of a payload with the last bit of its last byte flipped, and the CRC of the payload as it was. -/
def flippedBlock (payload : List Byte) : List Byte :=
  ([0x01, 0x01, 0xFE] : List Byte) ++ payload.set 127 (payload.getD 127 0 ^^^ (1#8 <<< 7)) ++
    [(crc16 payload).extractLsb' 8 8, (crc16 payload).extractLsb' 0 8]

/-- A payload of 128 zeros. -/
def zeros : List Byte := List.replicate 128 0

theorem test_witness_SingleBitFlip :
    zeros.length = 128 ∧ 127 < zeros.length ∧ 7 < 8 ∧ ∃ s : State, holdsAt s.vbuf 0 (flippedBlock zeros) := by
  have h : zeros.length = 128 := List.length_replicate
  exact ⟨h, by rw [h]; decide, by decide, verifying (flippedBlock zeros), verifying_holds (flippedBlock zeros)⟩

theorem test_witness_ScanFollowsTheLoop :
    Params.default.startMarker ∉ ([0x55, 0xAA] : List Byte) ∧
      (([0x01, 0x01, 0x30, 0x00, 0x00] : List Byte).head? = some Params.default.startMarker ∧
          ([0x01, 0x01, 0x30, 0x00, 0x00] : List Byte).length < 6) ∧
        ({ Params.default with maxRxPayload := 3 } : Params).maxRxPayload.toNat < (field16 .be 0x00 0x04).toNat ∧
          ((field16 .be 0x00 0x04).toNat ≤ ({ Params.default with maxRxPayload := 4 } : Params).maxRxPayload.toNat ∧
              ([0x01, 0x03, 0xFF, 0xFF, 0x00, 0x04, 0x00, 0x01, 0x02, 0x03] : List Byte).length < 7 + (field16 .be 0x00 0x04).toNat) ∧
            ([0x00, 0x01, 0x02, 0x03] : List Byte).length = (field16 .be 0x00 0x04).toNat ∧
              checksumOf .sum8 [0x01, 0x03, 0xFF, 0xFF, 0x00, 0x04, 0x00, 0x01, 0x02, 0x03] = 0x0C ∧
                checksumOf .sum8 [0x01, 0x03, 0xFF, 0xFF, 0x00, 0x04, 0x00, 0x01, 0x02, 0x03] ≠ 0xBB := by decide

theorem test_witness_ReceivedByteDeliversFrames :
    State.reset.linkUp = true ∧ State.reset.owner = .fc ∧ full.linkUp = true ∧ full.owner = .fc := by decide

theorem test_witness_FrameExpandsToAgentSteps :
    (List.replicate 65535 (0 : Byte)).length ≤ 65535 ∧ State.reset.linkUp = true ∧ State.reset.owner = .fc := by
  rw [List.length_replicate]; decide

theorem test_witness_FrameRoundTripDelivery :
    (State.reset.linkUp = true ∧ State.reset.owner = .fc ∧ State.reset.rxwin = [] ∧
        ([] : List Byte).length ≤ State.reset.params.maxRxPayload.toNat ∧
          State.reset.rxq.length < State.reset.params.rxqDepth.toNat) ∧
      full.linkUp = true ∧ full.owner = .fc ∧ full.rxwin = [] ∧ full.params.rxqDepth.toNat ≤ full.rxq.length := by decide

/-- FC-D2: a stray marker before FC-E4. -/
theorem test_witness_ResyncFindsTheNextFrame :
    let stream := [0x01] ++ encodeFrame Params.default 0x02 0x4000 [0xAA, 0x55] ++ []
    ([0xAA, 0x55] : List Byte).length ≤ Params.default.maxRxPayload.toNat ∧
      ∀ q : Nat, q < ([0x01] : List Byte).length → (stream.drop q).head? = some Params.default.startMarker →
        candidate Params.default (stream.drop q) ≠ .incomplete ∧
          ∀ f : Frame, candidate Params.default (stream.drop q) = .accepted f →
            q + (7 + f.payload.length) ≤ ([0x01] : List Byte).length := by
  refine ⟨by decide, fun q hq _ => ?_⟩
  have h0 : q = 0 := by simpa using hq
  subst h0
  have hc :
      candidate Params.default
          (([0x01] ++ encodeFrame Params.default 0x02 0x4000 [0xAA, 0x55] ++ []).drop 0) = .checksumMismatch := by
    decide
  rw [hc]
  exact ⟨by decide, fun f h => by cases h⟩

theorem test_witness_HandshakeStartsSending :
    (waiting.linkUp = true ∧ waiting.owner = .te ∧ waiting.teState = .awaitHandshake ∧ waiting.totalBlocks ≠ 0 ∧
        blockHeld waiting 1 [0x41]) ∧
      (emptyImage.linkUp = true ∧ emptyImage.owner = .te ∧ emptyImage.teState = .awaitHandshake ∧
          emptyImage.totalBlocks = 0) ∧
        (0x15 : Byte) ≠ 0x43 :=
  ⟨⟨rfl, rfl, rfl, by decide, rfl, holds (n := 1) rfl⟩, ⟨rfl, rfl, rfl, rfl⟩, by decide⟩

theorem test_witness_AckAdvancesToNextBlock :
    (twoBlocks.linkUp = true ∧ twoBlocks.owner = .te ∧ twoBlocks.teState = .sending ∧ twoBlocks.tePhase = .data ∧
        twoBlocks.curIndex.toNat < twoBlocks.totalBlocks.toNat ∧ blockHeld twoBlocks (twoBlocks.curIndex.toNat + 1) [0x42]) ∧
      sending.linkUp = true ∧ sending.owner = .te ∧ sending.teState = .sending ∧ sending.tePhase = .data ∧
        sending.totalBlocks.toNat ≤ sending.curIndex.toNat :=
  ⟨⟨rfl, rfl, rfl, rfl, by decide, rfl, holds (n := 1) rfl⟩, rfl, rfl, rfl, rfl, by decide⟩

theorem test_witness_AckOfEotCompletes :
    ending.linkUp = true ∧ ending.owner = .te ∧ ending.teState = .sending ∧ ending.tePhase = .eot := by decide

theorem test_witness_FailedAttempt :
    (failingReply .timeout ∧ failingReply (.rxByte 0x15)) ∧ (sending.linkUp = true ∧ sending.owner = .te) ∧
      sending.teState = .sending ∧ ({ sending with retriesLeft := 1 } : State).retriesLeft = 1 ∧
        (1 < ({ sending with retriesLeft := 2 } : State).retriesLeft.toNat ∧ sending.tePhase = .data ∧ sending.curIndex ≠ 0 ∧
            blockHeld sending sending.curIndex.toNat [0x41]) ∧
          1 < ({ ending with retriesLeft := 255 } : State).retriesLeft.toNat ∧ ending.tePhase = .eot :=
  ⟨⟨trivial, (by decide : (0x15 : Byte) ≠ 0x06)⟩, ⟨rfl, rfl⟩, rfl, rfl, ⟨by decide, rfl, by decide, rfl, holds (n := 1) rfl⟩, by decide, rfl⟩

theorem test_witness_HandshakeTimeoutAborts :
    waiting.teState = .awaitHandshake ∧ teOwns.teState ≠ .awaitHandshake ∧ teOwns.teState ≠ .sending := by decide

theorem test_witness_ByteWithNoSessionDiscarded :
    teOwns.linkUp = true ∧ teOwns.owner = .te ∧ teOwns.teState = .idle ∧
      ({ teOwns with teState := .complete } : State).teState = .complete ∧
        ({ teOwns with teState := .aborted } : State).teState = .aborted ∧
          ({ teOwns with teState := .cancelled } : State).teState = .cancelled := by decide

theorem test_witness_UnwrittenImageByteFaults :
    (waiting.linkUp = true ∧ waiting.owner = .te ∧ waiting.teState = .awaitHandshake ∧ waiting.totalBlocks ≠ 0 ∧
        firstMissing [(0, 0x41)] (blockStart 1) (blockBytesOf 2 1) 1) ∧
      (twoBlocks.teState = .sending ∧ twoBlocks.tePhase = .data ∧ twoBlocks.curIndex.toNat < twoBlocks.totalBlocks.toNat ∧
          firstMissing [] (blockStart (twoBlocks.curIndex.toNat + 1)) (blockBytesOf 129 (twoBlocks.curIndex.toNat + 1)) 0) ∧
        failingReply .timeout ∧ 1 < twoBlocks.retriesLeft.toNat ∧ twoBlocks.curIndex ≠ 0 ∧
          firstMissing twoBlocks.image (blockStart twoBlocks.curIndex.toNat) (blockBytesOf 129 twoBlocks.curIndex.toNat) 0 := by
  simp only [firstMissing, failingReply]; decide

theorem test_witness_RetryBoundLaw_next_block :
    twoHeld.linkUp = true ∧ twoHeld.owner = .te ∧ twoHeld.teState = .sending ∧ twoHeld.tePhase = .data ∧
      twoHeld.retriesLeft = twoHeld.retryLimit ∧ twoHeld.retryLimit ≠ 0 ∧ twoHeld.curIndex ≠ 0 ∧
        blockHeld twoHeld twoHeld.curIndex.toNat (List.replicate 128 0) ∧
          (∀ i ∈ List.replicate 9 (Instr.rxByte 0x15), failingReply i) ∧
            (List.replicate 9 (Instr.rxByte 0x15)).length < twoHeld.retryLimit.toNat ∧
              twoHeld.curIndex.toNat < twoHeld.totalBlocks.toNat ∧ blockHeld twoHeld (twoHeld.curIndex.toNat + 1) [0] := by
  refine ⟨rfl, rfl, rfl, rfl, rfl, by decide, by decide, ⟨by simp [blockBytesOf, blockStart, twoHeld, twoBlocks], ?_⟩,
    fun i hi => ?_, by decide, by decide, rfl, ?_⟩
  · exact holds_some (n := 128) (by decide +kernel)
  · rw [List.eq_of_mem_replicate hi]; exact (by decide : (0x15 : Byte) ≠ 0x06)
  · exact holds_some (n := 1) (by decide +kernel)

theorem test_witness_RetryBoundLaw_eot_and_abort :
    sending.linkUp = true ∧ sending.owner = .te ∧ sending.teState = .sending ∧ sending.tePhase = .data ∧
      sending.retriesLeft = sending.retryLimit ∧ sending.retryLimit ≠ 0 ∧ sending.curIndex ≠ 0 ∧
        blockHeld sending sending.curIndex.toNat [0x41] ∧ (∀ i ∈ List.replicate 10 Instr.timeout, failingReply i) ∧
          ([] : List Instr).length < sending.retryLimit.toNat ∧ sending.totalBlocks.toNat ≤ sending.curIndex.toNat ∧
            (List.replicate 10 Instr.timeout).length = sending.retryLimit.toNat := by
  refine ⟨rfl, rfl, rfl, rfl, rfl, by decide, by decide, ⟨rfl, holds (n := 1) rfl⟩, fun i hi => ?_, by decide, by decide, rfl⟩
  rw [List.eq_of_mem_replicate hi]; exact trivial

theorem test_witness_EndToEndTransfer :
    (teOwns.linkUp = true ∧ teOwns.owner = .te ∧ teOwns.teState ≠ .awaitHandshake ∧ teOwns.teState ≠ .sending ∧
        holdsImage teOwns [] ∧ teOwns.imgLen.toNat ≤ teOwns.params.imageMax.toNat ∧ ([] : List Byte).length ≤ 128 * 0 ∧
          128 * 0 < ([] : List Byte).length + 128) ∧
      holdsImage { teOwns with imgLen := 1, image := [(0, 0x41)] } [0x41] ∧ ([0x41] : List Byte).length ≤ 128 * 1 ∧
        128 * 1 < ([0x41] : List Byte).length + 128 :=
  ⟨⟨rfl, rfl, by decide, by decide, ⟨rfl, holds (n := 0) rfl⟩, by decide, by decide, by decide⟩, ⟨rfl, holds (n := 1) rfl⟩,
    by decide, by decide⟩

theorem test_witness_TerminalEntrySetsTeDone :
    ∃ t, exec (.rxByte 0x06) ending = .next t ∧ ending.teState.terminal = false ∧ t.teState.terminal = true :=
  ⟨_, rfl, rfl, rfl⟩

theorem test_witness_ReceivedByteGoesToOneUnit :
    ({ State.reset with linkUp := false } : State).linkUp = false ∧
      (∃ t, exec (.rxByte 0x55) State.reset = .next t ∧ State.reset.owner = .fc) ∧
        ∃ t, exec (.rxByte 0x06) ending = .next t ∧ ending.owner = .te := ⟨rfl, ⟨_, rfl, rfl⟩, _, rfl, rfl⟩

theorem test_witness_PortFaultAbortsSession :
    ({ State.reset with linkUp := false } : State).linkUp = false ∧
      (State.reset.linkUp = true ∧ State.reset.teState ≠ .awaitHandshake ∧ State.reset.teState ≠ .sending) ∧
        ending.linkUp = true ∧ (ending.teState = .awaitHandshake ∨ ending.teState = .sending) := by decide

theorem test_witness_PortReopenOpensLink :
    ({ State.reset with linkUp := false } : State).linkUp = false ∧ State.reset.linkUp = true := by decide

theorem test_witness_ReplySymbolsAreReceivedBytes :
    (ending.linkUp = true ∧ ending.owner = .te ∧ ending.teState = .sending ∧ ending.tePhase = .eot ∧
        1 < ending.retriesLeft.toNat) ∧
      waiting.linkUp = true ∧ waiting.owner = .te ∧ waiting.teState = .awaitHandshake ∧ waiting.totalBlocks ≠ 0 ∧
        blockHeld waiting 1 [0x41] :=
  ⟨by decide, rfl, rfl, rfl, by decide, rfl, holds (n := 1) rfl⟩

theorem test_witness_DepartingFormatsReachTxlog_first_block :
    waiting.linkUp = true ∧ waiting.owner = .te ∧ waiting.teState = .awaitHandshake ∧ waiting.totalBlocks ≠ 0 ∧
      blockHeld waiting 1 [0x41] :=
  ⟨rfl, rfl, rfl, by decide, rfl, holds (n := 1) rfl⟩

theorem test_witness_DepartingFormatsReachTxlog_next_block :
    twoBlocks.linkUp = true ∧ twoBlocks.owner = .te ∧ twoBlocks.teState = .sending ∧ twoBlocks.tePhase = .data ∧
      twoBlocks.curIndex.toNat < twoBlocks.totalBlocks.toNat ∧ blockHeld twoBlocks (twoBlocks.curIndex.toNat + 1) [0x42] :=
  ⟨rfl, rfl, rfl, rfl, by decide, rfl, holds (n := 1) rfl⟩

theorem test_witness_DepartingFormatsReachTxlog_same_block :
    sending.linkUp = true ∧ sending.owner = .te ∧ sending.teState = .sending ∧ sending.tePhase = .data ∧
      1 < sending.retriesLeft.toNat ∧ blockHeld sending sending.curIndex.toNat [0x41] :=
  ⟨rfl, rfl, rfl, rfl, by decide, rfl, holds (n := 1) rfl⟩

theorem test_witness_DepartingFormatsReachTxlog_eot :
    (emptyImage.linkUp = true ∧ emptyImage.owner = .te ∧ emptyImage.teState = .awaitHandshake ∧ emptyImage.totalBlocks = 0) ∧
      (sending.linkUp = true ∧ sending.owner = .te ∧ sending.teState = .sending ∧ sending.tePhase = .data ∧
        sending.totalBlocks.toNat ≤ sending.curIndex.toNat) ∧
      ending.linkUp = true ∧ ending.owner = .te ∧ ending.teState = .sending ∧ ending.tePhase = .eot ∧
        1 < ending.retriesLeft.toNat := by decide

theorem test_witness_DepartingFormatsReachTxlog_session :
    (∃ t, exec .eot ending = .next t) ∧ (waiting.teState = .awaitHandshake ∨ waiting.teState = .sending) ∧
      teOwns.teState ≠ .awaitHandshake ∧ teOwns.teState ≠ .sending ∧ (List.replicate 128 (0 : Byte)).length = 128 :=
  ⟨⟨_, rfl⟩, by decide, by decide, by decide, by simp⟩

set_option maxRecDepth 100000 in
/-- A block that departs: TE-6. -/
theorem test_witness_DepartingFormatsReachTxlog_departs :
    (field (·.curIndex) (exec (.block 1 (0x41 :: List.replicate 127 0x1A)) waiting)) = some 1 := by decide +kernel

theorem test_witness_ReadFrameCodecRegisters :
    ({ State.reset with rxq := List.replicate 255 f3 } : State).rxq.length ≤ 255 ∧ State.reset.rxq.length ≤ 255 :=
  ⟨Nat.le_of_eq List.length_replicate, by decide⟩

theorem test_witness_ReadTransferEngineRegisters :
    (0x0C : Byte) ∈ ([0x0C, 0x1C, 0x38, 0x3C, 0x6C, 0x74] : List Byte) := by decide

theorem test_witness_WriteLockedRegisters :
    ((waiting.teState = .awaitHandshake ∨ waiting.teState = .sending) ∧
        (0x60 : Byte) ∈ ([0x44, 0x54, 0x58, 0x5C, 0x60] : List Byte)) ∧
      teOwns.teState ≠ .awaitHandshake ∧ teOwns.teState ≠ .sending := by decide

theorem test_witness_IrqPendingWriteOneClears : (1 ≤ 1 ∧ 1 ≤ 5) ∧ (1 ≤ 5 ∧ 5 ≤ 5) := by decide

theorem test_witness_ReadOnlyWritesIgnored :
    (0x74 : Byte) ∈
      ([0x04, 0x08, 0x0C, 0x1C, 0x20, 0x24, 0x28, 0x2C, 0x30, 0x38, 0x3C, 0x40, 0x48, 0x4C, 0x50, 0x64, 0x68, 0x6C, 0x70,
        0x74] : List Byte) := by decide

theorem test_witness_BufferWriteStoresOneByte :
    ((1048575 : Word).toNat < spaceSize sending.params .image ∧ (sending.teState = .awaitHandshake ∨ sending.teState = .sending)) ∧
      (65534 : Word).toNat < spaceSize State.reset.params .rxbuf ∧
        (132 : Word).toNat < spaceSize State.reset.params .vbuf ∧
          (0 : Word).toNat < spaceSize teOwns.params .image ∧ teOwns.teState ≠ .awaitHandshake ∧ teOwns.teState ≠ .sending := by
  decide

theorem test_witness_BufferReadReturnsByte :
    ((1 : Word).toNat < spaceSize oneByteFrame.params .txbuf ∧
        Memory.read (oneByteFrame.buffer .txbuf) (1 : Word).toNat = some 0x55) ∧
      (2 : Word).toNat < spaceSize oneByteFrame.params .txbuf ∧
        Memory.read (oneByteFrame.buffer .txbuf) (2 : Word).toNat = none := by decide

theorem test_witness_NonexistentAccessesRefused :
    ((0x7E : Byte).toNat % 4 ≠ 0 ∨ 128 ≤ (0x7E : Byte).toNat) ∧ ((0x80 : Byte).toNat % 4 ≠ 0 ∨ 128 ≤ (0x80 : Byte).toNat) ∧
      spaceSize State.reset.params .vbuf ≤ (133 : Word).toNat ∧
        spaceSize State.reset.params .image ≤ (1048576 : Word).toNat := by decide

/-- A session in good order with an ACK pending. -/
theorem test_witness_StepKeepsInvariant :
    ∃ t, StateInv { sending with pending := [ackPacket] } ∧ step { sending with pending := [ackPacket] } = .next t :=
  ⟨_,
    { params := by decide
      buffers := by decide
      queue := by decide
      window := by decide
      owned := by decide
      notInit := by decide
      retryLimit := by decide
      session := by decide
      position := by decide
      error := rfl
      verify := rfl },
    rfl⟩

theorem test_witness_TxlogIsAppendOnly : ∃ t, exec .reset { sending with txlog := [0x18] } = .next t := ⟨_, rfl⟩

theorem test_witness_PortChangesOnlyByItsRules :
    (∃ t, exec .portGrantTe State.reset = .next t ∧ t.owner ≠ State.reset.owner) ∧
      ∃ t, exec .portFault State.reset = .next t ∧ t.linkUp ≠ State.reset.linkUp :=
  ⟨⟨_, rfl, by decide⟩, _, rfl, by decide⟩

theorem test_witness_ResultChangesOnlyByCommands :
    ∃ t, exec (.regWr 0x00 0x04) State.reset = .next t ∧ t.result ≠ State.reset.result := ⟨_, rfl, by decide⟩

theorem test_witness_SessionConfigurationIsStable :
    ∃ t, exec (.regWr 0x44 5) waiting = .next t ∧ waiting.teState.active = true ∧ t.teState.active = true :=
  ⟨_, rfl, rfl, rfl⟩

theorem test_witness_FaultNamesByteWithNoValue :
    exec .blockVerify State.reset = .fault (.uninitByte .vbuf 0) := rfl

theorem test_witness_BuffersChangeOnlyByStores :
    ∃ t, exec (.rxByte 0x55) State.reset = .next t ∧ (∀ (sp : Space) (a : Word) (b : Byte), Instr.rxByte 0x55 ≠ .bufWr sp a b) ∧
      Instr.rxByte 0x55 ≠ .fcRxPop ∧ Instr.rxByte 0x55 ≠ .reset ∧
        ∀ v : Word, v.extractLsb' 0 8 = 0x02 → Instr.rxByte 0x55 ≠ .regWr 0x00 v :=
  ⟨_, rfl, by simp, by simp, by simp, by simp⟩

end Sys2Proof.Tests
end

section
/-! The statements of 00_scope.md: what a step runs, and that every change of the block is a step of an agent. -/

namespace Sys2Proof.Machine

/-! ### What `step` does, by what is pending -/

theorem State.consume_eq (s : State) (lane : Lane) (rest : List Byte) (more : List Packet) :
    s.consume lane rest more =
      { s with pending := if rest = [] then more else { lane := lane, bytes := rest } :: more } := by
  cases rest <;> rfl

theorem step_idle {s : State} (h : s.pending = []) : step s = .next s := by
  simp [step, fetch, h]

theorem step_decoded {s : State} {pk : Packet} {more : List Packet} {i : Instr} {rest : List Byte}
    (hp : s.pending = pk :: more) (hd : decode s.params pk = .ok (i, rest)) :
    step s = exec i (s.consume pk.lane rest more) := by
  simp [step, fetch, hp, hd]

theorem step_undecodable {s : State} {pk : Packet} {more : List Packet} {e : DecodeError}
    (hp : s.pending = pk :: more) (hd : decode s.params pk = .error e) :
    step s = .refused (.undecodable e) := by
  simp [step, fetch, hp, hd]

/-! ### The step of an agent behind each other instruction (30_encoding.md R84) -/

/-- A write of CMD runs the command that its low byte selects (10_state.md R26). -/
theorem exec_regWr_cmd {c : Command} {v : Word} (h : v.extractLsb' 0 8 = c.opcode) (s : State) :
    exec (.regWr 0x00 v) s = exec c.toInstr s := by
  change runOpcode (v.setWidth 8) s = _
  rw [setWidth_eq_low, h, runOpcode, Command.ofOpcode?_opcode]
  cases c <;> rfl

theorem agentStep_of_command (c : Command) {s t : State} (h : exec c.toInstr s = .next t) :
    ∃ j, agentStep j ∧ exec j s = .next t :=
  have low : (c.opcode.setWidth 32).extractLsb' 0 8 = c.opcode := by cases c <;> rfl
  ⟨.regWr 0x00 (c.opcode.setWidth 32), trivial, (exec_regWr_cmd low s).trans h⟩

theorem agentStep_of_receiveByte {b : Byte} {s t : State} (h : receiveByte b s = .next t) :
    ∃ j, agentStep j ∧ exec j s = .next t :=
  ⟨.rxByte b, trivial, h⟩

/-- What TE transmits, it transmits inside the RX_BYTE of one of the candidate bytes (10_state.md R20). -/
theorem agentStep_of_transmittedOn {bs cs : List Byte} {s t : State} (h : transmittedOn bs cs s = .next t) :
    ∃ j, agentStep j ∧ exec j s = .next t :=
  have ⟨_, _, hb, _⟩ := transmittedOn_next h
  agentStep_of_receiveByte hb

theorem execBlock_next {blk : Byte} {payload : List Byte} {s t : State} (h : execBlock blk payload s = .next t) :
    blockPayloadOk payload = true ∧ transmittedOn (encodeBlock blk payload) replies s = .next t := by
  unfold execBlock at h
  split at h
  · cases h
  · next hp => exact ⟨by simpa using hp, h⟩

/-! ### A FRAME expands to steps of agents (30_encoding.md R93) -/

theorem agentStep_bufWrites (space : Space) (a : Nat) (bs : List Byte) : ∀ j ∈ bufWrites space a bs, agentStep j := by
  induction bs generalizing a with
  | nil => simp [bufWrites]
  | cons b bs ih => exact List.forall_mem_cons.2 ⟨trivial, ih (a + 1)⟩

theorem agentStep_rxframeSteps (p : Params) (id : Byte) (type : Half) (payload : List Byte) :
    ∀ j ∈ rxframeSteps p id type payload, agentStep j :=
  List.forall_mem_map.2 fun _ _ => trivial

theorem agentStep_sendSteps (id : Byte) (type : Half) (payload : List Byte) :
    ∀ j ∈ sendSteps id type payload, agentStep j :=
  List.forall_mem_append.2 ⟨agentStep_bufWrites .txbuf 0 payload, by simp [agentStep]⟩

theorem execFrame_next {dir : Direction} {id : Byte} {type : Half} {payload : List Byte} {s t : State}
    (h : execFrame dir id type payload s = .next t) :
    ∃ steps : List Instr, (∀ j ∈ steps, agentStep j) ∧ t = expand steps s := by
  unfold execFrame at h
  split at h
  · cases h
  · cases dir with
    | rx => cases h; exact ⟨_, agentStep_rxframeSteps s.params id type payload, rfl⟩
    | tx => cases h; exact ⟨_, agentStep_sendSteps id type payload, rfl⟩

/-- Where the next state of any instruction comes from: a step of an agent, or a FRAME that queues such steps. -/
theorem exec_next_agentStep_or_frame {i : Instr} {s t : State} (h : exec i s = .next t) :
    (∃ j, agentStep j ∧ exec j s = .next t) ∨
      ∃ (dir : Direction) (id : Byte) (type : Half) (payload : List Byte) (steps : List Instr),
        i = .frame dir id type payload ∧ (∀ j ∈ steps, agentStep j) ∧ t = expand steps s := by
  cases i with
  | rxByte | timeout | portFault | portReopen | reset | regWr | regRd | bufWr | bufRd => exact .inl ⟨_, by trivial, h⟩
  | nop => exact .inl (agentStep_of_command .nop h)
  | fcSend => exact .inl (agentStep_of_command .fcSend h)
  | fcRxPop => exact .inl (agentStep_of_command .fcRxPop h)
  | fcRxRestart => exact .inl (agentStep_of_command .fcRxRestart h)
  | portGrantTe => exact .inl (agentStep_of_command .portGrantTe h)
  | portReturnFc => exact .inl (agentStep_of_command .portReturnFc h)
  | teStart => exact .inl (agentStep_of_command .teStart h)
  | teCancel | canCan => exact .inl (agentStep_of_command .teCancel h)
  | blockVerify => exact .inl (agentStep_of_command .blockVerify h)
  | ack | nak | handshakeC => exact .inl (agentStep_of_receiveByte h)
  | eot => exact .inl (agentStep_of_transmittedOn h)
  | block => exact .inl (agentStep_of_transmittedOn (execBlock_next h).2)
  | frame dir id type payload =>
    obtain ⟨steps, hs, ht⟩ := execFrame_next h
    exact .inr ⟨dir, id, type, payload, steps, rfl, hs, ht⟩

/-! ### The statements -/

/-- Settles O6: commands are writes of CMD, wire symbols are received bytes, and a FRAME only queues steps. -/
theorem noStepWithoutAnAgent : Obligations.NoStepWithoutAnAgent :=
  ⟨fun _ => step_idle, fun _ _ _ _ => step_undecodable, fun _ _ _ => exec_next_agentStep_or_frame⟩

/-- Settles O5, by what `fetch` answers for a packet that decodes. -/
theorem stepRunsDecodedInstruction : Obligations.StepRunsDecodedInstruction := by
  intro s pk more i rest hp hd
  rw [step_decoded hp hd, State.consume_eq]

end Sys2Proof.Machine
end

section
/-! What each instruction can do when it gives a next state: one inversion for each command, host access and event. -/

namespace Sys2Proof.Machine

variable {s t : State}

/-! ### Commands -/

theorem execFcSend_next (h : execFcSend s = .next t) :
    (∃ c, t = { s with result := c }) ∨
      (s.owner = .fc ∧ s.linkUp = true ∧
        ∃ payload, memRead .txbuf s.txbuf 0 s.txLen.toNat = .ok payload ∧
          t = { txEmit (encodeFrame s.params s.txId s.txType payload) s with result := .ok }) := by
  unfold execFcSend at h
  split at h
  · exact .inl ⟨_, (finish_eq_next.1 h).symm⟩
  next ho =>
  split at h
  · exact .inl ⟨_, (finish_eq_next.1 h).symm⟩
  next hl =>
  obtain ⟨payload, hread, h⟩ := withBytes_eq_next h
  exact .inr ⟨by simpa using ho, by simpa using hl, payload, hread, (finish_eq_next.1 h).symm⟩

theorem execFcRxPop_next (h : execFcRxPop s = .next t) :
    (∃ c, t = { s with result := c }) ∨
      ∃ f rest, s.rxq = f :: rest ∧
        t =
          { s with
            rxq := rest
            rxId := f.id
            rxType := f.type
            rxLen := BitVec.ofNat 16 f.payload.length
            rxCsum := f.checksum
            rxbuf := Memory.writeAll s.rxbuf 0 f.payload
            result := .ok } := by
  unfold execFcRxPop at h
  split at h
  · exact .inl ⟨_, (finish_eq_next.1 h).symm⟩
  · next f rest hq => exact .inr ⟨f, rest, hq, (finish_eq_next.1 h).symm⟩

theorem execPortGrantTe_next (h : execPortGrantTe s = .next t) :
    (∃ c, t = { s with result := c }) ∨
      (s.owner = .fc ∧ t = { s with rxwin := [], owner := .te, result := .ok }) := by
  unfold execPortGrantTe at h
  split at h
  · exact .inl ⟨_, (finish_eq_next.1 h).symm⟩
  · next ho => exact .inr ⟨ho, (finish_eq_next.1 h).symm⟩

theorem execPortReturnFc_next (h : execPortReturnFc s = .next t) :
    (∃ c, t = { s with result := c }) ∨
      (s.teState.active = false ∧ s.owner = .te ∧ t = { s with rxwin := [], owner := .fc, result := .ok }) := by
  unfold execPortReturnFc at h
  split at h
  · exact .inl ⟨_, (finish_eq_next.1 h).symm⟩
  · next ha =>
    split at h
    · exact .inl ⟨_, (finish_eq_next.1 h).symm⟩
    · next ho => exact .inr ⟨by simpa using ha, ho, (finish_eq_next.1 h).symm⟩

theorem execTeStart_next (h : execTeStart s = .next t) :
    (∃ c, t = { s with result := c }) ∨
      (s.teState.active = false ∧ s.owner = .te ∧ s.linkUp = true ∧ s.imgLen ≤ s.params.imageMax ∧
        t =
          { s with
            totalBlocks := blockCount s.imgLen
            curIndex := 0
            progress := 0
            retriesLeft := s.retryLimit
            tePhase := .data
            teErr := { kind := .none, phase := .none, block := 0, retries := 0 }
            teState := .awaitHandshake
            result := .ok }) := by
  have failed {c : ResultCode} (h : finish c s = .next t) : ∃ c, t = { s with result := c } :=
    ⟨c, (finish_eq_next.1 h).symm⟩
  unfold execTeStart at h
  split at h
  · exact .inl (failed h)
  next ha =>
  split at h
  · exact .inl (failed h)
  next ho =>
  split at h
  · exact .inl (failed h)
  next hl =>
  split at h
  · exact .inl (failed h)
  next hlen =>
  exact
    .inr ⟨by simpa using ha, by simpa using ho, by simpa using hl, BitVec.not_lt.1 hlen, (finish_eq_next.1 h).symm⟩

theorem cancelSession_next (h : cancelSession s = .next t) :
    (∃ c, t = { s with result := c }) ∨
      (s.teState.active = true ∧
        t =
          { endWithError .transferCancelled (wireNumber s.curIndex) (failedSoFar s) .cancelled
              (txEmit [0x18, 0x18] s) with
            result := .ok }) := by
  unfold cancelSession at h
  split at h
  · next ha => exact .inr ⟨ha, (finish_eq_next.1 h).symm⟩
  · exact .inl ⟨_, (finish_eq_next.1 h).symm⟩

theorem execBlockVerify_next (h : execBlockVerify s = .next t) :
    ∃ v, memRead .vbuf s.vbuf 0 133 = .ok v ∧ t = { s with verify := verifyBytes v, result := .ok } := by
  obtain ⟨v, hread, h⟩ := withBytes_eq_next h
  exact ⟨v, hread, (finish_eq_next.1 h).symm⟩

/-! ### Events of the link -/

/-- Everything a port fault can do (41_control.md R149). -/
theorem execPortFault_next (h : execPortFault s = .next t) :
    s.linkUp = true ∧
      ((s.teState.active = false ∧ t = { s with linkUp := false, irq := { s.irq with portErr := true }, rxwin := [] }) ∨
        (s.teState.active = true ∧
          t =
            endWithError .portError (wireNumber s.curIndex) (failedSoFar s) .aborted
              { s with linkUp := false, irq := { s.irq with portErr := true }, rxwin := [] })) := by
  unfold execPortFault at h
  split at h
  · cases h
  · next hl =>
    refine ⟨by simpa using hl, ?_⟩
    split at h
    · next ha => exact .inr ⟨ha, by simpa using h.symm⟩
    · next ha => exact .inl ⟨by simpa using ha, by simpa using h.symm⟩

theorem execPortReopen_next (h : execPortReopen s = .next t) :
    s.linkUp = false ∧ t = { s with linkUp := true, rxwin := [] } := by
  unfold execPortReopen at h
  split at h
  · cases h
  · next hl => exact ⟨by simpa using hl, by simpa using h.symm⟩

/-! ### Host access -/

theorem execRegRd_next {off : Byte} (h : execRegRd off s = .next t) : ∃ v, t = answer v s := by
  unfold execRegRd at h
  split at h
  · cases h
  · exact ⟨_, by simpa using h.symm⟩

theorem execBufWr_next {sp : Space} {a : Word} {b : Byte} (h : execBufWr sp a b s = .next t) :
    a.toNat < spaceSize s.params sp ∧
      ((writeIgnored sp s = true ∧ t = s) ∨
        (writeIgnored sp s = false ∧ t = s.withBuffer sp (Memory.write (s.buffer sp) a.toNat b))) := by
  unfold execBufWr at h
  split at h
  · cases h
  · next ha =>
    refine ⟨Nat.not_le.1 ha, ?_⟩
    split at h
    · next hi => exact .inl ⟨hi, by simpa using h.symm⟩
    · next hi => exact .inr ⟨by simpa using hi, by simpa using h.symm⟩

theorem execBufRd_next {sp : Space} {a : Word} (h : execBufRd sp a s = .next t) :
    ∃ (v : Word) (n : Nat), t = answer v { s with draws := n } := by
  unfold execBufRd at h
  split at h
  · cases h
  · split at h
    · exact ⟨_, s.draws, by simpa using h.symm⟩
    · exact ⟨_, _, by simpa using h.symm⟩

/-! ### The next pending step -/

theorem step_next (h : step s = .next t) :
    t = s ∨ ∃ (i : Instr) (q : List Packet), exec i { s with pending := q } = .next t := by
  unfold step at h
  split at h
  · exact .inl (by simpa using h.symm)
  · next i u hf =>
    unfold fetch at hf
    split at hf
    · cases hf
    · split at hf
      · cases hf
        rw [State.consume_eq] at h
        exact .inr ⟨i, _, h⟩
      · cases hf
  · cases h

end Sys2Proof.Machine
end

section
/-! The invariant of the machine: one lemma per shared operation, then per instruction, then for every step. -/

namespace Sys2Proof.Machine

section

variable {s t : State}

/-! ### Buffers, queue and window -/

/-- One byte written inside a buffer. -/
theorem StateInv.bufferWrite (h : StateInv s) (sp : Space) (a : Nat) (b : Byte) (ha : a < spaceSize s.params sp) :
    StateInv (s.withBuffer sp (Memory.write (s.buffer sp) a b)) := by
  have ok : bufferOk s sp → bufferOk (s.withBuffer sp (Memory.write (s.buffer sp) a b)) sp := by
    rintro ⟨hwf, hin⟩
    simp only [bufferOk, State.withBuffer_buffer, State.withBuffer_params]
    refine ⟨Memory.write_wf hwf a b, fun c hc => ?_⟩
    rcases Memory.mem_write hc with rfl | hc
    · exact ha
    · exact hin c hc
  obtain ⟨htx, hrx, him, hv⟩ := h.buffers
  cases sp with
  | txbuf => exact { h with buffers := ⟨ok htx, hrx, him, hv⟩ }
  | rxbuf => exact { h with buffers := ⟨htx, ok hrx, him, hv⟩ }
  | image => exact { h with buffers := ⟨htx, hrx, ok him, hv⟩ }
  | vbuf => exact { h with buffers := ⟨htx, hrx, him, ok hv⟩ }

/-- The window that a scan leaves is within its bound (40_frame_codec.md R128). -/
theorem scan_windowOk (p : Params) (win : List Byte) : windowOk p (scan p win).window := by
  induction hn : win.length using Nat.strongRecOn generalizing win with
  | ind n ih =>
    cases win with
    | nil => exact .inl rfl
    | cons b rest =>
      simp only [List.length_cons] at hn
      by_cases hb : b = p.startMarker
      · subst hb
        rcases candidate_cases p (p.startMarker :: rest) with ⟨h, hlen⟩ | h | h | ⟨f, h, -, -⟩
        · rw [scan_incomplete p rest h]; exact .inr ⟨rfl, hlen⟩
        · rw [scan_rejected p rest (.inl h)]; exact ih rest.length (by omega) rest rfl
        · rw [scan_rejected p rest (.inr h)]; exact ih rest.length (by omega) rest rfl
        · rw [scan_accepted p rest f h]; exact ih _ (by rw [List.length_drop]; omega) _ rfl
      · rw [scan_garbage p b _ hb]; exact ih rest.length (by omega) rest rfl

/-- A byte received by FC, which owns an open link (40_frame_codec.md R115). -/
theorem StateInv.fcReceive (h : StateInv s) (b : Byte) (hl : s.linkUp = true) (ho : s.owner = .fc) :
    StateInv (fcReceive b s) := by
  obtain ⟨hlen, hframes⟩ := h.queue
  rw [fcReceive_eq, deliver_foldl_eq]
  refine
    { h with
      queue := ⟨?_, fun f hf => ?_⟩
      window := scan_windowOk s.params (s.rxwin ++ [b])
      owned := fun hclosed => ?_ }
  · simp only [List.length_append, List.length_take, countErrors_rxq, countErrors_params]; omega
  · rcases List.mem_append.1 hf with hf | hf
    · exact hframes f hf
    · exact scan_frameOk s.params _ f (List.mem_of_mem_take hf)
  · simp [hl, ho] at hclosed

/-! ### The session -/

theorem StateInv.retryLimit_pos (h : StateInv s) : 0 < s.retryLimit := by
  have := h.retryLimit
  bv_omega

/-- No error is recorded while a session goes on (60_exceptions.md R232). -/
theorem StateInv.noError (h : StateInv s) (ha : s.teState.active = true) :
    s.teErr = { kind := .none, phase := .none, block := 0, retries := 0 } := by
  have he := h.error
  rcases (active_iff s.teState).1 ha with hs | hs <;> simpa only [errorOk, hs] using he

/-- An error ends the session in the terminal state that its kind belongs to (60_exceptions.md R232). -/
theorem StateInv.endWithError (h : StateInv s) {k : ErrKind} {st : TeState} (bl re : Byte)
    (hk : (st = .aborted ∧ (k = .handshakeTimeout ∨ k = .blockRetryExhausted ∨ k = .portError)) ∨
      (st = .cancelled ∧ k = .transferCancelled)) :
    StateInv (endWithError k bl re st s) := by
  rcases hk with ⟨rfl, hk⟩ | ⟨rfl, hk⟩
  all_goals
    exact
      { h with
        notInit := by simp
        session := by simp [sessionOk, TeState.active]
        position := by simp [positionOk]
        error := hk }

/-- 'C' in AWAIT_HANDSHAKE (43_transfer_engine.md R186). -/
theorem StateInv.teHandshake (h : StateInv s) (hs : s.teState = .awaitHandshake) (ht : teHandshake s = .next t) :
    StateInv t := by
  have ha : s.teState.active = true := by rw [hs]; rfl
  obtain ⟨hwaiting, -⟩ := h.position
  obtain ⟨hcur, hprog⟩ := hwaiting hs
  obtain ⟨ho, hl, hlen, hn, -, -⟩ := h.session ha
  rcases teHandshake_next ht with ⟨h0, rfl⟩ | ⟨h0, bs, -, rfl⟩
  · exact
      { h with
        notInit := by simp
        session := fun _ => ⟨ho, hl, hlen, hn, h.retryLimit_pos, BitVec.le_refl _⟩
        position := by simp [positionOk, hcur, hprog, h0]
        error := h.noError ha }
  · exact
      { h with
        notInit := by simp
        session := fun _ => ⟨ho, hl, hlen, hn, h.retryLimit_pos, BitVec.le_refl _⟩
        position := by
          have : (1 : Word) ≤ s.totalBlocks := by bv_omega
          simpa [positionOk, hprog] using this
        error := h.noError ha }

/-- ACK in the DATA phase (43_transfer_engine.md R187). -/
theorem StateInv.teAckData (h : StateInv s) (hs : s.teState = .sending) (hp : s.tePhase = .data)
    (ht : teAckData s = .next t) : StateInv t := by
  have ha : s.teState.active = true := by rw [hs]; rfl
  obtain ⟨-, hdata, -⟩ := h.position
  obtain ⟨hpos, hle, -⟩ := hdata hs hp
  obtain ⟨ho, hl, hlen, hn, -, -⟩ := h.session ha
  rcases teAckData_next ht with ⟨hlt, bs, -, rfl⟩ | ⟨hge, rfl⟩
  · exact
      { h with
        session := fun _ => ⟨ho, hl, hlen, hn, h.retryLimit_pos, BitVec.le_refl _⟩
        position := by
          have : 0 < s.curIndex + 1 ∧ s.curIndex + 1 ≤ s.totalBlocks := by bv_omega
          simpa [positionOk, hs, hp] using this }
  · exact
      { h with
        session := fun _ => ⟨ho, hl, hlen, hn, h.retryLimit_pos, BitVec.le_refl _⟩
        position := by
          have : s.curIndex = s.totalBlocks := by bv_omega
          simp [positionOk, hs, this] }

/-- A failed attempt (43_transfer_engine.md R191). -/
theorem StateInv.teFailedAttempt (h : StateInv s) (hs : s.teState = .sending) (ht : teFailedAttempt s = .next t) :
    StateInv t := by
  obtain ⟨ho, hl, hlen, hn, hpos, hle⟩ := h.session (by rw [hs]; rfl)
  have spent (hne : s.retriesLeft - 1 ≠ 0) (log : List Byte) :
      StateInv { s with retriesLeft := s.retriesLeft - 1, txlog := log } :=
    { h with session := fun _ => ⟨ho, hl, hlen, hn, by bv_omega, by bv_omega⟩ }
  rcases teFailedAttempt_next ht with ⟨-, rfl⟩ | ⟨hne, -, bs, -, rfl⟩ | ⟨hne, -, rfl⟩
  · exact
      { h.endWithError _ _ (.inl ⟨rfl, .inr (.inl rfl)⟩) with session := by simp [sessionOk, TeState.active] }
  · exact spent hne _
  · exact spent hne _

/-- ACK in the EOT phase (43_transfer_engine.md R188). -/
theorem StateInv.complete (h : StateInv s) (hs : s.teState = .sending) (hp : s.tePhase = .eot) :
    StateInv (enterTerminal .complete s) := by
  obtain ⟨-, -, heot, -⟩ := h.position
  exact
    { h with
      notInit := by simp
      session := by simp [sessionOk, TeState.active]
      position := by simpa [positionOk] using heot hs hp
      error := h.noError (by rw [hs]; rfl) }

theorem StateInv.teReceive (h : StateInv s) {b : Byte} (ht : teReceive b s = .next t) : StateInv t := by
  rcases teReceive_next ht with rfl | ⟨hs, -, ht⟩ | ⟨hs, hp, -, ht⟩ | ⟨hs, hp, -, rfl⟩ | ⟨hs, -, ht⟩
  · exact h
  · exact h.teHandshake hs ht
  · exact h.teAckData hs hp ht
  · exact h.complete hs hp
  · exact h.teFailedAttempt hs ht

/-! ### Events -/

theorem StateInv.receiveByte (h : StateInv s) {b : Byte} (ht : receiveByte b s = .next t) : StateInv t := by
  obtain ⟨hl, ⟨ho, rfl⟩ | ⟨-, ht⟩⟩ := receiveByte_next ht
  · exact h.fcReceive b hl ho
  · exact h.teReceive ht

theorem StateInv.timeout (h : StateInv s) (ht : execTimeout s = .next t) : StateInv t := by
  rcases execTimeout_next ht with ⟨-, rfl⟩ | ⟨hs, ht⟩
  · exact h.endWithError 0 0 (.inl ⟨rfl, .inl rfl⟩)
  · exact h.teFailedAttempt hs ht

theorem StateInv.portFault (h : StateInv s) (ht : execPortFault s = .next t) : StateInv t := by
  obtain ⟨-, ⟨ha, rfl⟩ | ⟨-, rfl⟩⟩ := execPortFault_next ht
  · exact { h with window := .inl rfl, owned := fun _ => rfl, session := by simp [sessionOk, ha] }
  · exact
      { h.endWithError _ _ (.inl ⟨rfl, .inr (.inr rfl)⟩) with
        window := .inl rfl
        owned := fun _ => rfl
        session := by simp [sessionOk, TeState.active] }

theorem StateInv.portReopen (h : StateInv s) (ht : execPortReopen s = .next t) : StateInv t := by
  obtain ⟨hl, rfl⟩ := execPortReopen_next ht
  have inactive (ha : s.teState.active = true) : False := by
    obtain ⟨-, hup, -⟩ := h.session ha
    simp [hl] at hup
  exact { h with window := .inl rfl, owned := fun _ => rfl, session := fun ha => (inactive ha).elim }

/-- The registers at their reset values, whatever the parameters and the model's own fields (70_reset_and_hazards.md R260). -/
theorem stateInv_reset (p : Params) (hp : p.wf) (log : List Byte) (q : List Packet) (v : Word) (n : Nat) :
    StateInv { State.reset with params := p, txlog := log, pending := q, readData := v, draws := n } where
  params := hp
  buffers := by simp [buffersOk, bufferOk, State.buffer, State.reset]
  queue := by simp [queueOk, State.reset]
  window := .inl rfl
  owned := fun _ => rfl
  notInit := by simp [State.reset]
  retryLimit := by simp [State.reset]
  session := by simp [sessionOk, State.reset, TeState.active]
  position := by simp [positionOk, State.reset]
  error := rfl
  verify := rfl

/-! ### Commands -/

theorem StateInv.withResult (h : StateInv s) (c : ResultCode) : StateInv { s with result := c } := { h with }

theorem StateInv.fcSend (h : StateInv s) (ht : execFcSend s = .next t) : StateInv t := by
  rcases execFcSend_next ht with ⟨c, rfl⟩ | ⟨-, -, payload, -, rfl⟩
  · exact h.withResult c
  · exact { h with }

theorem StateInv.fcRxPop (h : StateInv s) (ht : execFcRxPop s = .next t) : StateInv t := by
  rcases execFcRxPop_next ht with ⟨c, rfl⟩ | ⟨f, rest, hq, rfl⟩
  · exact h.withResult c
  · obtain ⟨hlen, hframes⟩ := h.queue
    obtain ⟨htx, ⟨hwf, hin⟩, him, hv⟩ := h.buffers
    rw [hq] at hlen hframes
    obtain ⟨⟨hpl, -⟩, hrest⟩ := List.forall_mem_cons.1 hframes
    refine
      { h with
        buffers := ⟨htx, ⟨Memory.writeAll_wf hwf 0 f.payload, fun c hc => ?_⟩, him, hv⟩
        queue := ⟨Nat.le_of_succ_le hlen, hrest⟩ }
    have := s.params.maxRxPayload.isLt
    rcases Memory.mem_writeAll hc with hc | ⟨-, hc⟩
    · exact hin c hc
    · simp only [spaceSize]; omega

theorem StateInv.portGrantTe (h : StateInv s) (ht : execPortGrantTe s = .next t) : StateInv t := by
  rcases execPortGrantTe_next ht with ⟨c, rfl⟩ | ⟨-, rfl⟩
  · exact h.withResult c
  · exact { h with window := .inl rfl, owned := fun _ => rfl, session := fun ha => ⟨rfl, (h.session ha).2⟩ }

theorem StateInv.portReturnFc (h : StateInv s) (ht : execPortReturnFc s = .next t) : StateInv t := by
  rcases execPortReturnFc_next ht with ⟨c, rfl⟩ | ⟨ha, -, rfl⟩
  · exact h.withResult c
  · exact { h with window := .inl rfl, owned := fun _ => rfl, session := by simp [sessionOk, ha] }

theorem StateInv.teStart (h : StateInv s) (ht : execTeStart s = .next t) : StateInv t := by
  rcases execTeStart_next ht with ⟨c, rfl⟩ | ⟨-, ho, hl, hlen, rfl⟩
  · exact h.withResult c
  · exact
      { h with
        notInit := by simp
        session := fun _ => ⟨ho, hl, hlen, rfl, h.retryLimit_pos, BitVec.le_refl _⟩
        position := by simp [positionOk]
        error := rfl }

theorem StateInv.cancelSession (h : StateInv s) (ht : cancelSession s = .next t) : StateInv t := by
  rcases cancelSession_next ht with ⟨c, rfl⟩ | ⟨-, rfl⟩
  · exact h.withResult c
  · exact { h.endWithError _ _ (.inr ⟨rfl, rfl⟩) with }

theorem verifyBytes_ok (v : List Byte) : verifyOk (verifyBytes v) := by
  unfold verifyBytes
  split <;> rfl

theorem StateInv.command (h : StateInv s) (c : Command) (ht : exec c.toInstr s = .next t) : StateInv t := by
  cases c with
  | nop => cases ht; exact h.withResult .ok
  | fcSend => exact h.fcSend ht
  | fcRxPop => exact h.fcRxPop ht
  | fcRxRestart => cases ht; exact { h with window := .inl rfl, owned := fun _ => rfl }
  | portGrantTe => exact h.portGrantTe ht
  | portReturnFc => exact h.portReturnFc ht
  | teStart => exact h.teStart ht
  | teCancel => exact h.cancelSession ht
  | blockVerify =>
    obtain ⟨v, -, rfl⟩ := execBlockVerify_next ht
    exact { h with verify := verifyBytes_ok v }

/-! ### Host access -/

/-- A register write: the lock keeps the configuration of a session, and RETRY_LIMIT is never written 0
(41_control.md R146, 10_state.md R40). -/
theorem StateInv.writeReg (h : StateInv s) (r : HostReg) (v : Word) : StateInv (writeReg r v s) := by
  have hr := writeReg_retryLimit r v s h.retryLimit
  unfold Machine.writeReg at hr ⊢
  split
  · exact h
  · next hfree =>
    rw [if_neg hfree] at hr
    cases r with
    | imgLen | retry =>
      have inactive : s.teState.active = false := by simpa [HostReg.locked] using hfree
      exact { h with retryLimit := hr, session := by simp [sessionOk, storeReg, inactive] }
    | _ => exact { h with }

theorem StateInv.regWr (h : StateInv s) {off : Byte} {v : Word} (ht : execRegWr off v s = .next t) : StateInv t := by
  rcases execRegWr_next ht with ⟨r, rfl⟩ | ⟨-, c, -, ht⟩ | ⟨-, rfl⟩
  · exact h.writeReg r v
  · exact h.command c ht
  · exact h.withResult _

theorem StateInv.bufWr (h : StateInv s) {sp : Space} {a : Word} {b : Byte} (ht : execBufWr sp a b s = .next t) :
    StateInv t := by
  obtain ⟨ha, ⟨-, rfl⟩ | ⟨-, rfl⟩⟩ := execBufWr_next ht
  · exact h
  · exact h.bufferWrite sp a.toNat b ha

/-! ### Every step -/

/-- A step of R84 keeps the invariant. -/
theorem StateInv.agentStep (h : StateInv s) {i : Instr} (hi : agentStep i) (ht : exec i s = .next t) : StateInv t := by
  cases i with
  | rxByte b => exact h.receiveByte ht
  | timeout => exact h.timeout ht
  | portFault => exact h.portFault ht
  | portReopen => exact h.portReopen ht
  | reset => cases ht; exact stateInv_reset s.params h.params _ _ _ _
  | regWr off v => exact h.regWr ht
  | regRd off => obtain ⟨v, rfl⟩ := execRegRd_next ht; exact { h with }
  | bufWr sp a b => exact h.bufWr ht
  | bufRd sp a => obtain ⟨v, n, rfl⟩ := execBufRd_next ht; exact { h with }
  | _ => exact hi.elim

/-- Every instruction keeps the invariant: it is a step of R84, or a FRAME, which changes only what is pending. -/
theorem StateInv.exec (h : StateInv s) {i : Instr} (ht : exec i s = .next t) : StateInv t := by
  rcases exec_next_agentStep_or_frame ht with ⟨j, hj, ht⟩ | ⟨_, _, _, _, steps, -, -, rfl⟩
  · exact h.agentStep hj ht
  · exact { h with }

end

/-! ### The statements -/

/-- Settles O54: the packet consumed is outside the invariant, and every instruction keeps it. -/
theorem stepKeepsInvariant : Obligations.StepKeepsInvariant := by
  intro s t h ht
  rcases step_next ht with rfl | ⟨i, q, ht⟩
  · exact h
  · exact StateInv.exec (s := { s with pending := q }) { h with } ht

/-- Settles O53: the reset state is RESET's with the default parameters. -/
theorem invariantHoldsAtReset : Obligations.InvariantHoldsAtReset :=
  stateInv_reset Params.default (by decide) [] [] 0 0

end Sys2Proof.Machine
end

section
/-! The whole-machine rules of the control fields: which instructions can change CMD_RESULT, OWNER, LINK_UP and TXLOG. -/

namespace Sys2Proof.Machine

section

variable {s t : State}

/-! ### Steps that run no command and do not touch the link -/

/-- CMD_RESULT, OWNER and LINK_UP are unchanged, and TXLOG is only appended to. -/
structure ControlKept (s t : State) : Prop where
  result : t.result = s.result
  owner : t.owner = s.owner
  linkUp : t.linkUp = s.linkUp
  txlog : s.txlog <+: t.txlog

theorem ControlKept.of_teFailedAttempt (h : teFailedAttempt s = .next t) : ControlKept s t := by
  rcases teFailedAttempt_next h with ⟨-, rfl⟩ | ⟨-, -, bs, -, rfl⟩ | ⟨-, -, rfl⟩
  · exact ⟨rfl, rfl, rfl, List.prefix_rfl⟩
  · exact ⟨rfl, rfl, rfl, List.prefix_append _ _⟩
  · exact ⟨rfl, rfl, rfl, List.prefix_append _ _⟩

theorem ControlKept.of_teHandshake (h : teHandshake s = .next t) : ControlKept s t := by
  rcases teHandshake_next h with ⟨-, rfl⟩ | ⟨-, bs, -, rfl⟩ <;> exact ⟨rfl, rfl, rfl, List.prefix_append _ _⟩

theorem ControlKept.of_teAckData (h : teAckData s = .next t) : ControlKept s t := by
  rcases teAckData_next h with ⟨-, bs, -, rfl⟩ | ⟨-, rfl⟩ <;> exact ⟨rfl, rfl, rfl, List.prefix_append _ _⟩

theorem ControlKept.of_teReceive {b : Byte} (h : teReceive b s = .next t) : ControlKept s t := by
  rcases teReceive_next h with rfl | ⟨-, -, h⟩ | ⟨-, -, -, h⟩ | ⟨-, -, -, rfl⟩ | ⟨-, -, h⟩
  · exact ⟨rfl, rfl, rfl, List.prefix_rfl⟩
  · exact .of_teHandshake h
  · exact .of_teAckData h
  · exact ⟨rfl, rfl, rfl, List.prefix_rfl⟩
  · exact .of_teFailedAttempt h

theorem ControlKept.of_receiveByte {b : Byte} (h : receiveByte b s = .next t) : ControlKept s t := by
  obtain ⟨-, ⟨-, rfl⟩ | ⟨-, h⟩⟩ := receiveByte_next h
  · rw [fcReceive_eq]
    constructor <;> simp
  · exact .of_teReceive h

theorem ControlKept.of_transmittedOn {bs cs : List Byte} (h : transmittedOn bs cs s = .next t) : ControlKept s t :=
  have ⟨_, _, h, _⟩ := transmittedOn_next h
  .of_receiveByte h

theorem ControlKept.of_execTimeout (h : execTimeout s = .next t) : ControlKept s t := by
  rcases execTimeout_next h with ⟨-, rfl⟩ | ⟨-, h⟩
  · exact ⟨rfl, rfl, rfl, List.prefix_rfl⟩
  · exact .of_teFailedAttempt h

theorem ControlKept.writeReg (r : HostReg) (v : Word) (s : State) : ControlKept s (writeReg r v s) := by
  obtain ⟨-, -, hresult, howner, hlink, -, -, -, -, -, -, -, -, -, -, htxlog, -⟩ := writeReg_keeps r v s
  exact ⟨hresult, howner, hlink, htxlog ▸ List.prefix_rfl⟩

theorem ControlKept.of_execBufWr {sp : Space} {a : Word} {b : Byte} (h : execBufWr sp a b s = .next t) :
    ControlKept s t := by
  obtain ⟨-, ⟨-, rfl⟩ | ⟨-, rfl⟩⟩ := execBufWr_next h
  · exact ⟨rfl, rfl, rfl, List.prefix_rfl⟩
  · constructor <;> simp

/-! ### Every instruction -/

/-- How an instruction that gives a next state meets the control fields: it keeps them, or it runs a command under one of
its names, or it is one of the events that set them. -/
inductive ControlStep (s t : State) : Instr → Prop where
  | kept (i : Instr) (h : ControlKept s t) : ControlStep s t i
  | command (c : Command) (h : exec c.toInstr s = .next t) : ControlStep s t c.toInstr
  | canCan (h : exec .teCancel s = .next t) : ControlStep s t .canCan
  | cmdWrite (v : Word) (c : Command) (hv : v.extractLsb' 0 8 = c.opcode) (h : exec c.toInstr s = .next t) :
    ControlStep s t (.regWr 0x00 v)
  | illegal (v : Word) (ht : t = { s with result := .illegalOpcode }) : ControlStep s t (.regWr 0x00 v)
  | portFault (h : execPortFault s = .next t) : ControlStep s t .portFault
  | portReopen (h : execPortReopen s = .next t) : ControlStep s t .portReopen
  | reset (h : execReset s = .next t) : ControlStep s t .reset

theorem controlStep_of_regWr {off : Byte} {v : Word} (h : execRegWr off v s = .next t) :
    ControlStep s t (.regWr off v) := by
  rcases execRegWr_next h with ⟨r, rfl⟩ | ⟨rfl, c, hv, h⟩ | ⟨rfl, ht⟩
  · exact .kept _ (.writeReg r v s)
  · exact .cmdWrite v c hv h
  · exact .illegal v ht

theorem controlStep_of_exec {i : Instr} (h : exec i s = .next t) : ControlStep s t i := by
  cases i with
  | nop => exact .command .nop h
  | fcSend => exact .command .fcSend h
  | fcRxPop => exact .command .fcRxPop h
  | fcRxRestart => exact .command .fcRxRestart h
  | portGrantTe => exact .command .portGrantTe h
  | portReturnFc => exact .command .portReturnFc h
  | teStart => exact .command .teStart h
  | teCancel => exact .command .teCancel h
  | blockVerify => exact .command .blockVerify h
  | rxByte | ack | nak | handshakeC => exact .kept _ (.of_receiveByte h)
  | timeout => exact .kept _ (.of_execTimeout h)
  | portFault => exact .portFault h
  | portReopen => exact .portReopen h
  | reset => exact .reset h
  | regWr off v => exact controlStep_of_regWr h
  | regRd off => obtain ⟨v, rfl⟩ := execRegRd_next h; exact .kept _ ⟨rfl, rfl, rfl, List.prefix_rfl⟩
  | bufWr sp a b => exact .kept _ (.of_execBufWr h)
  | bufRd sp a => obtain ⟨v, n, rfl⟩ := execBufRd_next h; exact .kept _ ⟨rfl, rfl, rfl, List.prefix_rfl⟩
  | frame => obtain ⟨steps, -, rfl⟩ := execFrame_next h; exact .kept _ ⟨rfl, rfl, rfl, List.prefix_rfl⟩
  | block => exact .kept _ (.of_transmittedOn (execBlock_next h).2)
  | eot => exact .kept _ (.of_transmittedOn h)
  | canCan => exact .canCan h

/-! ### Commands -/

/-- A command leaves LINK_UP, only appends to TXLOG, and changes OWNER only if it is one of the two handoffs. -/
theorem command_control {c : Command} (h : exec c.toInstr s = .next t) :
    t.linkUp = s.linkUp ∧ s.txlog <+: t.txlog ∧ (t.owner = s.owner ∨ c = .portGrantTe ∨ c = .portReturnFc) := by
  cases c with
  | nop | fcRxRestart => cases h; exact ⟨rfl, List.prefix_rfl, .inl rfl⟩
  | fcSend =>
    rcases execFcSend_next h with ⟨_, rfl⟩ | ⟨-, -, payload, -, rfl⟩
    · exact ⟨rfl, List.prefix_rfl, .inl rfl⟩
    · exact ⟨rfl, List.prefix_append _ _, .inl rfl⟩
  | fcRxPop =>
    rcases execFcRxPop_next h with ⟨_, rfl⟩ | ⟨f, rest, -, rfl⟩ <;> exact ⟨rfl, List.prefix_rfl, .inl rfl⟩
  | portGrantTe =>
    rcases execPortGrantTe_next h with ⟨_, rfl⟩ | ⟨-, rfl⟩ <;> exact ⟨rfl, List.prefix_rfl, .inr (.inl rfl)⟩
  | portReturnFc =>
    rcases execPortReturnFc_next h with ⟨_, rfl⟩ | ⟨-, -, rfl⟩ <;> exact ⟨rfl, List.prefix_rfl, .inr (.inr rfl)⟩
  | teStart =>
    rcases execTeStart_next h with ⟨_, rfl⟩ | ⟨-, -, -, -, rfl⟩ <;> exact ⟨rfl, List.prefix_rfl, .inl rfl⟩
  | teCancel =>
    rcases cancelSession_next h with ⟨_, rfl⟩ | ⟨-, rfl⟩
    · exact ⟨rfl, List.prefix_rfl, .inl rfl⟩
    · exact ⟨rfl, List.prefix_append _ _, .inl rfl⟩
  | blockVerify => obtain ⟨v, -, rfl⟩ := execBlockVerify_next h; exact ⟨rfl, List.prefix_rfl, .inl rfl⟩

/-- A port fault touches neither CMD_RESULT nor OWNER nor TXLOG (41_control.md R149). -/
theorem execPortFault_control (h : execPortFault s = .next t) :
    t.result = s.result ∧ t.owner = s.owner ∧ t.txlog = s.txlog := by
  obtain ⟨-, ⟨-, rfl⟩ | ⟨-, rfl⟩⟩ := execPortFault_next h <;> exact ⟨rfl, rfl, rfl⟩

/-- A reopening touches neither CMD_RESULT nor OWNER nor TXLOG (41_control.md R150). -/
theorem execPortReopen_control (h : execPortReopen s = .next t) :
    t.result = s.result ∧ t.owner = s.owner ∧ t.txlog = s.txlog := by
  obtain ⟨-, rfl⟩ := execPortReopen_next h
  exact ⟨rfl, rfl, rfl⟩

theorem exec_txlog_prefix {i : Instr} (h : exec i s = .next t) : s.txlog <+: t.txlog := by
  cases controlStep_of_exec h with
  | kept _ hk => exact hk.txlog
  | command c hc | cmdWrite v c _ hc => obtain ⟨-, hlog, -⟩ := command_control hc; exact hlog
  | canCan hc => obtain ⟨-, hlog, -⟩ := command_control (c := .teCancel) hc; exact hlog
  | illegal v ht => exact ht ▸ List.prefix_rfl
  | portFault h => obtain ⟨-, -, hlog⟩ := execPortFault_control h; exact hlog ▸ List.prefix_rfl
  | portReopen h => obtain ⟨-, -, hlog⟩ := execPortReopen_control h; exact hlog ▸ List.prefix_rfl
  | reset h => cases h; exact List.prefix_rfl

end

/-! ### The statements -/

/-- Settles O55: the session and the commands append what they transmit, and nothing else writes TXLOG. -/
theorem txlogIsAppendOnly : Obligations.TxlogIsAppendOnly := by
  intro i s t h
  obtain ⟨sent, hs⟩ := exec_txlog_prefix h
  exact ⟨sent, hs.symm⟩

/-- Settles O56, by cases on how the instruction meets the control fields. -/
theorem portChangesOnlyByItsRules : Obligations.PortChangesOnlyByItsRules := by
  intro i s t h
  cases controlStep_of_exec h with
  | kept _ hk => exact ⟨fun ho => absurd hk.owner ho, fun hl => absurd hk.linkUp hl⟩
  | command c h =>
    obtain ⟨hlink, -, howner⟩ := command_control h
    refine ⟨fun ho => ?_, fun hl => absurd hlink hl⟩
    rcases howner with heq | rfl | rfl
    · exact absurd heq ho
    · exact .inl rfl
    · exact .inr (.inl rfl)
  | canCan h =>
    obtain ⟨hlink, -, howner⟩ := command_control (c := .teCancel) h
    exact ⟨fun ho => by simp [ho] at howner, fun hl => absurd hlink hl⟩
  | cmdWrite v c hv hc =>
    obtain ⟨hlink, -, howner⟩ := command_control hc
    refine ⟨fun ho => .inr (.inr (.inr ⟨v, rfl, ?_⟩)), fun hl => absurd hlink hl⟩
    rcases howner with heq | rfl | rfl
    · exact absurd heq ho
    · exact .inl hv
    · exact .inr hv
  | illegal v ht => subst ht; exact ⟨fun ho => absurd rfl ho, fun hl => absurd rfl hl⟩
  | portFault h =>
    obtain ⟨-, howner, -⟩ := execPortFault_control h
    exact ⟨fun ho => absurd howner ho, fun _ => .inl rfl⟩
  | portReopen h =>
    obtain ⟨-, howner, -⟩ := execPortReopen_control h
    exact ⟨fun ho => absurd howner ho, fun _ => .inr (.inl rfl)⟩
  | reset _ => exact ⟨fun _ => .inr (.inr (.inl rfl)), fun _ => .inr (.inr rfl)⟩

/-- Settles O57, by cases on how the instruction meets the control fields. -/
theorem resultChangesOnlyByCommands : Obligations.ResultChangesOnlyByCommands := by
  intro i s t h hr
  cases controlStep_of_exec h with
  | kept _ hk => exact absurd hk.result hr
  | command c _ => exact .inl ⟨c, rfl⟩
  | canCan _ => exact .inr (.inl rfl)
  | cmdWrite v _ _ _ | illegal v _ => exact .inr (.inr (.inr ⟨v, rfl⟩))
  | portFault h => obtain ⟨hresult, -, -⟩ := execPortFault_control h; exact absurd hresult hr
  | portReopen h => obtain ⟨hresult, -, -⟩ := execPortReopen_control h; exact absurd hresult hr
  | reset _ => exact .inr (.inr (.inl rfl))

end Sys2Proof.Machine
end

section
/-! Host reads and writes of the registers: what each register reads as, and what a write of it stores. -/

namespace Sys2Proof.Machine

/-! ### Fields of a register value -/

/-- A field that fills the bits read is read back. -/
theorem extractLsb'_fieldAt_same {n : Nat} (lo : Nat) (v : BitVec n) (h : lo + n ≤ 32) :
    (fieldAt lo v).extractLsb' lo n = v :=
  extractLsb'_eq fun i hi => by simp [fieldAt_getLsbD lo v (lo + i) (by omega)]

/-- A field that lies beside the bits read adds nothing to them. -/
theorem extractLsb'_fieldAt_beside {n : Nat} (lo : Nat) (v : BitVec n) (lo' n' : Nat) (hn : lo' + n' ≤ 32)
    (h : lo' + n' ≤ lo ∨ lo + n ≤ lo') : (fieldAt lo v).extractLsb' lo' n' = 0 :=
  extractLsb'_eq_zero fun i h1 h2 => by
    rw [fieldAt_getLsbD lo v i (by omega)]
    rcases h with h | h
    · simp [show ¬ lo ≤ i by omega]
    · simp [BitVec.getLsbD_of_ge v (i - lo) (by omega)]

theorem fieldAt_zero {n : Nat} (v : BitVec n) : fieldAt 0 v = v.setWidth 32 := by simp [fieldAt]

/-- Two fields side by side, as a number. -/
theorem fieldAt_or_fieldAt {m n : Nat} (v : BitVec n) (w : BitVec m) :
    fieldAt 0 v ||| fieldAt n w = BitVec.ofNat 32 (v.toNat + 2 ^ n * w.toNat) := by
  apply BitVec.eq_of_getLsbD_eq
  intro i hi
  rw [BitVec.getLsbD_or, fieldAt_getLsbD 0 v i hi, fieldAt_getLsbD n w i hi, BitVec.getLsbD_ofNat, Nat.add_comm,
    Nat.testBit_two_pow_mul_add _ v.isLt]
  by_cases h : i < n
  · simp [h, hi, Nat.not_le.2 h, BitVec.testBit_toNat]
  · simp [h, hi, Nat.not_lt.1 h, BitVec.testBit_toNat]

/-! ### Host reads (10_state.md R25) -/

/-- A read of a word of the map returns the register's value and changes nothing of the block. -/
theorem exec_regRd {off : Byte} {r : HostReg} {s : State} {w : Word} (hr : regAt? off = some r) (hw : readReg s r = w) :
    exec (.regRd off) s = .next { s with readData := w } := by
  change execRegRd off s = _
  rw [execRegRd, hr, ← hw]
  rfl

theorem readReg_port (s : State) :
    readReg s .port = (if s.owner = .te then 1 else 0) + (if s.linkUp = true then 2 else 0) := by
  simp only [readReg]
  cases s.owner <;> cases s.linkUp <;> rfl

theorem readReg_rxqCount (s : State) (h : s.rxq.length ≤ 255) :
    readReg s .rxqCount = BitVec.ofNat 32 s.rxq.length := by
  apply BitVec.eq_of_toNat_eq
  simp only [readReg, fieldAt_zero, BitVec.toNat_setWidth, BitVec.toNat_ofNat]
  omega

theorem readReg_teBlock (s : State) :
    readReg s .teBlock =
      BitVec.ofNat 32 (s.curIndex.toNat % 256 + 256 * (255 - s.curIndex.toNat % 256)) := by
  have hwire : (wireNumber s.curIndex).toNat = s.curIndex.toNat % 256 := by simp [wireNumber]
  simp only [readReg, fieldAt_or_fieldAt, complement_toNat, hwire, Nat.reducePow]

theorem readReg_teCfg (s : State) :
    readReg s .teCfg =
      (if s.progressEn = true then 1 else 0) + (if s.hwFlow = true then 2 else 0) +
        (if s.swFlow = true then 4 else 0) := by
  simp only [readReg]
  cases s.progressEn <;> cases s.hwFlow <;> cases s.swFlow <;> rfl

/-- The fields of TE_STATUS (10_state.md R35). -/
theorem readReg_teStatus (s : State) :
    (readReg s .teStatus).extractLsb' 0 3 = s.teState.code ∧
      (readReg s .teStatus).extractLsb' 3 1 = BitVec.ofBool s.tePhase.bit ∧
      (readReg s .teStatus).extractLsb' 4 28 = 0 := by
  simp [readReg, flagAt, BitVec.extractLsb'_or, extractLsb'_fieldAt_same, extractLsb'_fieldAt_beside]

/-- The fields of TE_ERR (10_state.md R44). -/
theorem readReg_teErr (s : State) :
    (readReg s .teErr).extractLsb' 0 4 = s.teErr.kind.code ∧ (readReg s .teErr).extractLsb' 4 2 = s.teErr.phase.code ∧
      (readReg s .teErr).extractLsb' 6 2 = 0 ∧ (readReg s .teErr).extractLsb' 8 8 = s.teErr.block ∧
      (readReg s .teErr).extractLsb' 16 8 = s.teErr.retries ∧ (readReg s .teErr).extractLsb' 24 8 = 0 := by
  simp [readReg, BitVec.extractLsb'_or, extractLsb'_fieldAt_same, extractLsb'_fieldAt_beside]

/-- The fields of VERIFY (10_state.md R46). -/
theorem readReg_verify (s : State) :
    (readReg s .verify).getLsbD 0 = s.verify.sohOk ∧ (readReg s .verify).getLsbD 1 = s.verify.compOk ∧
      (readReg s .verify).getLsbD 2 = s.verify.crcOk ∧ (readReg s .verify).getLsbD 3 = s.verify.valid ∧
      (readReg s .verify).extractLsb' 4 12 = 0 ∧ (readReg s .verify).extractLsb' 16 16 = s.verify.crcCalc := by
  have flags (k : Nat) (hk : k < 16) :
      (readReg s .verify).getLsbD k =
        (decide (k = 0) && s.verify.sohOk || decide (k = 1) && s.verify.compOk || decide (k = 2) && s.verify.crcOk ||
          decide (k = 3) && s.verify.valid) := by
    have hk' : k < 32 := by omega
    simp [-BitVec.getLsbD_eq_getElem, readReg, BitVec.getLsbD_or, flagAt_getLsbD _ _ k hk',
      fieldAt_getLsbD _ _ k hk', Nat.not_le.2 hk]
  rw [flags 0 (by decide), flags 1 (by decide), flags 2 (by decide), flags 3 (by decide)]
  simp [readReg, flagAt, BitVec.extractLsb'_or, extractLsb'_fieldAt_same, extractLsb'_fieldAt_beside]

/-! ### Host writes (41_control.md R145, R146) -/

/-- A write of a word of the map other than CMD stores into its register, under the lock. -/
theorem exec_regWr {off : Byte} {r : HostReg} (v : Word) (s : State) (hr : regAt? off = some r) (hc : r ≠ .cmd) :
    exec (.regWr off v) s = .next (writeReg r v s) := by
  change execRegWr off v s = _
  rw [execRegWr, hr]
  cases r with
  | cmd => exact absurd rfl hc
  | _ => rfl

theorem writeReg_locked {r : HostReg} {s : State} (v : Word) (hr : r.locked = true) (ha : s.teState.active = true) :
    writeReg r v s = s := by
  simp [writeReg, hr, ha]

theorem writeReg_inactive {s : State} (r : HostReg) (v : Word) (ha : s.teState.active = false) :
    writeReg r v s = storeReg r v s := by
  simp [writeReg, ha]

/-- The registers that a host write leaves alone, the reserved offsets among them (10_state.md R25). -/
def HostReg.readOnly : HostReg → Bool
  | .cmdResult | .port | .rxId | .rxType | .rxLen | .rxCsum | .rxqCount | .teStatus | .totalBlocks | .curIndex | .teBlock
  | .teErr | .progress | .verify | .reserved => true
  | .cmd | .txId | .txType | .txLen | .fcStats | .imgLen | .retry | .hsTimeoutMs | .blkTimeoutMs | .teCfg | .irqPending
  | .irqEnable => false

theorem writeReg_readOnly {r : HostReg} (v : Word) (s : State) (h : r.readOnly = true) : writeReg r v s = s := by
  have hstore : storeReg r v s = s := by
    cases r with
    | cmd | txId | txType | txLen | fcStats | imgLen | retry | hsTimeoutMs | blkTimeoutMs | teCfg | irqPending
    | irqEnable => cases h
    | _ => rfl
  rw [writeReg, hstore, ite_self]

/-! ### The statements -/

/-- Settles O43: each offset's register, and that register's value. -/
theorem readFrameCodecRegisters : Obligations.ReadFrameCodecRegisters := by
  intro s
  refine ⟨exec_regRd rfl ?_, exec_regRd rfl (readReg_port s), exec_regRd rfl (fieldAt_zero _),
    exec_regRd rfl (fieldAt_zero _), exec_regRd rfl (fieldAt_zero _), exec_regRd rfl (fieldAt_zero _),
    exec_regRd rfl (fieldAt_zero _), exec_regRd rfl (fieldAt_zero _), exec_regRd rfl (fieldAt_zero _),
    fun h => exec_regRd rfl (readReg_rxqCount s h), exec_regRd rfl (fieldAt_or_fieldAt _ _)⟩
  simp only [readReg]
  cases s.result <;> rfl

/-- Settles O44: each offset's register, and that register's value. -/
theorem readTransferEngineRegisters : Obligations.ReadTransferEngineRegisters := by
  intro s
  obtain ⟨hstate, hphase, hhigh⟩ := readReg_teStatus s
  obtain ⟨hkind, herrPhase, hgap, hblock, hretries, htop⟩ := readReg_teErr s
  refine ⟨⟨_, exec_regRd rfl rfl, hstate.trans ?_, hphase.trans ?_, hhigh⟩, exec_regRd rfl rfl, exec_regRd rfl rfl,
    exec_regRd rfl rfl, exec_regRd rfl (readReg_teBlock s), exec_regRd rfl (fieldAt_or_fieldAt _ _), exec_regRd rfl rfl,
    exec_regRd rfl rfl, exec_regRd rfl (readReg_teCfg s),
    ⟨_, exec_regRd rfl rfl, hkind.trans ?_, herrPhase.trans ?_, hgap, hblock, hretries, htop⟩, exec_regRd rfl rfl,
    fun off hoff => exec_regRd (r := .reserved) ?_ rfl⟩
  · cases s.teState <;> rfl
  · cases s.tePhase <;> rfl
  · cases s.teErr.kind <;> rfl
  · cases s.teErr.phase <;> rfl
  · revert off; decide

/-- Settles O45: VERIFY field by field, and IRQ_PENDING as the pending bits that the IRQ line is made of. -/
theorem readVerifyAndInterrupts : Obligations.ReadVerifyAndInterrupts := by
  intro s
  obtain ⟨h0, h1, h2, h3, h4, h5⟩ := pendingBits_bits s
  have bit (k : Nat) (hk : k < 32) := irqPending_getLsbD s k hk
  refine ⟨⟨_, exec_regRd rfl rfl, readReg_verify s⟩, exec_regRd rfl (fieldAt_zero _), _, exec_regRd rfl rfl, ?_,
    (bit 1 (by decide)).trans h1, (bit 2 (by decide)).trans h2, (bit 3 (by decide)).trans h3,
    (bit 4 (by decide)).trans h4, (bit 5 (by decide)).trans h5, ?_, ?_⟩
  · rw [bit 0 (by decide), h0]
    cases s.rxq <;> simp
  · exact extractLsb'_fieldAt_beside 0 (pendingBits s) 6 26 (by decide) (.inr (by decide))
  · rw [irqLine_iff]
    exact exists_congr fun k => and_congr_right fun hk => by rw [bit k (by omega)]

/-- Settles O47: the lock, and with no session what each register stores. -/
theorem writeLockedRegisters : Obligations.WriteLockedRegisters := by
  intro v s
  refine ⟨fun hs off hoff => ?_, fun h1 h2 => ?_⟩
  · have hany : (regAt? off).any HostReg.locked = true := by revert off; decide
    obtain ⟨r, hr, hlock⟩ := (Option.any_eq_true _ _).1 hany
    rw [exec_regWr v s hr (by rintro rfl; cases hlock), writeReg_locked v hlock ((active_iff _).2 hs)]
  · have store (r : HostReg) := writeReg_inactive r v ((inactive_iff s.teState).2 ⟨h1, h2⟩)
    refine ⟨?_, ?_, ?_, ?_, ?_⟩
    · rw [exec_regWr v s (r := .imgLen) rfl (by decide), store]; rfl
    · rw [exec_regWr v s (r := .retry) rfl (by decide), store, storeReg, retryLimitOf, setWidth_eq_low]
    · rw [exec_regWr v s (r := .hsTimeoutMs) rfl (by decide), store]; rfl
    · rw [exec_regWr v s (r := .blkTimeoutMs) rfl (by decide), store]; rfl
    · rw [exec_regWr v s (r := .teCfg) rfl (by decide), store]; rfl

/-- Settles O46: none of these registers is locked. -/
theorem writeUnlockedRegisters : Obligations.WriteUnlockedRegisters := by
  intro v s
  simp only [← setWidth_eq_low]
  exact ⟨exec_regWr v s (r := .txId) rfl (by decide), exec_regWr v s (r := .txType) rfl (by decide),
    exec_regWr v s (r := .txLen) rfl (by decide), exec_regWr v s (r := .irqEnable) rfl (by decide),
    exec_regWr v s (r := .fcStats) rfl (by decide)⟩

/-- Settles O49: no read-only register stores anything. -/
theorem readOnlyWritesIgnored : Obligations.ReadOnlyWritesIgnored := by
  intro v s off hoff
  have hany : (regAt? off).any HostReg.readOnly = true := by revert off; decide
  obtain ⟨r, hr, hro⟩ := (Option.any_eq_true _ _).1 hany
  rw [exec_regWr v s hr (by rintro rfl; cases hro), writeReg_readOnly v s hro]

/-- Settles O7: the opcode selects the command, and CMD reads 0. -/
theorem cmdWriteExecutesCommand : Obligations.CmdWriteExecutesCommand :=
  ⟨fun _ _ s h => exec_regWr_cmd h s, fun _ => exec_regRd (r := .cmd) rfl rfl⟩

end Sys2Proof.Machine
end

section
/-! BLOCK, EOT and CAN_CAN (log 10): which received byte transmits what, and so which byte each departing format is. -/

namespace Sys2Proof.Machine

section

variable {s t : State} {bs : List Byte}

/-! ### Blocks on the wire -/

theorem encodeBlock_ofNat (k : Nat) (bs : List Byte) :
    encodeBlock (BitVec.ofNat 8 k) (bs ++ List.replicate (128 - bs.length) 0x1A) = wireBlock k bs := by
  simp [encodeBlock, wireBlock, complement, be16]

theorem wireBlock_ne_nil (k : Nat) (bs : List Byte) : wireBlock k bs ≠ [] := by simp [wireBlock]

theorem wireBlock_ne_eot (k : Nat) (bs : List Byte) : wireBlock k bs ≠ [0x04] := by simp [wireBlock]

/-- A block and the next one differ in their numbers, 255 and 0 included (43_transfer_engine.md R182). -/
theorem wireBlock_succ_ne (k : Nat) (bs cs : List Byte) : wireBlock (k + 1) bs ≠ wireBlock k cs := by
  intro h
  have hnum : BitVec.ofNat 8 (k + 1) = BitVec.ofNat 8 k := by
    simp only [wireBlock, List.cons_append, List.cons.injEq] at h
    obtain ⟨-, hnum, -⟩ := h
    exact hnum
  have := congrArg BitVec.toNat hnum
  simp only [BitVec.toNat_ofNat] at this
  omega

/-- A payload of image bytes and padding is 128 bytes long (43_transfer_engine.md R183). -/
theorem blockPayloadOk_of_held {k : Nat} (h : blockHeld s k bs) :
    blockPayloadOk (bs ++ List.replicate (128 - bs.length) 0x1A) = true := by
  obtain ⟨hlen, -⟩ := h
  simp only [blockBytesOf] at hlen
  simp only [blockPayloadOk, Config.blockPayload, List.length_append, List.length_replicate, beq_iff_eq]
  omega

theorem execBlock_of_held {k : Nat} (h : blockHeld s k bs) :
    exec (.block (BitVec.ofNat 8 k) (bs ++ List.replicate (128 - bs.length) 0x1A)) s =
      transmittedOn (wireBlock k bs) replies s := by
  change execBlock _ _ s = _
  rw [execBlock, blockPayloadOk_of_held h, encodeBlock_ofNat]
  rfl

/-! ### What TE answers to the three replies -/

/-- In AWAIT_HANDSHAKE every byte but 'C' is ignored (43_transfer_engine.md R186). -/
theorem teReceive_waiting_ignored {b : Byte} (hs : s.teState = .awaitHandshake) (hb : b ≠ 0x43) :
    teReceive b s = .next s := by
  simp only [teReceive, hs, if_neg hb]

theorem teReceive_handshake (hs : s.teState = .awaitHandshake) : teReceive 0x43 s = teHandshake s := by
  simp [teReceive, hs]

theorem teReceive_ack_data (hs : s.teState = .sending) (hp : s.tePhase = .data) : teReceive 0x06 s = teAckData s := by
  simp [teReceive, hs, hp]

theorem teReceive_ack_eot (hs : s.teState = .sending) (hp : s.tePhase = .eot) :
    teReceive 0x06 s = .next (enterTerminal .complete s) := by
  simp [teReceive, teAckEot, hs, hp]

theorem teReceive_nak (hs : s.teState = .sending) : teReceive 0x15 s = teFailedAttempt s := by
  simp [teReceive, hs]

theorem teHandshake_block (h0 : s.totalBlocks ≠ 0) (hb : blockHeld s 1 bs) :
    teHandshake s =
      .next
        { s with
          retriesLeft := s.retryLimit, curIndex := 1, tePhase := .data, teState := .sending
          txlog := s.txlog ++ wireBlock 1 bs } := by
  rw [teHandshake, if_neg h0]
  exact transmitBlock_held (k := 1) hb

theorem teHandshake_eot (h0 : s.totalBlocks = 0) :
    teHandshake s =
      .next { s with retriesLeft := s.retryLimit, tePhase := .eot, teState := .sending, txlog := s.txlog ++ [0x04] } := by
  rw [teHandshake, if_pos h0]
  rfl

theorem teAckData_block (hlt : s.curIndex.toNat < s.totalBlocks.toNat) (hb : blockHeld s (s.curIndex.toNat + 1) bs) :
    ∃ t, teAckData s = .next t ∧ t.txlog = s.txlog ++ wireBlock (s.curIndex.toNat + 1) bs := by
  have hk : (s.curIndex + 1).toNat = s.curIndex.toNat + 1 := by bv_omega
  rw [← hk] at hb ⊢
  rw [teAckData, if_pos (BitVec.lt_def.2 hlt)]
  exact ⟨_, transmitBlock_held (k := s.curIndex + 1) hb, rfl⟩

theorem teAckData_eot (hge : s.totalBlocks.toNat ≤ s.curIndex.toNat) :
    ∃ t, teAckData s = .next t ∧ t.txlog = s.txlog ++ [0x04] := by
  rw [teAckData, if_neg (BitVec.not_lt.2 hge)]
  exact ⟨_, rfl, rfl⟩

theorem teFailedAttempt_block (hr : 1 < s.retriesLeft.toNat) (hp : s.tePhase = .data)
    (hb : blockHeld s s.curIndex.toNat bs) :
    teFailedAttempt s =
      .next { s with retriesLeft := s.retriesLeft - 1, txlog := s.txlog ++ wireBlock s.curIndex.toNat bs } := by
  have hne : s.retriesLeft - 1 ≠ 0 := by bv_omega
  simp only [teFailedAttempt, if_neg hne, hp]
  exact transmitBlock_held (s := { s with retriesLeft := s.retriesLeft - 1, tePhase := .data }) hb

theorem teFailedAttempt_eot (hr : 1 < s.retriesLeft.toNat) (hp : s.tePhase = .eot) :
    teFailedAttempt s = .next { s with retriesLeft := s.retriesLeft - 1, txlog := s.txlog ++ [0x04] } := by
  have hne : s.retriesLeft - 1 ≠ 0 := by bv_omega
  simp only [teFailedAttempt, if_neg hne, hp]
  rfl

/-- ACK never repeats the block it acknowledges. -/
theorem teAckData_txlog_ne (h : teAckData s = .next t) : t.txlog ≠ s.txlog ++ wireBlock s.curIndex.toNat bs := by
  rcases teAckData_next h with ⟨hlt, cs, -, rfl⟩ | ⟨-, rfl⟩
  · have hk : (s.curIndex + 1).toNat = s.curIndex.toNat + 1 := by bv_omega
    have hne := wireBlock_succ_ne s.curIndex.toNat cs bs
    rw [← hk] at hne
    simpa only [txEmit_txlog, ne_eq, List.append_cancel_left_eq] using hne
  · simpa using (wireBlock_ne_eot s.curIndex.toNat bs).symm

/-- With no session no received byte transmits anything (43_transfer_engine.md R193, R197). -/
theorem receiveByte_txlog_inactive {b : Byte} (ha : s.teState.active = false) (h : receiveByte b s = .next t) :
    t.txlog = s.txlog := by
  obtain ⟨hw, hnot⟩ := (inactive_iff _).1 ha
  obtain ⟨-, ⟨-, rfl⟩ | ⟨-, h⟩⟩ := receiveByte_next h
  · simp [fcReceive_eq]
  · rcases teReceive_next h with rfl | ⟨hs, -⟩ | ⟨hs, -⟩ | ⟨hs, -⟩ | ⟨hs, -⟩
    · rfl
    · exact absurd hs hw
    all_goals exact absurd hs hnot

/-! ### The byte that a departing format is -/

theorem transmittedOn_inactive (ha : s.teState.active = false) (hbs : bs ≠ []) (cs : List Byte) :
    transmittedOn bs cs s = .refused .mayNotTransmit :=
  transmittedOn_none fun _ _ t h => by simpa [receiveByte_txlog_inactive ha h] using hbs

/-- In AWAIT_HANDSHAKE it is 'C'. -/
theorem transmittedOn_waiting (hl : s.linkUp = true) (ho : s.owner = .te) (hs : s.teState = .awaitHandshake)
    (hbs : bs ≠ []) (h : teHandshake s = .next t) (ht : t.txlog = s.txlog ++ bs) :
    transmittedOn bs replies s = .next t := by
  have ignored {b : Byte} (hb : b ≠ 0x43) (u : State) (hu : receiveByte b s = .next u) : u.txlog ≠ s.txlog ++ bs := by
    rw [receiveByte_te b s hl ho, teReceive_waiting_ignored hs hb] at hu
    cases hu
    simpa using hbs
  rw [replies, transmittedOn_skip (ignored (by decide)), transmittedOn_skip (ignored (by decide))]
  exact transmittedOn_head (by rw [receiveByte_te _ s hl ho, teReceive_handshake hs, h]) ht

/-- It is ACK where ACK transmits it. -/
theorem transmittedOn_ack (hl : s.linkUp = true) (ho : s.owner = .te) (h : teReceive 0x06 s = .next t)
    (ht : t.txlog = s.txlog ++ bs) : transmittedOn bs replies s = .next t :=
  transmittedOn_head (by rw [receiveByte_te _ s hl ho, h]) ht

/-- It is NAK where ACK does not transmit it and a failed attempt does. -/
theorem transmittedOn_nak (hl : s.linkUp = true) (ho : s.owner = .te) (hs : s.teState = .sending)
    (hack : ∀ u, teReceive 0x06 s = .next u → u.txlog ≠ s.txlog ++ bs) (h : teFailedAttempt s = .next t)
    (ht : t.txlog = s.txlog ++ bs) : transmittedOn bs replies s = .next t := by
  rw [replies, transmittedOn_skip fun u hu => hack u (by rwa [receiveByte_te _ s hl ho] at hu)]
  exact transmittedOn_head (by rw [receiveByte_te _ s hl ho, teReceive_nak hs, h]) ht

/-- A transmission on ACK is the step of ACK. -/
theorem departs_on_ack (hl : s.linkUp = true) (ho : s.owner = .te)
    (h : ∃ t, teReceive 0x06 s = .next t ∧ t.txlog = s.txlog ++ bs) :
    transmittedOn bs replies s = exec (.rxByte 0x06) s ∧ ∃ t, transmittedOn bs replies s = .next t := by
  obtain ⟨t, h, ht⟩ := h
  have hack : exec (.rxByte 0x06) s = .next t := (receiveByte_te 0x06 s hl ho).trans h
  rw [transmittedOn_ack hl ho h ht, hack]
  exact ⟨rfl, t, rfl⟩

/-- CAN_CAN in a session is the cancellation (43_transfer_engine.md R194). -/
theorem cancelSession_active (ha : s.teState.active = true) :
    ∃ t, cancelSession s = .next t ∧ t.txlog = s.txlog ++ [0x18, 0x18] ∧ t.teState = .cancelled := by
  rw [cancelSession, if_pos ha]
  exact ⟨_, rfl, rfl, rfl⟩

theorem cancelSession_inactive (ha : s.teState.active = false) :
    cancelSession s = .next { s with result := .noSession } := by
  rw [cancelSession, ha]
  rfl

end

/-! ### The statement -/

/-- Settles O41: each clause names the reply on which TE transmits the format, and no reply before it in `replies` does. -/
theorem departingFormatsReachTxlog : Obligations.DepartingFormatsReachTxlog := by
  refine ⟨fun s t blk payload h => ?_, fun s t h => ?_, fun s k bs hl ho hb => ?_, fun s hl ho => ⟨?_, ?_, ?_⟩,
    fun s => ⟨fun h1 h2 => ?_, fun hs => ?_⟩⟩
  · obtain ⟨b, -, hrx, ht⟩ := transmittedOn_next (execBlock_next h).2
    exact ⟨ht, b, hrx⟩
  · obtain ⟨b, -, hrx, ht⟩ := transmittedOn_next h
    exact ⟨ht, b, hrx⟩
  · rw [execBlock_of_held hb]
    refine ⟨?_, ?_, ?_⟩
    · rintro hs h0 rfl
      exact transmittedOn_waiting hl ho hs (wireBlock_ne_nil 1 bs) (teHandshake_block h0 hb) rfl
    · rintro hs hp hlt rfl
      exact departs_on_ack hl ho (teReceive_ack_data hs hp ▸ teAckData_block hlt hb)
    · rintro hs hp hr rfl
      exact transmittedOn_nak hl ho hs (fun u hu => teAckData_txlog_ne (teReceive_ack_data hs hp ▸ hu))
        (teFailedAttempt_block hr hp hb) rfl
  · intro hs h0
    exact transmittedOn_waiting hl ho hs (by simp) (teHandshake_eot h0) rfl
  · intro hs hp hge
    exact departs_on_ack hl ho (teReceive_ack_data hs hp ▸ teAckData_eot hge)
  · intro hs hp hr
    refine transmittedOn_nak hl ho hs (fun u hu => ?_) (teFailedAttempt_eot hr hp) rfl
    cases (teReceive_ack_eot hs hp).symm.trans hu
    simp
  · have ha := (inactive_iff s.teState).2 ⟨h1, h2⟩
    refine ⟨cancelSession_inactive ha, transmittedOn_inactive ha (by simp) replies, fun blk payload hlen => ?_⟩
    change execBlock blk payload s = _
    rw [execBlock, if_neg (by simp [blockPayloadOk, hlen, Config.blockPayload])]
    exact transmittedOn_inactive ha (by simp [encodeBlock]) replies
  · exact ⟨rfl, cancelSession_active ((active_iff _).2 hs)⟩

end Sys2Proof.Machine
end

section
/-! The decoder answers well-formed instructions only: one lemma for each of its arms. -/

namespace Sys2Proof

/-- An instruction that this answer of a decoder holds is well-formed. -/
def answersWellFormed (r : Decoded) : Prop := ∀ i rest, r = .ok (i, rest) → i.wellFormed = true

@[simp] theorem answersWellFormed_ok (i : Instr) (rest : List Byte) :
    answersWellFormed (.ok (i, rest)) ↔ i.wellFormed = true :=
  ⟨fun h => h i rest rfl, fun h _ _ he => by cases he; exact h⟩

@[simp] theorem answersWellFormed_error (e : DecodeError) : answersWellFormed (.error e) := nofun

theorem answersWellFormed_ite {c : Prop} [Decidable c] {r r' : Decoded} (h : answersWellFormed r)
    (h' : answersWellFormed r') : answersWellFormed (if c then r else r') := by
  split
  · exact h
  · exact h'

/-! ### Commands and steps -/

theorem Command.toInstr_wellFormed (c : Command) : c.toInstr.wellFormed = true := by cases c <;> rfl

/-- A command word is a command, or the write of CMD that an illegal opcode is. -/
theorem decodeCommand_wellFormed (bs : List Byte) : answersWellFormed (decodeCommand bs) := by
  unfold decodeCommand
  split
  · split
    · next c _ => simpa using c.toInstr_wellFormed
    · simp [Instr.wellFormed, regOffsetOk]
  · simp

theorem decodeRegWr_wellFormed (bs : List Byte) : answersWellFormed (decodeRegWr bs) := by
  unfold decodeRegWr
  split
  · split
    · next hoff => simpa [Instr.wellFormed] using hoff
    · simp
  · simp

theorem decodeRegRd_wellFormed (bs : List Byte) : answersWellFormed (decodeRegRd bs) := by
  unfold decodeRegRd
  split
  · split
    · next hoff => simpa [Instr.wellFormed] using hoff
    · simp
  · simp

theorem decodeBufWr_wellFormed (bs : List Byte) : answersWellFormed (decodeBufWr bs) := by
  unfold decodeBufWr
  split
  · split <;> simp [Instr.wellFormed]
  · simp

theorem decodeBufRd_wellFormed (bs : List Byte) : answersWellFormed (decodeBufRd bs) := by
  unfold decodeBufRd
  split
  · split <;> simp [Instr.wellFormed]
  · simp

theorem decodeRxByte_wellFormed (bs : List Byte) : answersWellFormed (decodeRxByte bs) := by
  cases bs <;> simp [decodeRxByte, Instr.wellFormed]

theorem decodeStep_wellFormed (bs : List Byte) : answersWellFormed (decodeStep bs) := by
  cases bs with
  | nil => simp [decodeStep]
  | cons tag rest =>
    refine answersWellFormed_ite (decodeRxByte_wellFormed rest) ?_
    refine answersWellFormed_ite ((answersWellFormed_ok .timeout rest).2 rfl) ?_
    refine answersWellFormed_ite ((answersWellFormed_ok .portFault rest).2 rfl) ?_
    refine answersWellFormed_ite ((answersWellFormed_ok .portReopen rest).2 rfl) ?_
    refine answersWellFormed_ite ((answersWellFormed_ok .reset rest).2 rfl) ?_
    refine answersWellFormed_ite (decodeRegWr_wellFormed rest) ?_
    refine answersWellFormed_ite (decodeRegRd_wellFormed rest) ?_
    refine answersWellFormed_ite (decodeBufWr_wellFormed rest) ?_
    exact answersWellFormed_ite (decodeBufRd_wellFormed rest) (answersWellFormed_error _)

/-! ### Wire formats -/

/-- As many payload bytes as a 16-bit length field declares are within its range (40_frame_codec.md R112). -/
theorem framePayloadOk_take (len : Half) (bs : List Byte) : framePayloadOk (bs.take len.toNat) = true := by
  have := len.isLt
  simp only [framePayloadOk, List.length_take, decide_eq_true_eq]
  omega

/-- The payload of a block that the packet goes on after has its 128 bytes (30_encoding.md R88). -/
theorem blockPayloadOk_take {bs tail : List Byte} {b : Byte} (h : bs.drop Config.blockPayload = b :: tail) :
    blockPayloadOk (bs.take Config.blockPayload) = true := by
  have hlen := congrArg List.length h
  simp only [List.length_drop, List.length_cons] at hlen
  simp only [blockPayloadOk, List.length_take, beq_iff_eq]
  omega

theorem decodeFrame_wellFormed (p : Params) (dir : Direction) (bs : List Byte) :
    answersWellFormed (decodeFrame p dir bs) := by
  unfold decodeFrame
  split
  · split
    · dsimp only
      split
      · split
        · simpa [Instr.wellFormed] using framePayloadOk_take _ _
        · simp
      · simp
    · simp
  · simp

theorem decodeBlock_wellFormed (bs : List Byte) : answersWellFormed (decodeBlock bs) := by
  unfold decodeBlock
  split
  · split
    · next hdrop =>
      refine answersWellFormed_ite (answersWellFormed_ite ?_ (answersWellFormed_error _)) (answersWellFormed_error _)
      exact (answersWellFormed_ok _ _).2 (blockPayloadOk_take hdrop)
    · simp
  · simp

theorem decodeSecondCan_wellFormed (bs : List Byte) : answersWellFormed (decodeSecondCan bs) := by
  unfold decodeSecondCan
  split
  · split <;> simp [Instr.wellFormed]
  · simp

theorem decodeBlockTx_wellFormed (bs : List Byte) : answersWellFormed (decodeBlockTx bs) := by
  cases bs with
  | nil => simp [decodeBlockTx]
  | cons b rest =>
    refine answersWellFormed_ite (decodeBlock_wellFormed rest) ?_
    refine answersWellFormed_ite ((answersWellFormed_ok .eot rest).2 rfl) ?_
    exact answersWellFormed_ite (decodeSecondCan_wellFormed rest) (answersWellFormed_error _)

theorem decodeBlockRx_wellFormed (bs : List Byte) : answersWellFormed (decodeBlockRx bs) := by
  cases bs with
  | nil => simp [decodeBlockRx]
  | cons b rest =>
    refine answersWellFormed_ite ((answersWellFormed_ok .ack rest).2 rfl) ?_
    refine answersWellFormed_ite ((answersWellFormed_ok .nak rest).2 rfl) ?_
    exact answersWellFormed_ite ((answersWellFormed_ok .handshakeC rest).2 rfl) (answersWellFormed_error _)

/-! ### Every lane -/

theorem decode_wellFormed (p : Params) (pk : Packet) : answersWellFormed (decode p pk) := by
  unfold decode
  cases pk.lane with
  | command => exact decodeCommand_wellFormed pk.bytes
  | step => exact decodeStep_wellFormed pk.bytes
  | frameRx => exact decodeFrame_wellFormed p .rx pk.bytes
  | frameTx => exact decodeFrame_wellFormed p .tx pk.bytes
  | blockRx => exact decodeBlockRx_wellFormed pk.bytes
  | blockTx => exact decodeBlockTx_wellFormed pk.bytes

/-- Settles O2, lane by lane. -/
theorem decoderAnswersWellFormed : Obligations.DecoderAnswersWellFormed :=
  fun p pk => decode_wellFormed p pk

end Sys2Proof
end

section
/-! Memory (20_memory.md): what a host access of a buffer does, and which instructions change the buffers, the parameters,
the pending steps and what a session works with. -/

namespace Sys2Proof.Machine

/-! ### Host accesses -/

theorem execBufWr_ignored {sp : Space} {a : Word} {s : State} (b : Byte) (ha : a.toNat < spaceSize s.params sp)
    (hi : writeIgnored sp s = true) : execBufWr sp a b s = .next s := by
  simp [execBufWr, Nat.not_le.2 ha, hi]

theorem execBufWr_stores {sp : Space} {a : Word} {s : State} (b : Byte) (ha : a.toNat < spaceSize s.params sp)
    (hi : writeIgnored sp s = false) :
    execBufWr sp a b s = .next (s.withBuffer sp (Memory.write (s.buffer sp) a.toNat b)) := by
  simp [execBufWr, Nat.not_le.2 ha, hi]

/-- Settles O50: the writes that are ignored, and `Memory.write` for the others. -/
theorem bufferWriteStoresOneByte : Obligations.BufferWriteStoresOneByte := by
  intro sp a b s ha
  refine ⟨fun hignored => execBufWr_ignored b ha ?_, fun hstored => ⟨_, execBufWr_stores b ha ?_,
    Memory.read_write_same _ _ _, fun c => Memory.read_write_other _ _ c _⟩⟩
  · rcases hignored with rfl | ⟨rfl, hactive⟩
    · rfl
    · exact (active_iff s.teState).2 hactive
  · rcases hstored with rfl | rfl | ⟨rfl, hinactive⟩
    · rfl
    · rfl
    · exact (inactive_iff s.teState).2 hinactive

/-- Settles O51, by whether the byte holds a value. -/
theorem bufferReadReturnsByte : Obligations.BufferReadReturnsByte := by
  intro sp a s ha
  change (∀ b : Byte, _ → execBufRd sp a s = _) ∧ (_ → ∃ b : Byte, execBufRd sp a s = _)
  rw [execBufRd, if_neg (Nat.not_le.2 ha)]
  exact ⟨fun b hb => by rw [hb]; rfl, fun hn => ⟨Config.freeByte s.draws, by rw [hn]; rfl⟩⟩

/-- Settles O52: no register stands at such an offset, and no byte at such an address. -/
theorem nonexistentAccessesRefused : Obligations.NonexistentAccessesRefused := by
  refine ⟨fun off v s hoff => ?_, fun sp a b s ha => ⟨if_pos ha, if_pos ha⟩⟩
  change execRegWr off v s = _ ∧ execRegRd off s = _
  rw [execRegWr, execRegRd, regAt?_none off hoff]
  exact ⟨rfl, rfl⟩

/-! ### Steps that keep everything the host stored -/

/-- What a session works with: the image and the configuration of TE (70_reset_and_hazards.md R269). -/
structure SessionSetup where
  image        : Memory
  imgLen       : Word
  retryLimit   : Byte
  hsTimeoutMs  : Word
  blkTimeoutMs : Word
  progressEn   : Bool
  hwFlow       : Bool
  swFlow       : Bool
  totalBlocks  : Word

def State.sessionSetup (s : State) : SessionSetup where
  image := s.image
  imgLen := s.imgLen
  retryLimit := s.retryLimit
  hsTimeoutMs := s.hsTimeoutMs
  blkTimeoutMs := s.blkTimeoutMs
  progressEn := s.progressEn
  hwFlow := s.hwFlow
  swFlow := s.swFlow
  totalBlocks := s.totalBlocks

section

variable {s t : State}

/-- The parameters, the pending steps, the buffers and the session's setup are unchanged. -/
structure StoredKept (s t : State) : Prop where
  params : t.params = s.params
  pending : t.pending = s.pending
  buffer : t.buffer = s.buffer
  setup : t.sessionSetup = s.sessionSetup

theorem StoredKept.fcReceive (b : Byte) (s : State) : StoredKept s (fcReceive b s) := by
  rw [fcReceive_eq]
  refine ⟨by simp, by simp, funext fun sp => ?_, by simp [State.sessionSetup]⟩
  cases sp <;> simp [State.buffer]

theorem StoredKept.of_teFailedAttempt (h : teFailedAttempt s = .next t) : StoredKept s t := by
  rcases teFailedAttempt_next h with ⟨-, rfl⟩ | ⟨-, -, bs, -, rfl⟩ | ⟨-, -, rfl⟩ <;> exact ⟨rfl, rfl, rfl, rfl⟩

theorem StoredKept.of_teHandshake (h : teHandshake s = .next t) : StoredKept s t := by
  rcases teHandshake_next h with ⟨-, rfl⟩ | ⟨-, bs, -, rfl⟩ <;> exact ⟨rfl, rfl, rfl, rfl⟩

theorem StoredKept.of_teAckData (h : teAckData s = .next t) : StoredKept s t := by
  rcases teAckData_next h with ⟨-, bs, -, rfl⟩ | ⟨-, rfl⟩ <;> exact ⟨rfl, rfl, rfl, rfl⟩

theorem StoredKept.of_teReceive {b : Byte} (h : teReceive b s = .next t) : StoredKept s t := by
  rcases teReceive_next h with rfl | ⟨-, -, h⟩ | ⟨-, -, -, h⟩ | ⟨-, -, -, rfl⟩ | ⟨-, -, h⟩
  · exact ⟨rfl, rfl, rfl, rfl⟩
  · exact .of_teHandshake h
  · exact .of_teAckData h
  · exact ⟨rfl, rfl, rfl, rfl⟩
  · exact .of_teFailedAttempt h

theorem StoredKept.of_receiveByte {b : Byte} (h : receiveByte b s = .next t) : StoredKept s t := by
  obtain ⟨-, ⟨-, rfl⟩ | ⟨-, h⟩⟩ := receiveByte_next h
  · exact .fcReceive b s
  · exact .of_teReceive h

theorem StoredKept.of_transmittedOn {bs cs : List Byte} (h : transmittedOn bs cs s = .next t) : StoredKept s t :=
  have ⟨_, _, h, _⟩ := transmittedOn_next h
  .of_receiveByte h

theorem StoredKept.of_execTimeout (h : execTimeout s = .next t) : StoredKept s t := by
  rcases execTimeout_next h with ⟨-, rfl⟩ | ⟨-, h⟩
  · exact ⟨rfl, rfl, rfl, rfl⟩
  · exact .of_teFailedAttempt h

theorem StoredKept.of_execPortFault (h : execPortFault s = .next t) : StoredKept s t := by
  obtain ⟨-, ⟨-, rfl⟩ | ⟨-, rfl⟩⟩ := execPortFault_next h <;> exact ⟨rfl, rfl, rfl, rfl⟩

theorem StoredKept.of_execPortReopen (h : execPortReopen s = .next t) : StoredKept s t := by
  obtain ⟨-, rfl⟩ := execPortReopen_next h
  exact ⟨rfl, rfl, rfl, rfl⟩

theorem StoredKept.of_cancelSession (h : cancelSession s = .next t) : StoredKept s t := by
  rcases cancelSession_next h with ⟨_, rfl⟩ | ⟨-, rfl⟩ <;> exact ⟨rfl, rfl, rfl, rfl⟩

/-! ### Every instruction -/

/-- Does this instruction add to the pending steps (log 9)? -/
def addsPending : Instr → Bool
  | .frame _ _ _ _ => true
  | _ => false

/-- May this instruction write a buffer: BUF_WR, FC_RX_POP under either of its names, RESET? -/
def writesBuffer : Instr → Bool
  | .bufWr _ _ _ | .fcRxPop | .reset => true
  | .regWr off v => off = 0x00 && v.extractLsb' 0 8 = 0x02
  | _ => false

/-- What an instruction leaves unchanged of the parameters, the pending steps, the buffers and a session's setup. -/
structure StoredFrame (i : Instr) (s t : State) : Prop where
  params : t.params = s.params
  pending : addsPending i = false → t.pending = s.pending
  buffer : writesBuffer i = false → t.buffer = s.buffer
  setup : s.teState.active = true → t.teState.active = true → t.sessionSetup = s.sessionSetup

theorem StoredFrame.of_kept {i : Instr} (h : StoredKept s t) : StoredFrame i s t :=
  ⟨h.params, fun _ => h.pending, fun _ => h.buffer, fun _ _ => h.setup⟩

theorem StoredFrame.of_execFcRxPop (h : execFcRxPop s = .next t) : StoredFrame .fcRxPop s t := by
  rcases execFcRxPop_next h with ⟨_, rfl⟩ | ⟨f, rest, -, rfl⟩ <;> exact ⟨rfl, fun _ => rfl, nofun, fun _ _ => rfl⟩

/-- TE_START sets TOTAL_BLOCKS, and starts no session during a session (43_transfer_engine.md R185). -/
theorem StoredFrame.of_execTeStart (h : execTeStart s = .next t) : StoredFrame .teStart s t := by
  rcases execTeStart_next h with ⟨_, rfl⟩ | ⟨hinactive, -, -, -, rfl⟩
  · exact .of_kept ⟨rfl, rfl, rfl, rfl⟩
  · exact ⟨rfl, fun _ => rfl, fun _ => rfl, fun hactive => by simp [hinactive] at hactive⟩

theorem StoredFrame.of_command {c : Command} (h : exec c.toInstr s = .next t) : StoredFrame c.toInstr s t := by
  cases c with
  | nop | fcRxRestart => cases h; exact .of_kept ⟨rfl, rfl, rfl, rfl⟩
  | fcSend =>
    rcases execFcSend_next h with ⟨_, rfl⟩ | ⟨-, -, payload, -, rfl⟩ <;> exact .of_kept ⟨rfl, rfl, rfl, rfl⟩
  | fcRxPop => exact .of_execFcRxPop h
  | portGrantTe =>
    rcases execPortGrantTe_next h with ⟨_, rfl⟩ | ⟨-, rfl⟩ <;> exact .of_kept ⟨rfl, rfl, rfl, rfl⟩
  | portReturnFc =>
    rcases execPortReturnFc_next h with ⟨_, rfl⟩ | ⟨-, -, rfl⟩ <;> exact .of_kept ⟨rfl, rfl, rfl, rfl⟩
  | teStart => exact .of_execTeStart h
  | teCancel => exact .of_kept (.of_cancelSession h)
  | blockVerify => obtain ⟨v, -, rfl⟩ := execBlockVerify_next h; exact .of_kept ⟨rfl, rfl, rfl, rfl⟩

/-- A register write that is no command writes no buffer, and during a session no locked register (41_control.md R146). -/
theorem StoredFrame.writeReg (i : Instr) (r : HostReg) (v : Word) (s : State) : StoredFrame i s (writeReg r v s) := by
  obtain ⟨hparams, hpending, -, -, -, -, -, htotal, -, -, -, -, -, -, -, -, htx, hrx, himage, hv⟩ := writeReg_keeps r v s
  refine ⟨hparams, fun _ => hpending, fun _ => funext fun sp => ?_, fun hactive _ => ?_⟩
  · cases sp with
    | txbuf => exact htx
    | rxbuf => exact hrx
    | image => exact himage
    | vbuf => exact hv
  · obtain ⟨hlen, hretry, hhs, hblk, hprogress, hhw, hsw⟩ := writeReg_active r v s hactive
    simp only [State.sessionSetup, himage, hlen, hretry, hhs, hblk, hprogress, hhw, hsw, htotal]

/-- A write of CMD writes a buffer if the command that its low byte selects does. -/
theorem writesBuffer_regWr_cmd {c : Command} {v : Word} (hv : v.extractLsb' 0 8 = c.opcode) :
    writesBuffer (.regWr 0x00 v) = writesBuffer c.toInstr := by
  simp only [writesBuffer, hv]
  cases c <;> rfl

theorem StoredFrame.of_execRegWr {off : Byte} {v : Word} (h : execRegWr off v s = .next t) :
    StoredFrame (.regWr off v) s t := by
  rcases execRegWr_next h with ⟨r, rfl⟩ | ⟨rfl, c, hv, h⟩ | ⟨-, rfl⟩
  · exact .writeReg _ r v s
  · have hc := StoredFrame.of_command h
    refine ⟨hc.params, fun _ => hc.pending ?_, fun hw => hc.buffer (writesBuffer_regWr_cmd hv ▸ hw), hc.setup⟩
    cases c <;> rfl
  · exact .of_kept ⟨rfl, rfl, rfl, rfl⟩

/-- A host write of a buffer does not reach the image during a session (20_memory.md R65). -/
theorem StoredFrame.of_execBufWr {sp : Space} {a : Word} {b : Byte} (h : execBufWr sp a b s = .next t) :
    StoredFrame (.bufWr sp a b) s t := by
  obtain ⟨-, ⟨-, rfl⟩ | ⟨hstored, rfl⟩⟩ := execBufWr_next h
  · exact .of_kept ⟨rfl, rfl, rfl, rfl⟩
  · refine ⟨by simp, fun _ => by simp, nofun, fun hactive _ => ?_⟩
    cases sp with
    | image => exact absurd hactive (by simpa [writeIgnored] using hstored)
    | _ => rfl

theorem storedFrame_of_exec {i : Instr} (h : exec i s = .next t) : StoredFrame i s t := by
  cases i with
  | nop => exact .of_command (c := .nop) h
  | fcSend => exact .of_command (c := .fcSend) h
  | fcRxPop => exact .of_command (c := .fcRxPop) h
  | fcRxRestart => exact .of_command (c := .fcRxRestart) h
  | portGrantTe => exact .of_command (c := .portGrantTe) h
  | portReturnFc => exact .of_command (c := .portReturnFc) h
  | teStart => exact .of_command (c := .teStart) h
  | blockVerify => exact .of_command (c := .blockVerify) h
  | teCancel | canCan => exact .of_kept (.of_cancelSession h)
  | rxByte | ack | nak | handshakeC => exact .of_kept (.of_receiveByte h)
  | timeout => exact .of_kept (.of_execTimeout h)
  | portFault => exact .of_kept (.of_execPortFault h)
  | portReopen => exact .of_kept (.of_execPortReopen h)
  | reset => cases h; exact ⟨rfl, fun _ => rfl, nofun, fun _ => nofun⟩
  | regWr off v => exact .of_execRegWr h
  | regRd off => obtain ⟨v, rfl⟩ := execRegRd_next h; exact .of_kept ⟨rfl, rfl, rfl, rfl⟩
  | bufWr sp a b => exact .of_execBufWr h
  | bufRd sp a => obtain ⟨v, n, rfl⟩ := execBufRd_next h; exact .of_kept ⟨rfl, rfl, rfl, rfl⟩
  | frame => obtain ⟨steps, -, rfl⟩ := execFrame_next h; exact ⟨rfl, nofun, fun _ => rfl, fun _ _ => rfl⟩
  | block => exact .of_kept (.of_transmittedOn (execBlock_next h).2)
  | eot => exact .of_kept (.of_transmittedOn h)

end

/-! ### The statements -/

/-- Settles O58: from one state of a session to the next, an instruction leaves the session its setup. -/
theorem sessionConfigurationIsStable : Obligations.SessionConfigurationIsStable := by
  intro i s t h hs ht
  have hsetup := (storedFrame_of_exec h).setup hs ht
  simpa only [State.sessionSetup, SessionSetup.mk.injEq] using hsetup

/-- Settles O60: the exceptions it lists are the instructions that expand and those that write a buffer. -/
theorem buffersChangeOnlyByStores : Obligations.BuffersChangeOnlyByStores := by
  intro i s t h
  have hkept := storedFrame_of_exec h
  refine ⟨hkept.params, fun hframe => hkept.pending ?_, fun hbuf hpop hreset hcmd sp a => ?_⟩
  · cases i with
    | frame dir id type payload => exact absurd rfl (hframe dir id type payload)
    | _ => rfl
  · have hwrites : writesBuffer i = false := by
      cases i with
      | bufWr sp a b => exact absurd rfl (hbuf sp a b)
      | fcRxPop => exact absurd rfl hpop
      | reset => exact absurd rfl hreset
      | regWr off v =>
        refine Bool.eq_false_iff.2 fun hw => ?_
        simp only [writesBuffer, Bool.and_eq_true, decide_eq_true_eq] at hw
        obtain ⟨rfl, hv⟩ := hw
        exact hcmd v hv rfl
      | _ => rfl
    rw [hkept.buffer hwrites]

end Sys2Proof.Machine
end

section
/-! Encoding (30_encoding.md): each encoding is read back as its instruction, whatever bytes follow, and a frame's layout. -/

namespace Sys2Proof

/-! ### Commands and steps -/

/-- The low byte of a command word selects the command, whatever the other three are (30_encoding.md R80). -/
theorem decodeCommand_opcode (c : Command) (b1 b2 b3 : Byte) (rest : List Byte) :
    decodeCommand (c.opcode :: b1 :: b2 :: b3 :: rest) = .ok (c.toInstr, rest) := by
  simp only [decodeCommand, Command.ofOpcode?_opcode]

theorem decodeRegWr_le32 {off : Byte} (v : Word) (rest : List Byte) (h : regOffsetOk off = true) :
    decodeRegWr (off :: le32 v ++ rest) = .ok (.regWr off v, rest) := by
  simp [decodeRegWr, le32, h, word32_le32]

theorem decodeRegRd_offset {off : Byte} (rest : List Byte) (h : regOffsetOk off = true) :
    decodeRegRd (off :: rest) = .ok (.regRd off, rest) := by
  simp [decodeRegRd, h]

theorem decodeBufWr_le32 (sp : Space) (a : Word) (b : Byte) (rest : List Byte) :
    decodeBufWr (sp.code :: le32 a ++ [b] ++ rest) = .ok (.bufWr sp a b, rest) := by
  simp [decodeBufWr, le32, Space.ofCode?_code, word32_le32]

theorem decodeBufRd_le32 (sp : Space) (a : Word) (rest : List Byte) :
    decodeBufRd (sp.code :: le32 a ++ rest) = .ok (.bufRd sp a, rest) := by
  simp [decodeBufRd, le32, Space.ofCode?_code, word32_le32]

/-! ### Wire formats -/

/-- The length field of a frame holds its payload's length (40_frame_codec.md R112). -/
theorem ofNat_length_toNat {payload : List Byte} (h : payload.length ≤ 65535) :
    (BitVec.ofNat 16 payload.length).toNat = payload.length := by
  rw [BitVec.toNat_ofNat]; omega

theorem decodeFrame_encodeFrame (p : Params) (dir : Direction) (id : Byte) (type : Half) {payload : List Byte}
    (rest : List Byte) (h : payload.length ≤ 65535) :
    decodeFrame p dir (encodeFrame p id type payload ++ rest) = .ok (.frame dir id type payload, rest) := by
  obtain ⟨t0, t1, l0, l1, hbody, htype, hlen⟩ := frameBody_bytes p id type payload
  simp [encodeFrame, hbody, decodeFrame, htype, hlen, ofNat_length_toNat h]

/-- The bytes that join high byte first to a value add up to it (20_memory.md R63). -/
theorem toNat_of_append {hi lo : Byte} {v : Half} (h : hi ++ lo = v) : hi.toNat * 256 + lo.toNat = v.toNat :=
  ((be16_eq_iff v hi lo).1 (h ▸ (put16_of_field16 .be hi lo).symm)).symm

/-- A block is read back from its bytes after the SOH (30_encoding.md R88). -/
theorem decodeBlock_encodeBlock (blk : Byte) {payload : List Byte} (rest : List Byte)
    (h : payload.length = Config.blockPayload) :
    decodeBlock (blk :: complement blk :: payload ++ be16 (crc16 payload) ++ rest) = .ok (.block blk payload, rest) := by
  simp [decodeBlock, ← h, be16]

/-! ### Every instruction -/

theorem decode_encode (p : Params) {i : Instr} (rest : List Byte) (h : i.wellFormed = true) :
    decode p { lane := (encode p i).lane, bytes := (encode p i).bytes ++ rest } = .ok (i, rest) := by
  cases i with
  | nop => exact decodeCommand_opcode .nop 0 0 0 rest
  | fcSend => exact decodeCommand_opcode .fcSend 0 0 0 rest
  | fcRxPop => exact decodeCommand_opcode .fcRxPop 0 0 0 rest
  | fcRxRestart => exact decodeCommand_opcode .fcRxRestart 0 0 0 rest
  | portGrantTe => exact decodeCommand_opcode .portGrantTe 0 0 0 rest
  | portReturnFc => exact decodeCommand_opcode .portReturnFc 0 0 0 rest
  | teStart => exact decodeCommand_opcode .teStart 0 0 0 rest
  | teCancel => exact decodeCommand_opcode .teCancel 0 0 0 rest
  | blockVerify => exact decodeCommand_opcode .blockVerify 0 0 0 rest
  | rxByte | timeout | portFault | portReopen | reset | eot | canCan | ack | nak | handshakeC => rfl
  | regWr off v => exact decodeRegWr_le32 v rest h
  | regRd off => exact decodeRegRd_offset rest h
  | bufWr sp a b => exact decodeBufWr_le32 sp a b rest
  | bufRd sp a => exact decodeBufRd_le32 sp a rest
  | frame dir id type payload =>
    have hlen : payload.length ≤ 65535 := of_decide_eq_true h
    cases dir with
    | rx => exact decodeFrame_encodeFrame p .rx id type rest hlen
    | tx => exact decodeFrame_encodeFrame p .tx id type rest hlen
  | block blk payload => exact decodeBlock_encodeBlock blk rest (eq_of_beq h)

/-! ### The statements -/

/-- Settles O1: each lane's decoder reads its encoder's bytes back and leaves what follows them. -/
theorem decodeEncodeRoundTrip : Obligations.DecodeEncodeRoundTrip :=
  fun p _ rest h => decode_encode p rest h

/-- Settles O3: the decoder of command words looks at the low byte only. -/
theorem opcodeAloneSelectsCommand : Obligations.OpcodeAloneSelectsCommand :=
  fun _ c b1 b2 b3 => decodeCommand_opcode c b1 b2 b3 []

/-- Settles O4: two command words, and five packets that are the encodings of their instructions. -/
theorem writtenWordsDecode : Obligations.WrittenWordsDecode :=
  ⟨decodeCommand_opcode .teStart 0 0 0 [], decodeCommand_opcode .portGrantTe 0xEF 0xCD 0xAB [],
    decode_encode Params.default (i := .regWr 0x54 10) [] rfl, decode_encode Params.default (i := .rxByte 0x43) [] rfl,
    decode_encode Params.default (i := .frame .rx 3 0xFFFF [0, 1, 2, 3]) [] rfl,
    decode_encode Params.default (i := .nak) [] rfl, decode_encode Params.default (i := .canCan) [] rfl⟩

/-- Settles O11, by the header bytes that the type and length fields put. -/
theorem encodedFrameLayout : Obligations.EncodedFrameLayout := by
  intro p id type payload h
  obtain ⟨t0, t1, l0, l1, hbody, htype, hlen⟩ := frameBody_bytes p id type payload
  refine ⟨encodeFrame_length p id type payload, t0, t1, l0, l1, _, by rw [encodeFrame, hbody], rfl, ?_⟩
  rw [← ofNat_length_toNat h]
  cases ho : p.fieldOrder with
  | be | le =>
    rw [ho] at htype hlen
    exact ⟨toNat_of_append htype, toNat_of_append hlen⟩

end Sys2Proof
end

section
/-! FRAME (30_encoding.md R93): running the pending steps it expands to is taking those steps one after the other. -/

namespace Sys2Proof.Machine

/-! ### Steps taken one after the other -/

theorem afterSteps_cons (i : Instr) (is : List Instr) (s : State) :
    afterSteps (i :: is) s = andThen (exec i s) (afterSteps is) := rfl

theorem afterSteps_singleton (i : Instr) (s : State) : afterSteps [i] s = exec i s := by
  rw [afterSteps_cons]
  cases exec i s <;> rfl

theorem afterSteps_append {is js : List Instr} {s t : State} (h : afterSteps is s = .next t) :
    afterSteps (is ++ js) s = afterSteps js t := by
  induction is generalizing s with
  | nil => cases h; rfl
  | cons i is ih =>
    obtain ⟨u, hu, h⟩ := andThen_eq_next h
    rw [List.cons_append, afterSteps_cons, hu, andThen_next, ih h]

/-! ### Pending steps -/

/-- Its outcome does not depend on the pending steps, nor does it change them. -/
def ignoresPending (i : Instr) : Prop :=
  ∀ (s : State) (q : List Packet), exec i (s.withPending q) = Result.withPending (exec i s) q

/-- A step may stand in an expansion: it has an encoding, and it ignores the pending steps. -/
structure Expandable (i : Instr) : Prop where
  wellFormed : i.wellFormed = true
  ignores : ignoresPending i

theorem ignoresPending.pending_eq {i : Instr} (hi : ignoresPending i) {s t : State} (h : exec i s = .next t) :
    t.pending = s.pending := by
  have hsame := hi s s.pending
  rw [h] at hsame
  have ht : t = t.withPending s.pending := Host.Outcome.next.inj hsame
  rw [ht]

/-- The next pending step runs on the state with the others pending. -/
theorem step_expand_cons {i : Instr} (hi : Expandable i) (is : List Instr) (s : State) :
    step (expand (i :: is) s) = Result.withPending (exec i s) (expand is s).pending := by
  have hd : decode s.params (encode s.params i) = .ok (i, []) := by
    simpa using decode_encode s.params [] hi.wellFormed
  rw [step_decoded (s := expand (i :: is) s) rfl hd, ← hi.ignores]
  rfl

/-- The steps of an expansion have the outcome of being taken one after the other. -/
theorem runSteps_expand {is : List Instr} (h : ∀ i ∈ is, Expandable i) (s : State) :
    runSteps is.length (expand is s) = afterSteps is s := by
  induction is generalizing s with
  | nil => rfl
  | cons i is ih =>
    obtain ⟨hi, his⟩ := List.forall_mem_cons.1 h
    change andThen (step (expand (i :: is) s)) (runSteps is.length) = _
    rw [step_expand_cons hi, afterSteps_cons]
    cases ht : exec i s with
    | next t =>
      have hrest : t.withPending (expand is s).pending = expand is t := by
        rw [expand_pending, ← (storedFrame_of_exec ht).params, ← hi.ignores.pending_eq ht]
        rfl
      simp only [Result.withPending_next, andThen_next, hrest, ih his]
    | fault e => rfl
    | refused e => rfl

/-! ### The steps of `rxframe` and `send` -/

theorem expandable_rxframeSteps (p : Params) (id : Byte) (type : Half) (payload : List Byte) :
    ∀ i ∈ rxframeSteps p id type payload, Expandable i :=
  List.forall_mem_map.2 fun b _ => ⟨rfl, receiveByte_withPending b⟩

theorem expandable_bufWrites (a : Nat) (bs : List Byte) : ∀ i ∈ bufWrites .txbuf a bs, Expandable i := by
  induction bs generalizing a with
  | nil => simp [bufWrites]
  | cons b bs ih => exact List.forall_mem_cons.2 ⟨⟨rfl, execBufWr_txbuf_withPending _ b⟩, ih (a + 1)⟩

theorem writeReg_withPending (r : HostReg) (v : Word) (s : State) (q : List Packet) :
    writeReg r v (s.withPending q) = (writeReg r v s).withPending q := by
  unfold writeReg
  split
  · rfl
  · cases r <;> rfl

theorem expandable_regWr {off : Byte} {r : HostReg} (v : Word) (hr : regAt? off = some r) (hc : r ≠ .cmd)
    (hoff : regOffsetOk off = true) : Expandable (.regWr off v) where
  wellFormed := hoff
  ignores s q := by
    rw [exec_regWr v _ hr hc, exec_regWr v s hr hc, writeReg_withPending, Result.withPending_next]

theorem execFcSend_withPending (s : State) (q : List Packet) :
    execFcSend (s.withPending q) = Result.withPending (execFcSend s) q := by
  unfold execFcSend
  split
  · rfl
  · split
    · rfl
    · exact withBytes_withPending fun _ => rfl

theorem exec_regWr_fcSend (s : State) : exec (.regWr 0x00 0x01) s = execFcSend s :=
  exec_regWr_cmd (c := .fcSend) rfl s

theorem expandable_regWr_fcSend : Expandable (.regWr 0x00 0x01) where
  wellFormed := rfl
  ignores s q := by rw [exec_regWr_fcSend, exec_regWr_fcSend, execFcSend_withPending]

theorem expandable_sendSteps (id : Byte) (type : Half) (payload : List Byte) :
    ∀ i ∈ sendSteps id type payload, Expandable i := by
  refine List.forall_mem_append.2 ⟨expandable_bufWrites 0 payload, ?_⟩
  simp only [List.forall_mem_cons, List.not_mem_nil, false_imp_iff, implies_true, and_true]
  exact ⟨expandable_regWr (r := .txId) _ rfl (by decide) rfl, expandable_regWr (r := .txType) _ rfl (by decide) rfl,
    expandable_regWr (r := .txLen) _ rfl (by decide) rfl, expandable_regWr_fcSend⟩

theorem bufWrites_length (sp : Space) (a : Nat) (bs : List Byte) : (bufWrites sp a bs).length = bs.length := by
  induction bs generalizing a with
  | nil => rfl
  | cons b bs ih => simp [bufWrites, ih]

theorem sendSteps_length (id : Byte) (type : Half) (payload : List Byte) :
    (sendSteps id type payload).length = payload.length + 4 := by
  simp [sendSteps, bufWrites_length]

/-! ### What `send` does -/

/-- The buffer writes of `send` store the bytes in TXBUF (30_encoding.md R92). -/
theorem afterSteps_bufWrites {a : Nat} {bs : List Byte} (s : State) (h : a + bs.length ≤ 65535) :
    afterSteps (bufWrites .txbuf a bs) s = .next { s with txbuf := Memory.writeAll s.txbuf a bs } := by
  induction bs generalizing a s with
  | nil => rfl
  | cons b bs ih =>
    rw [List.length_cons] at h
    have ha : (BitVec.ofNat 32 a).toNat = a := by rw [BitVec.toNat_ofNat]; omega
    have hlt : (BitVec.ofNat 32 a).toNat < spaceSize s.params .txbuf := by rw [ha, spaceSize]; omega
    have hstore := execBufWr_stores b hlt rfl
    rw [ha] at hstore
    change andThen (execBufWr .txbuf (BitVec.ofNat 32 a) b s) (afterSteps (bufWrites .txbuf (a + 1) bs)) = _
    rw [hstore, andThen_next, ih _ (by omega)]
    rfl

/-- FC_SEND with the whole payload in TXBUF, while FC owns an open link (40_frame_codec.md R113). -/
theorem execFcSend_held {s : State} {payload : List Byte} (ho : s.owner = .fc) (hl : s.linkUp = true)
    (hlen : payload.length = s.txLen.toNat) (hb : holdsAt s.txbuf 0 payload) :
    execFcSend s =
      .next { s with txlog := s.txlog ++ encodeFrame s.params s.txId s.txType payload, result := .ok } := by
  rw [execFcSend, if_neg (by simp [ho]), if_neg (by simp [hl]), ← hlen, memRead_ok .txbuf s.txbuf 0 payload hb]
  rfl

/-- The register writes of `send`, then FC_SEND (30_encoding.md R93). -/
theorem afterSteps_sendRegWrites (id : Byte) (type : Half) (n : Nat) (s : State) :
    afterSteps
        [.regWr 0x10 (id.setWidth 32), .regWr 0x14 (type.setWidth 32), .regWr 0x18 (BitVec.ofNat 32 n), .regWr 0x00 0x01]
        s =
      execFcSend { s with txId := id, txType := type, txLen := BitVec.ofNat 16 n } := by
  rw [afterSteps_cons, exec_regWr _ s (r := .txId) rfl (by decide), andThen_next,
    afterSteps_cons, exec_regWr _ _ (r := .txType) rfl (by decide), andThen_next,
    afterSteps_cons, exec_regWr _ _ (r := .txLen) rfl (by decide), andThen_next,
    afterSteps_singleton, exec_regWr_fcSend]
  simp [writeReg, HostReg.locked, storeReg]

theorem afterSteps_sendSteps (id : Byte) (type : Half) {payload : List Byte} {s : State} (h : payload.length ≤ 65535)
    (ho : s.owner = .fc) (hl : s.linkUp = true) :
    afterSteps (sendSteps id type payload) s =
      .next
        { s with
          txbuf := Memory.writeAll s.txbuf 0 payload, txId := id, txType := type
          txLen := BitVec.ofNat 16 payload.length
          txlog := s.txlog ++ encodeFrame s.params id type payload, result := .ok } := by
  rw [sendSteps, afterSteps_append (afterSteps_bufWrites s (by omega)), afterSteps_sendRegWrites]
  exact execFcSend_held ho hl (ofNat_length_toNat h).symm (Memory.read_writeAll_inside s.txbuf 0 payload)

/-! ### The instruction and its statement -/

theorem exec_frame_rx (id : Byte) (type : Half) {payload : List Byte} (s : State) (h : payload.length ≤ 65535) :
    exec (.frame .rx id type payload) s = .next (expand (rxframeSteps s.params id type payload) s) :=
  if_neg (by simpa [framePayloadOk] using h)

theorem exec_frame_tx (id : Byte) (type : Half) {payload : List Byte} (s : State) (h : payload.length ≤ 65535) :
    exec (.frame .tx id type payload) s = .next (expand (sendSteps id type payload) s) :=
  if_neg (by simpa [framePayloadOk] using h)

/-- Settles O24: the steps of both expansions may stand in `pending`, and `send` ends with FC_SEND on its own payload. -/
theorem frameExpandsToAgentSteps : Obligations.FrameExpandsToAgentSteps := by
  intro id type payload s h
  refine ⟨⟨_, exec_frame_rx id type s h, ?_, ?_⟩, _, exec_frame_tx id type s h, rfl, fun ho hl =>
    ⟨Memory.writeAll s.txbuf 0 payload, Memory.read_writeAll_inside s.txbuf 0 payload, fun a ha => ?_, ?_⟩⟩
  · simp [expand, rxframeSteps, encode]
  · have hrun := runSteps_expand (expandable_rxframeSteps s.params id type payload) s
    rwa [rxframeSteps, List.length_map, encodeFrame_length] at hrun
  · exact Memory.read_writeAll_outside _ _ _ _ (.inr (by omega))
  · rw [← sendSteps_length id type payload, runSteps_expand (expandable_sendSteps id type payload),
      afterSteps_sendSteps id type h ho hl]

end Sys2Proof.Machine
end

section
/-! ACK, NAK and HANDSHAKE_C (log 8): each is the arrival of its byte. -/

namespace Sys2Proof.Machine

/-- Settles O40: each row is RX_BYTE of its byte, which TE answers. -/
theorem replySymbolsAreReceivedBytes : Obligations.ReplySymbolsAreReceivedBytes := by
  intro s
  refine ⟨⟨rfl, rfl, rfl⟩, fun hl ho hs hp => ?_, fun hl ho hs hp hr => ?_, fun bs hl ho hs h0 hb => ?_⟩
  · exact (receiveByte_te 0x06 s hl ho).trans (teReceive_ack_eot hs hp)
  · exact (receiveByte_te 0x15 s hl ho).trans ((teReceive_nak hs).trans (teFailedAttempt_eot hr hp))
  · exact (receiveByte_te 0x43 s hl ho).trans ((teReceive_handshake hs).trans (teHandshake_block h0 hb))

end Sys2Proof.Machine
end

section
/-! The decoder (40_frame_codec.md section 3): one induction over a scan, and what follows from it for pieces of a stream. -/

namespace Sys2Proof.Machine

/-! ### A candidate with its whole header -/

theorem candidate_lengthMismatch {p : Params} {m id t0 t1 l0 l1 : Byte} {tail : List Byte}
    (h : p.maxRxPayload.toNat < (field16 p.fieldOrder l0 l1).toNat) :
    candidate p (m :: id :: t0 :: t1 :: l0 :: l1 :: tail) = .lengthMismatch := by
  rw [candidate_header, if_pos (BitVec.lt_def.2 h)]

theorem candidate_tail_short {p : Params} {m id t0 t1 l0 l1 : Byte} {tail : List Byte}
    (hmax : (field16 p.fieldOrder l0 l1).toNat ≤ p.maxRxPayload.toNat)
    (h : tail.length ≤ (field16 p.fieldOrder l0 l1).toNat) :
    candidate p (m :: id :: t0 :: t1 :: l0 :: l1 :: tail) = .incomplete := by
  rw [candidate_header, if_neg (BitVec.not_lt.2 (BitVec.le_def.2 hmax)), List.drop_eq_nil_of_le h]

/-- A candidate whose payload and checksum byte are all there is tested by its checksum (40_frame_codec.md R116, R117). -/
theorem candidate_complete {p : Params} {m id t0 t1 l0 l1 : Byte} {payload : List Byte} (c : Byte) (after : List Byte)
    (hmax : (field16 p.fieldOrder l0 l1).toNat ≤ p.maxRxPayload.toNat)
    (hlen : payload.length = (field16 p.fieldOrder l0 l1).toNat) :
    candidate p (m :: id :: t0 :: t1 :: l0 :: l1 :: (payload ++ c :: after)) =
      if checksumOf p.checksum ([m, id, t0, t1, l0, l1] ++ payload) = c then
        .accepted { id := id, type := field16 p.fieldOrder t0 t1, payload := payload, checksum := c }
      else .checksumMismatch := by
  rw [candidate_header, if_neg (BitVec.not_lt.2 (BitVec.le_def.2 hmax)), List.drop_left' hlen, List.take_left' hlen]

/-! ### The loop -/

/-- The passes of a scan, as an induction: over a byte that is no marker, and over a candidate by its verdict. -/
theorem scan_induction (p : Params) {motive : List Byte → Prop} (nil : motive [])
    (garbage : ∀ b rest, b ≠ p.startMarker → motive rest → motive (b :: rest))
    (incomplete : ∀ rest, candidate p (p.startMarker :: rest) = .incomplete → motive (p.startMarker :: rest))
    (rejected : ∀ rest,
      candidate p (p.startMarker :: rest) = .lengthMismatch ∨ candidate p (p.startMarker :: rest) = .checksumMismatch →
        motive rest → motive (p.startMarker :: rest))
    (accepted : ∀ f rest, candidate p (p.startMarker :: rest) = .accepted f → 6 + f.payload.length ≤ rest.length →
      motive (rest.drop (6 + f.payload.length)) → motive (p.startMarker :: rest))
    (win : List Byte) : motive win := by
  induction hn : win.length using Nat.strongRecOn generalizing win with
  | ind n ih =>
    cases win with
    | nil => exact nil
    | cons b rest =>
      have shorter (k : Nat) : motive (rest.drop k) := ih _ (by rw [List.length_drop, ← hn, List.length_cons]; omega) _ rfl
      by_cases hb : b = p.startMarker
      · subst hb
        rcases candidate_cases p (p.startMarker :: rest) with ⟨h, -⟩ | h | h | ⟨f, h, hlen, -⟩
        · exact incomplete rest h
        · exact rejected rest (.inl h) (shorter 0)
        · exact rejected rest (.inr h) (shorter 0)
        · exact accepted f rest h (by rw [List.length_cons] at hlen; omega) (shorter _)
      · exact garbage b rest hb (shorter 0)

theorem scan_garbage_append {p : Params} {garbage : List Byte} (h : p.startMarker ∉ garbage) (win : List Byte) :
    scan p (garbage ++ win) = scan p win := by
  induction garbage with
  | nil => rfl
  | cons b rest ih =>
    obtain ⟨hb, hrest⟩ := not_or.1 (mt List.mem_cons.2 h)
    rw [List.cons_append, scan_garbage p b _ (Ne.symm hb), ih hrest]

/-- A complete candidate with the right checksum byte is found, and the scan goes on after it (40_frame_codec.md R116). -/
theorem scan_complete {p : Params} {id t0 t1 l0 l1 c : Byte} {payload : List Byte} (after : List Byte)
    (hmax : (field16 p.fieldOrder l0 l1).toNat ≤ p.maxRxPayload.toNat)
    (hlen : payload.length = (field16 p.fieldOrder l0 l1).toNat)
    (hc : checksumOf p.checksum ([p.startMarker, id, t0, t1, l0, l1] ++ payload) = c) :
    scan p (p.startMarker :: id :: t0 :: t1 :: l0 :: l1 :: (payload ++ c :: after)) =
      { scan p after with
        frames :=
          { id := id, type := field16 p.fieldOrder t0 t1, payload := payload, checksum := c } ::
            (scan p after).frames } := by
  have hdrop : (id :: t0 :: t1 :: l0 :: l1 :: (payload ++ c :: after)).drop (6 + payload.length) = after := by
    simp [show 6 + payload.length = payload.length + 1 + 5 by omega]
  have hscan := scan_accepted p _ _ ((candidate_complete c after hmax hlen).trans (if_pos hc))
  rwa [hdrop] at hscan

/-- Settles O20, by what the test of the candidate says in each pass. -/
theorem scanFollowsTheLoop : Obligations.ScanFollowsTheLoop := by
  intro p
  refine ⟨fun win h => ?_, fun garbage win h => scan_garbage_append h win, fun win hm hlen => ?_,
    fun id t0 t1 l0 l1 tail => ⟨fun hmax => ?_, fun hmax hlen => ?_, fun payload c after hmax hlen htail => ?_⟩⟩
  · simpa using scan_garbage_append h []
  · obtain ⟨rest, rfl⟩ := List.head?_eq_some_iff.1 hm
    exact scan_incomplete p rest (candidate_short p _ hlen)
  · exact scan_rejected p _ (.inl (candidate_lengthMismatch hmax))
  · have htotal : tail.length + 6 < 7 + (field16 p.fieldOrder l0 l1).toNat := hlen
    have htail : tail.length ≤ (field16 p.fieldOrder l0 l1).toNat := by omega
    exact scan_incomplete p _ (candidate_tail_short hmax htail)
  · obtain rfl : tail = payload ++ c :: after := by simp [htail]
    exact ⟨scan_complete after hmax hlen, fun hc =>
      scan_rejected p _ (.inr ((candidate_complete c after hmax hlen).trans (if_neg hc)))⟩

/-! ### A stream in pieces -/

/-- What two scans find together, the second on the window that the first left. -/
def Scan.andThen (r r' : Scan) : Scan :=
  { window := r'.window, frames := r.frames ++ r'.frames, errs := r.errs + r'.errs }

/-- Scanning in pieces is scanning at once: a verdict on a candidate does not change with the bytes that follow. -/
theorem scan_append (p : Params) (xs ys : List Byte) :
    scan p (xs ++ ys) = (scan p xs).andThen (scan p ((scan p xs).window ++ ys)) := by
  induction xs using scan_induction p with
  | nil => simp [Scan.andThen]
  | garbage b rest hb ih => rw [List.cons_append, scan_garbage p b _ hb, scan_garbage p b _ hb, ih]
  | incomplete rest h => simp [scan_incomplete p rest h, Scan.andThen]
  | rejected rest h ih =>
    have hmore := candidate_append p (p.startMarker :: rest) ys (by rcases h with h | h <;> simp [h])
    rw [scan_rejected p rest h, List.cons_append, scan_rejected p _ (by rwa [← List.cons_append, hmore]), ih]
    simp [Scan.andThen, Nat.add_right_comm]
  | accepted f rest h hlen ih =>
    have hmore := candidate_append p (p.startMarker :: rest) ys (by simp [h])
    rw [scan_accepted p rest f h, List.cons_append, scan_accepted p _ f (by rw [← List.cons_append, hmore, h]),
      List.drop_append_of_le_length hlen, ih]
    simp [Scan.andThen]

/-- Settles O21, by `scan_append`. -/
theorem scanInPiecesIsScanAtOnce : Obligations.ScanInPiecesIsScanAtOnce :=
  fun p xs ys => scan_append p xs ys

/-- A window that a scan left is held by the next one: it holds no frame and no rejected candidate. -/
theorem scan_window (p : Params) (win : List Byte) :
    scan p (scan p win).window = { window := (scan p win).window, frames := [], errs := 0 } := by
  have h := scan_append p win []
  simp only [List.append_nil] at h
  generalize scan p (scan p win).window = r at h ⊢
  generalize scan p win = r₀ at h ⊢
  obtain ⟨w, fs, n⟩ := r
  obtain ⟨w₀, fs₀, n₀⟩ := r₀
  simpa [Scan.andThen, eq_comm] using h

/-- Settles O22: the window that a scan leaves is shorter than what its header declares. -/
theorem scanBoundsTheWindow : Obligations.ScanBoundsTheWindow := by
  intro p win
  have hok := scan_windowOk p win
  refine ⟨hok, ?_⟩
  rcases hok with h | ⟨-, h | ⟨h, hmax⟩⟩
  · simp [h]
  · omega
  · omega

/-! ### Resynchronisation -/

/-- No candidate of a stream that starts before position `n` is left open there or is accepted across it. -/
def CandidatesEndBy (p : Params) (stream : List Byte) (n : Nat) : Prop :=
  ∀ q : Nat, q < n → (stream.drop q).head? = some p.startMarker →
    candidate p (stream.drop q) ≠ .incomplete ∧
      ∀ f : Frame, candidate p (stream.drop q) = .accepted f → q + (7 + f.payload.length) ≤ n

theorem CandidatesEndBy.drop {p : Params} {stream : List Byte} {n : Nat} (h : CandidatesEndBy p stream n) (k : Nat) :
    CandidatesEndBy p (stream.drop k) (n - k) := by
  intro q hq hm
  rw [List.drop_drop] at hm ⊢
  obtain ⟨hopen, hend⟩ := h (k + q) (by omega) hm
  exact ⟨hopen, fun f hf => by have := hend f hf; omega⟩

/-- Then the scan comes to that position: the frames found from there on are the last ones it finds. -/
theorem CandidatesEndBy.frames_suffix {p : Params} {stream : List Byte} {n : Nat} (h : CandidatesEndBy p stream n) :
    (scan p (stream.drop n)).frames <:+ (scan p stream).frames := by
  induction stream using scan_induction p generalizing n with
  | nil => simp
  | garbage b rest hb ih =>
    cases n with
    | zero => exact List.suffix_rfl
    | succ n => rw [scan_garbage p b rest hb]; exact ih (h.drop 1)
  | incomplete rest hc =>
    cases n with
    | zero => exact List.suffix_rfl
    | succ n => exact absurd hc (h 0 n.succ_pos rfl).1
  | rejected rest hc ih =>
    cases n with
    | zero => exact List.suffix_rfl
    | succ n => rw [scan_rejected p rest hc]; exact ih (h.drop 1)
  | accepted f rest hc hlen ih =>
    cases n with
    | zero => exact List.suffix_rfl
    | succ n =>
      have hend := (h 0 n.succ_pos rfl).2 f hc
      have hrest := ih (n := n - (6 + f.payload.length)) (by simpa using (h.drop 1).drop (6 + f.payload.length))
      rw [List.drop_drop, Nat.add_sub_cancel' (by omega)] at hrest
      rw [scan_accepted p rest f hc]
      exact hrest.trans (List.suffix_cons f _)

/-! ### Encoded frames -/

/-- The frame that the encoder's bytes stand for (40_frame_codec.md R126); `scan_encodeFrame` reads it back. -/
def encodedFrame (p : Params) (id : Byte) (type : Half) (payload : List Byte) : Frame :=
  { id := id, type := type, payload := payload, checksum := checksumOf p.checksum (frameBody p id type payload) }

/-- A scan that comes to an encoded frame finds it and goes on after it (40_frame_codec.md R126). -/
theorem scan_encodeFrame {p : Params} (id : Byte) (type : Half) {payload : List Byte} (after : List Byte)
    (hmax : payload.length ≤ p.maxRxPayload.toNat) :
    scan p (encodeFrame p id type payload ++ after) =
      { scan p after with frames := encodedFrame p id type payload :: (scan p after).frames } := by
  obtain ⟨t0, t1, l0, l1, hbody, htype, hlen⟩ := frameBody_bytes p id type payload
  have hnat : (field16 p.fieldOrder l0 l1).toNat = payload.length := by
    rw [hlen, ofNat_length_toNat (by have := p.maxRxPayload.isLt; omega)]
  have hscan := scan_complete after (hnat ▸ hmax) hnat.symm (congrArg (checksumOf p.checksum) hbody.symm)
  simpa [encodeFrame, encodedFrame, hbody, htype] using hscan

/-- Settles O26: the scan comes to the frame, and finds it there. -/
theorem resyncFindsTheNextFrame : Obligations.ResyncFindsTheNextFrame := by
  intro p pre id type payload later hmax stream h
  have hsuffix := CandidatesEndBy.frames_suffix h
  rw [show stream.drop pre.length = encodeFrame p id type payload ++ later by simp [stream],
    scan_encodeFrame id type later hmax] at hsuffix
  exact hsuffix.mem List.mem_cons_self

end Sys2Proof.Machine
end

section
/-! The Frame Codec (40_frame_codec.md): received bytes into the queue, and the commands FC_SEND, FC_RX_POP, FC_RX_RESTART. -/

namespace Sys2Proof.Machine

/-! ### Received bytes -/

/-- What FC does with the answer of a scan (40_frame_codec.md R115). -/
def absorb (r : Scan) (s : State) : State := r.frames.foldl deliver (countErrors r.errs { s with rxwin := r.window })

theorem absorb_eq (r : Scan) (s : State) :
    absorb r s =
      { s with
        rxwin := r.window
        framingErrs := sat16Add s.framingErrs r.errs
        rxq := s.rxq ++ r.frames.take (s.params.rxqDepth.toNat - s.rxq.length)
        rxqDrops := sat16Add s.rxqDrops (r.frames.length - (s.params.rxqDepth.toNat - s.rxq.length))
        irq :=
          { s.irq with
            framing := s.irq.framing || decide (0 < r.errs)
            rxqDrop := s.irq.rxqDrop || decide (s.params.rxqDepth.toNat - s.rxq.length < r.frames.length) } } := by
  rw [absorb, deliver_foldl_eq]; rfl

@[simp] theorem absorb_params (r : Scan) (s : State) : (absorb r s).params = s.params := by rw [absorb_eq]
@[simp] theorem absorb_linkUp (r : Scan) (s : State) : (absorb r s).linkUp = s.linkUp := by rw [absorb_eq]
@[simp] theorem absorb_owner (r : Scan) (s : State) : (absorb r s).owner = s.owner := by rw [absorb_eq]
@[simp] theorem absorb_rxwin (r : Scan) (s : State) : (absorb r s).rxwin = r.window := by rw [absorb_eq]

theorem exec_rxByte_fc (b : Byte) {s : State} (hl : s.linkUp = true) (ho : s.owner = .fc) :
    exec (.rxByte b) s = .next (absorb (scan s.params (s.rxwin ++ [b])) s) := receiveByte_fc b s hl ho

/-- Settles O23, by the closed form of delivering several frames. -/
theorem receivedByteDeliversFrames : Obligations.ReceivedByteDeliversFrames := by
  intro b s hl ho
  rw [exec_rxByte_fc b hl ho, absorb_eq]
  rfl

theorem deliver_of_room {s : State} {f : Frame} (h : s.rxq.length < s.params.rxqDepth.toNat) :
    deliver s f = { s with rxq := s.rxq ++ [f] } := if_pos h

theorem deliver_of_full {s : State} {f : Frame} (h : s.params.rxqDepth.toNat ≤ s.rxq.length) :
    deliver s f = { s with rxqDrops := sat16Add s.rxqDrops 1, irq := { s.irq with rxqDrop := true } } :=
  if_neg (Nat.not_lt.2 h)

/-- Counting errors and replacing the window do not interfere with a delivery. -/
theorem deliver_countErrors (n : Nat) (win : List Byte) (s : State) (f : Frame) :
    deliver (countErrors n { s with rxwin := win }) f = countErrors n { deliver s f with rxwin := win } := by
  rcases Nat.lt_or_ge s.rxq.length s.params.rxqDepth.toNat with h | h
  · rw [deliver_of_room h]; exact deliver_of_room h
  · rw [deliver_of_full h]; exact deliver_of_full h

theorem countErrors_zero (s : State) : countErrors 0 s = s := by
  simp [countErrors, sat16Add_zero]

theorem countErrors_countErrors (m n : Nat) (win win' : List Byte) (s : State) :
    countErrors n { countErrors m { s with rxwin := win } with rxwin := win' } =
      countErrors (m + n) { s with rxwin := win' } := by
  have hbit : (decide (0 < m) || decide (0 < n)) = decide (0 < m + n) := by
    rw [← Bool.decide_or]; exact decide_eq_decide.2 (by omega)
  simp only [countErrors, sat16Add_add, Bool.or_assoc, hbit]

theorem absorb_absorb (r r' : Scan) (s : State) : absorb r' (absorb r s) = absorb (r.andThen r') s := by
  have hcommute : countErrors r'.errs { absorb r s with rxwin := r'.window } =
      r.frames.foldl deliver
        (countErrors r'.errs { countErrors r.errs { s with rxwin := r.window } with rxwin := r'.window }) :=
    (List.foldl_hom (fun t : State => countErrors r'.errs { t with rxwin := r'.window })
      fun t f => deliver_countErrors r'.errs r'.window t f).symm
  rw [absorb, hcommute, countErrors_countErrors, ← List.foldl_append]
  rfl

/-- Receiving a stream byte by byte is one scan of the whole stream, on a window that an earlier scan left. -/
theorem afterSteps_rxBytes (bs : List Byte) {s : State} (hl : s.linkUp = true) (ho : s.owner = .fc)
    (hw : scan s.params s.rxwin = { window := s.rxwin, frames := [], errs := 0 }) :
    afterSteps (bs.map .rxByte) s = .next (absorb (scan s.params (s.rxwin ++ bs)) s) := by
  induction bs generalizing s with
  | nil => simp [afterSteps, hw, absorb, countErrors_zero]
  | cons b bs ih =>
    have hrest := ih (s := absorb (scan s.params (s.rxwin ++ [b])) s) (by simpa) (by simpa) (by simp [scan_window])
    rw [List.map_cons, afterSteps_cons, exec_rxByte_fc b hl ho, andThen_next, hrest, absorb_absorb, absorb_params,
      absorb_rxwin, ← scan_append, List.append_assoc, List.singleton_append]

/-- Settles O25: one scan of the encoded frame finds exactly that frame, and it is delivered or dropped. -/
theorem frameRoundTripDelivery : Obligations.FrameRoundTripDelivery := by
  intro id type payload s hl ho hw hmax
  have hscan : scan s.params (encodeFrame s.params id type payload) =
      { window := [], frames := [encodedFrame s.params id type payload], errs := 0 } := by
    simpa using scan_encodeFrame id type [] hmax
  have hdeliver : absorb { window := [], frames := [encodedFrame s.params id type payload], errs := 0 } s =
      deliver s (encodedFrame s.params id type payload) := by
    rw [← hw, absorb, countErrors_zero]; rfl
  have hall := afterSteps_rxBytes (encodeFrame s.params id type payload) hl ho (by simp [hw])
  rw [hw, List.nil_append, hscan, hdeliver] at hall
  rw [hall]
  exact ⟨fun hroom => congrArg _ (deliver_of_room hroom), fun hfull => congrArg _ (deliver_of_full hfull)⟩

/-! ### Commands -/

/-- Settles O12, one branch of FC_SEND for each clause. -/
theorem fcSendTransmitsFrame : Obligations.FcSendTransmitsFrame := by
  intro s
  refine ⟨fun ho => ?_, fun ho hl => ?_, fun k ho hl ⟨hk, hnone, hbefore⟩ => ?_, fun payload ho hl hlen hb =>
    execFcSend_held ho hl hlen hb⟩
  · exact if_pos (by simp [ho])
  · exact (if_neg (by simp [ho])).trans (if_pos hl)
  · change execFcSend s = _
    rw [execFcSend, if_neg (by simp [ho]), if_neg (by simp [hl]), memRead_fault .txbuf _ _ _ k hk hnone hbefore,
      withBytes_error, Nat.zero_add]

theorem execFcRxPop_empty {s : State} (hq : s.rxq = []) : execFcRxPop s = finish .rxqEmpty s := by
  simp [execFcRxPop, hq]

theorem execFcRxPop_cons {s : State} {f : Frame} {rest : List Frame} (hq : s.rxq = f :: rest) :
    execFcRxPop s =
      .next
        { s with
          rxq := rest, rxId := f.id, rxType := f.type, rxLen := BitVec.ofNat 16 f.payload.length
          rxCsum := f.checksum, rxbuf := Memory.writeAll s.rxbuf 0 f.payload, result := .ok } := by
  simp [execFcRxPop, hq, finish]

/-- Settles O13, by what a write of several bytes stores and leaves alone. -/
theorem fcRxPopMovesOldestFrame : Obligations.FcRxPopMovesOldestFrame := by
  intro s
  refine ⟨fun hq => ?_, fun f rest hq => ⟨Memory.writeAll s.rxbuf 0 f.payload, ?_,
    Memory.read_writeAll_inside s.rxbuf 0 f.payload, fun a ha =>
      Memory.read_writeAll_outside _ _ _ _ (.inr (by omega))⟩⟩
  · exact execFcRxPop_empty hq
  · exact execFcRxPop_cons hq

/-- Settles O14. -/
theorem fcRxRestartEmptiesWindow : Obligations.FcRxRestartEmptiesWindow := fun _ => rfl

end Sys2Proof.Machine
end

section
/-! The control unit (41_control.md): NOP, illegal opcodes, the two handoffs of the port, the acknowledgement of interrupts,
the routing of received bytes, and the loss and return of the link. -/

namespace Sys2Proof

theorem Command.ofOpcode?_eq_none {op : Byte} (h : ∀ c : Command, op ≠ c.opcode) : Command.ofOpcode? op = none := by
  cases hc : Command.ofOpcode? op with
  | none => rfl
  | some c => exact absurd (Command.opcode_of_ofOpcode? hc) (h c)

end Sys2Proof

namespace Sys2Proof.Machine

section

variable {s t : State}

/-! ### What TE may write (41_control.md R144) -/

/-- `t` is `s` but for the fields that TE writes when it gets a byte: a session's progress and end, the interrupt bits and
TXLOG. -/
def DiffersInTeFields (s t : State) : Prop :=
  t =
    { s with
      teState := t.teState
      tePhase := t.tePhase
      curIndex := t.curIndex
      progress := t.progress
      retriesLeft := t.retriesLeft
      teErr := t.teErr
      irq := t.irq
      txlog := t.txlog }

theorem DiffersInTeFields.of_teHandshake (h : teHandshake s = .next t) : DiffersInTeFields s t := by
  rcases teHandshake_next h with ⟨-, rfl⟩ | ⟨-, bs, -, rfl⟩ <;> rfl

theorem DiffersInTeFields.of_teAckData (h : teAckData s = .next t) : DiffersInTeFields s t := by
  rcases teAckData_next h with ⟨-, bs, -, rfl⟩ | ⟨-, rfl⟩ <;> rfl

theorem DiffersInTeFields.of_teFailedAttempt (h : teFailedAttempt s = .next t) : DiffersInTeFields s t := by
  rcases teFailedAttempt_next h with ⟨-, rfl⟩ | ⟨-, -, bs, -, rfl⟩ | ⟨-, -, rfl⟩ <;> rfl

theorem DiffersInTeFields.of_teReceive {b : Byte} (h : teReceive b s = .next t) : DiffersInTeFields s t := by
  rcases teReceive_next h with rfl | ⟨-, -, h⟩ | ⟨-, -, -, h⟩ | ⟨-, -, -, rfl⟩ | ⟨-, -, h⟩
  · rfl
  · exact .of_teHandshake h
  · exact .of_teAckData h
  · rfl
  · exact .of_teFailedAttempt h

/-! ### Opcodes -/

/-- A write of CMD with an opcode that is no command's (41_control.md R141). -/
theorem exec_regWr_illegal {v : Word} (h : ∀ c : Command, v.extractLsb' 0 8 ≠ c.opcode) (s : State) :
    exec (.regWr 0x00 v) s = .next { s with result := .illegalOpcode } := by
  change runOpcode (v.setWidth 8) s = _
  rw [setWidth_eq_low, runOpcode, Command.ofOpcode?_eq_none h]
  rfl

/-! ### Interrupts -/

/-- Acknowledging clears, of the sticky bits, those written as 1 (41_control.md R147). -/
theorem pendingBits_irqClear (v : Word) (s : State) {k : Nat} (h1 : 1 ≤ k) (h5 : k ≤ 5) :
    (pendingBits { s with irq := irqClear s.irq v }).getLsbD k = ((pendingBits s).getLsbD k && !v.getLsbD k) := by
  obtain ⟨-, s1, s2, s3, s4, s5⟩ := pendingBits_bits s
  obtain ⟨-, t1, t2, t3, t4, t5⟩ := pendingBits_bits { s with irq := irqClear s.irq v }
  obtain rfl | rfl | rfl | rfl | rfl : k = 1 ∨ k = 2 ∨ k = 3 ∨ k = 4 ∨ k = 5 := by omega
  · rw [t1, s1]; rfl
  · rw [t2, s2]; rfl
  · rw [t3, s3]; rfl
  · rw [t4, s4]; rfl
  · rw [t5, s5]; rfl

/-! ### The port -/

theorem execPortGrantTe_te (ho : s.owner = .te) : execPortGrantTe s = .next { s with result := .ok } := by
  simp [execPortGrantTe, ho, finish]

theorem execPortGrantTe_fc (ho : s.owner = .fc) :
    execPortGrantTe s = .next { s with rxwin := [], owner := .te, result := .ok } := by
  simp [execPortGrantTe, ho, finish]

theorem execPortReturnFc_active (ha : s.teState.active = true) :
    execPortReturnFc s = .next { s with result := .sessionBusy } := if_pos ha

theorem execPortReturnFc_fc (ha : s.teState.active = false) (ho : s.owner = .fc) :
    execPortReturnFc s = .next { s with result := .ok } := by
  simp [execPortReturnFc, ha, ho, finish]

theorem execPortReturnFc_te (ha : s.teState.active = false) (ho : s.owner = .te) :
    execPortReturnFc s = .next { s with rxwin := [], owner := .fc, result := .ok } := by
  simp [execPortReturnFc, ha, ho, finish]

/-! ### The link -/

/-- `errPhase()` in a session (43_transfer_engine.md R180). -/
theorem errPhaseOf_active (h : s.teState.active = true) :
    errPhaseOf s.teState s.tePhase =
      if s.teState = .awaitHandshake then .handshake else if s.tePhase = .data then .data else .eot := by
  rcases (active_iff _).1 h with hs | hs
  · simp [errPhaseOf, hs]
  · cases hp : s.tePhase <;> simp [errPhaseOf, hs]

theorem execPortFault_down (hl : s.linkUp = false) : execPortFault s = .refused (.notEnabled .portFault) := if_pos hl

theorem execPortFault_inactive (hl : s.linkUp = true) (ha : s.teState.active = false) :
    execPortFault s = .next { s with linkUp := false, irq := { s.irq with portErr := true }, rxwin := [] } := by
  simp [execPortFault, hl, ha]

theorem execPortFault_active (hl : s.linkUp = true) (ha : s.teState.active = true) :
    execPortFault s =
      .next
        (endWithError .portError (wireNumber s.curIndex) (failedSoFar s) .aborted
          { s with linkUp := false, irq := { s.irq with portErr := true }, rxwin := [] }) := by
  simp [execPortFault, hl, ha]

end

/-! ### The statements -/

/-- Settles O37: the port's owner decides whether FC scans a byte or TE answers it, and neither writes the other's
fields. -/
theorem receivedByteGoesToOneUnit : Obligations.ReceivedByteGoesToOneUnit := by
  refine ⟨receiveByte_down, fun b s t h => ?_⟩
  obtain ⟨-, ⟨howner, rfl⟩ | ⟨howner, hte⟩⟩ := receiveByte_next h
  · refine ⟨fun _ => ?_, fun ho => by simp [howner] at ho⟩
    rw [fcReceive_eq]
    simp
  · refine ⟨fun ho => by simp [howner] at ho, fun _ => ?_⟩
    rw [DiffersInTeFields.of_teReceive hte]
    exact ⟨rfl, rfl, rfl, rfl⟩

/-- Settles O48, by the pending bits that the register shows. -/
theorem irqPendingWriteOneClears : Obligations.IrqPendingWriteOneClears := by
  intro v s
  refine ⟨_, exec_regWr v s (r := .irqPending) rfl (by decide), rfl, ?_, fun k h1 h5 => ?_⟩
  · rw [irqPending_getLsbD _ 0 (by decide), irqPending_getLsbD _ 0 (by decide), (pendingBits_bits _).1,
      (pendingBits_bits _).1]
    rfl
  · rw [irqPending_getLsbD _ k (by omega), irqPending_getLsbD _ k (by omega)]
    exact pendingBits_irqClear v s h1 h5

/-- Settles O8: the nine opcodes of the list are those of the commands. -/
theorem nopAndIllegalOpcodesSetResultOnly : Obligations.NopAndIllegalOpcodesSetResultOnly := by
  refine ⟨fun _ => rfl, fun v s hv => exec_regWr_illegal (fun c hc => hv ?_) s⟩
  rw [hc]
  cases c <;> decide

/-- Settles O9, by the owner of the port. -/
theorem grantHandsPortToTransferEngine : Obligations.GrantHandsPortToTransferEngine :=
  fun _ => ⟨execPortGrantTe_te, execPortGrantTe_fc⟩

/-- Settles O10, by whether a session is active and then by the owner of the port. -/
theorem returnHandsPortToFrameCodec : Obligations.ReturnHandsPortToFrameCodec :=
  fun _ => ⟨fun hs => execPortReturnFc_active ((active_iff _).2 hs),
    fun h1 h2 => execPortReturnFc_fc ((inactive_iff _).2 ⟨h1, h2⟩),
    fun h1 h2 => execPortReturnFc_te ((inactive_iff _).2 ⟨h1, h2⟩)⟩

/-- Settles O38: in a session a port fault is an error, whose record names `errPhase()` and the wire block number. -/
theorem portFaultAbortsSession : Obligations.PortFaultAbortsSession := by
  refine fun s => ⟨execPortFault_down, fun hl h1 h2 => execPortFault_inactive hl ((inactive_iff _).2 ⟨h1, h2⟩),
    fun hl hs => ?_⟩
  have ha := (active_iff s.teState).2 hs
  rw [← errPhaseOf_active ha, ← setWidth_eq_low]
  exact execPortFault_active hl ha

/-- Settles O39, by whether the link is up. -/
theorem portReopenOpensLink : Obligations.PortReopenOpensLink :=
  fun _ => ⟨fun hl => if_neg (by simp [hl]), fun hl => if_pos hl⟩

end Sys2Proof.Machine
end

section
/-! The CRC and BLOCK_VERIFY (42_crc16_verifier.md): a byte changed changes the CRC, and what the command makes of VBUF. -/

namespace Sys2Proof

/-! ### One byte changed (42_crc16_verifier.md R164) -/

/-- Two bytes that take one register value to the same one are equal: a byte enters the register whole, at its top. -/
theorem crcByte_left_injective {c : Half} {a b : Byte} (h : crcByte c a = crcByte c b) : a = b := by
  have htop : (a.setWidth 16 : Half) <<< 8 = b.setWidth 16 <<< 8 := (BitVec.xor_right_inj c).1 ((crcByte_eq_iff c c a b).1 h)
  have shifted (x : Byte) {i : Nat} (hi : i < 8) : ((x.setWidth 16 : Half) <<< 8).getLsbD (i + 8) = x.getLsbD i := by
    have h1 : i + 8 < 16 := by omega
    have h2 : ¬ i + 8 < 8 := by omega
    have h3 : i < 16 := by omega
    simp only [BitVec.getLsbD_shiftLeft, BitVec.getLsbD_setWidth, Nat.add_sub_cancel, h1, h2, h3, decide_true, decide_false,
      Bool.not_false, Bool.true_and]
  apply BitVec.eq_of_getLsbD_eq
  intro i hi
  rw [← shifted a hi, htop, shifted b hi]

/-- A list with one byte changed has another CRC. -/
theorem crc16_set_ne {xs : List Byte} {j : Nat} {b : Byte} (hj : j < xs.length) (hb : b ≠ xs[j]) :
    crc16 (xs.set j b) ≠ crc16 xs := by
  intro h
  have hset : xs.set j b = xs.take j ++ b :: xs.drop (j + 1) := by rw [List.set_eq_take_append_cons_drop, if_pos hj]
  have hsame : xs = xs.take j ++ xs[j] :: xs.drop (j + 1) := by rw [List.getElem_cons_drop, List.take_append_drop]
  rw [hset, congrArg crc16 hsame] at h
  simp only [crc16, List.foldl_append, List.foldl_cons] at h
  exact hb (crcByte_left_injective (foldl_crcByte_injective _ h))

theorem xor_oneBit_ne (b : Byte) {k : Nat} (hk : k < 8) : b ^^^ (1#8 <<< k) ≠ b := by
  intro h
  have hbit : ((1#8 : Byte) <<< k).getLsbD k = (0#8).getLsbD k := by
    rw [(BitVec.xor_right_inj b).1 (h.trans BitVec.xor_zero.symm)]
  rw [BitVec.getLsbD_shiftLeft, Nat.sub_self, decide_eq_true hk, decide_eq_false (Nat.lt_irrefl k),
    BitVec.getLsbD_zero] at hbit
  cases hbit

end Sys2Proof

namespace Sys2Proof.Machine

/-! ### BLOCK_VERIFY (42_crc16_verifier.md R163) -/

/-- BLOCK_VERIFY faults at the first byte of VBUF with no value. -/
theorem execBlockVerify_missing {s : State} {k : Nat} (h : firstMissing s.vbuf 0 133 k) :
    execBlockVerify s = .fault (.uninitByte .vbuf k) := by
  obtain ⟨hk, hnone, hbefore⟩ := h
  rw [execBlockVerify, memRead_fault .vbuf _ _ _ k hk hnone hbefore, withBytes_error, Nat.zero_add]

/-- BLOCK_VERIFY over a VBUF whose 133 bytes all hold values. -/
theorem execBlockVerify_held {s : State} {bs : List Byte} (hlen : bs.length = 133) (h : holdsAt s.vbuf 0 bs) :
    execBlockVerify s = .next { s with verify := verifyBytes bs, result := .ok } := by
  rw [execBlockVerify, ← hlen, memRead_ok .vbuf s.vbuf 0 bs h, withBytes_ok]
  rfl

/-- A block of 128 payload bytes fills VBUF. -/
theorem block_length {soh blk nblk hi lo : Byte} {payload : List Byte} (h : payload.length = 128) :
    ([soh, blk, nblk] ++ payload ++ [hi, lo]).length = 133 := by
  simp only [List.length_append, List.length_cons, List.length_nil, h]

/-! ### The statements -/

/-- Settles O17: the five fields of `verifyBytes` on the block's bytes, each comparison as one of numbers. -/
theorem blockVerifyChecksVbuf : Obligations.BlockVerifyChecksVbuf := by
  intro s
  refine ⟨fun k => execBlockVerify_missing, fun soh blk nblk hi lo payload hlen hheld => ?_⟩
  refine ⟨_, execBlockVerify_held (block_length hlen) hheld, ?_⟩
  rw [verifyBytes_block soh blk nblk payload [hi, lo] hlen]
  simp only [decide_eq_true_iff]
  refine ⟨BitVec.toNat_inj.symm, ?_, be16_eq_iff (crc16 payload) hi lo, trivial, trivial⟩
  rw [← complement_toNat, BitVec.toNat_inj]

/-- Settles O19: the flipped byte is another byte, so its CRC is not the one that the block carries. -/
theorem singleBitFlipDetected : Obligations.SingleBitFlipDetected := by
  intro payload j k hj hlen hk
  have hcrc := crc16_set_ne hj (xor_oneBit_ne payload[j] hk)
  refine ⟨hcrc, fun s soh blk nblk hheld => ?_⟩
  have hflipped : (payload.set j (payload[j] ^^^ (1#8 <<< k))).length = 128 := by rw [List.length_set, hlen]
  refine ⟨_, execBlockVerify_held (block_length hflipped) hheld, ?_⟩
  rw [verifyBytes_block soh blk nblk _ _ hflipped]
  refine decide_eq_false fun htail => hcrc (BitVec.eq_of_toNat_eq ?_)
  exact ((be16_eq_iff _ _ _).1 htail).trans ((be16_eq_iff (crc16 payload) _ _).1 rfl).symm

end Sys2Proof.Machine
end

section
/-! The Transfer Engine's commands (43_transfer_engine.md R185, R194): TE_START and TE_CANCEL. -/

namespace Sys2Proof.Machine

section

variable {s : State}

/-! ### TE_START, by its errors in their order -/

theorem execTeStart_active (ha : s.teState.active = true) :
    execTeStart s = .next { s with result := .sessionBusy } := if_pos ha

theorem execTeStart_fc (ha : s.teState.active = false) (ho : s.owner = .fc) :
    execTeStart s = .next { s with result := .notOwner } := by
  simp [execTeStart, ha, ho, finish]

theorem execTeStart_down (ha : s.teState.active = false) (ho : s.owner = .te) (hl : s.linkUp = false) :
    execTeStart s = .next { s with result := .portError } := by
  simp [execTeStart, ha, ho, hl, finish]

theorem execTeStart_tooLong (ha : s.teState.active = false) (ho : s.owner = .te) (hl : s.linkUp = true)
    (hlen : s.params.imageMax.toNat < s.imgLen.toNat) : execTeStart s = .next { s with result := .lengthError } := by
  simp [execTeStart, ha, ho, hl, BitVec.lt_def.2 hlen, finish]

theorem execTeStart_starts (ha : s.teState.active = false) (ho : s.owner = .te) (hl : s.linkUp = true)
    (hlen : s.imgLen.toNat ≤ s.params.imageMax.toNat) :
    execTeStart s =
      .next
        { s with
          teState := .awaitHandshake, totalBlocks := blockCount s.imgLen, curIndex := 0, progress := 0
          retriesLeft := s.retryLimit, tePhase := .data
          teErr := { kind := .none, phase := .none, block := 0, retries := 0 }, result := .ok } := by
  have hfits : ¬ s.params.imageMax < s.imgLen := BitVec.not_lt.2 hlen
  simp [execTeStart, ha, ho, hl, hfits, finish]

/-- The rounded-up quotient of an image length fits its register (43_transfer_engine.md R181). -/
theorem blockCount_toNat (len : Word) : (blockCount len).toNat = (len.toNat + 127) / 128 := by
  have := len.isLt
  simp only [blockCount, Config.blockPayload, BitVec.toNat_ofNat]
  omega

/-! ### TE_CANCEL -/

theorem cancelSession_active_eq (ha : s.teState.active = true) :
    cancelSession s =
      .next
        { s with
          txlog := s.txlog ++ [0x18, 0x18]
          teErr :=
            { kind := .transferCancelled
              phase := errPhaseOf s.teState s.tePhase
              block := wireNumber s.curIndex
              retries := failedSoFar s }
          teState := .cancelled
          irq := { s.irq with teDone := true }
          result := .ok } := if_pos ha

end

/-! ### The statements -/

/-- Settles O15, error by error; the number of blocks is `blockCount`. -/
theorem teStartBeginsSession : Obligations.TeStartBeginsSession := by
  refine fun s => ⟨fun hs => execTeStart_active ((active_iff _).2 hs), fun h1 h2 => ?_⟩
  have ha := (inactive_iff s.teState).2 ⟨h1, h2⟩
  refine ⟨execTeStart_fc ha, execTeStart_down ha, execTeStart_tooLong ha, fun ho hl hlen => ?_⟩
  refine ⟨blockCount s.imgLen, execTeStart_starts ha ho hl hlen, ?_⟩
  rw [blockCount_toNat]
  omega

/-- Settles O16: in a session TE_CANCEL is an error, whose record names `errPhase()` and the wire block number. -/
theorem teCancelSendsCanCan : Obligations.TeCancelSendsCanCan := by
  refine fun s => ⟨fun h1 h2 => cancelSession_inactive ((inactive_iff _).2 ⟨h1, h2⟩), fun hs => ?_⟩
  have ha := (active_iff s.teState).2 hs
  rw [← errPhaseOf_active ha, ← setWidth_eq_low]
  exact cancelSession_active_eq ha

end Sys2Proof.Machine
end

section
/-! What TE answers to a byte and to a timeout (43_transfer_engine.md R186 to R193), one equation for each case. -/

namespace Sys2Proof.Machine

section

variable {s : State} {bs : List Byte}

theorem exec_rxByte_te (b : Byte) (hl : s.linkUp = true) (ho : s.owner = .te) :
    exec (.rxByte b) s = teReceive b s := receiveByte_te b s hl ho

/-- With no session a byte is discarded (43_transfer_engine.md R193). -/
theorem teReceive_inactive (b : Byte) (ha : s.teState.active = false) : teReceive b s = .next s := by
  cases hs : s.teState with
  | awaitHandshake | sending => simp [hs, TeState.active] at ha
  | idle | init | complete | aborted | cancelled => simp only [teReceive, hs]

theorem exec_ack_data (hl : s.linkUp = true) (ho : s.owner = .te) (hs : s.teState = .sending) (hp : s.tePhase = .data) :
    exec (.rxByte 0x06) s = teAckData s := (exec_rxByte_te 0x06 hl ho).trans (teReceive_ack_data hs hp)

theorem exec_ack_eot (hl : s.linkUp = true) (ho : s.owner = .te) (hs : s.teState = .sending) (hp : s.tePhase = .eot) :
    exec (.rxByte 0x06) s = .next (enterTerminal .complete s) :=
  (exec_rxByte_te 0x06 hl ho).trans (teReceive_ack_eot hs hp)

theorem exec_handshake (hl : s.linkUp = true) (ho : s.owner = .te) (hs : s.teState = .awaitHandshake) :
    exec (.rxByte 0x43) s = teHandshake s := (exec_rxByte_te 0x43 hl ho).trans (teReceive_handshake hs)

/-! ### ACK of a block (43_transfer_engine.md R187, R195) -/

/-- The index of a block that has a next one does not wrap. -/
theorem toNat_add_one_of_lt {k n : Word} (h : k.toNat < n.toNat) : (k + 1).toNat = k.toNat + 1 := by bv_omega

theorem teAckData_block_eq (hlt : s.curIndex.toNat < s.totalBlocks.toNat)
    (hb : blockHeld s (s.curIndex.toNat + 1) bs) :
    teAckData s =
      .next
        { s with
          progress := s.curIndex
          irq := { s.irq with progress := if s.progressEn = true then true else s.irq.progress }
          retriesLeft := s.retryLimit
          curIndex := s.curIndex + 1
          txlog := s.txlog ++ wireBlock (s.curIndex.toNat + 1) bs } := by
  rw [← toNat_add_one_of_lt hlt] at hb ⊢
  rw [Bool.if_true_left, Bool.decide_eq_true, Bool.or_comm s.progressEn, teAckData, if_pos (BitVec.lt_def.2 hlt)]
  exact transmitBlock_held (k := s.curIndex + 1) hb

theorem teAckData_eot_eq (hge : s.totalBlocks.toNat ≤ s.curIndex.toNat) :
    teAckData s =
      .next
        { s with
          progress := s.curIndex
          irq := { s.irq with progress := if s.progressEn = true then true else s.irq.progress }
          retriesLeft := s.retryLimit
          tePhase := .eot
          txlog := s.txlog ++ [0x04] } := by
  rw [Bool.if_true_left, Bool.decide_eq_true, Bool.or_comm s.progressEn, teAckData, if_neg (BitVec.not_lt.2 hge)]
  rfl

/-! ### Failed attempts (43_transfer_engine.md R189 to R191) -/

/-- A failing reply while SENDING is a failed attempt, be it a byte or a timeout. -/
theorem exec_failingReply {i : Instr} (hi : failingReply i) (hport : i = .timeout ∨ (s.linkUp = true ∧ s.owner = .te))
    (hs : s.teState = .sending) : exec i s = teFailedAttempt s := by
  cases i with
  | timeout =>
    change execTimeout s = _
    simp only [execTimeout, hs]
  | rxByte b =>
    obtain ⟨hl, ho⟩ := hport.resolve_left nofun
    rw [exec_rxByte_te b hl ho]
    simp only [teReceive, hs, if_neg hi]
  | _ => exact hi.elim

theorem teFailedAttempt_exhausted (hr : s.retriesLeft = 1) (hs : s.teState = .sending) :
    teFailedAttempt s =
      .next
        { s with
          retriesLeft := 0
          teErr :=
            { kind := .blockRetryExhausted, phase := if s.tePhase = .data then .data else .eot
              block := wireNumber s.curIndex, retries := s.retryLimit }
          teState := .aborted
          irq := { s.irq with teDone := true } } := by
  have hphase : errPhaseOf s.teState s.tePhase = if s.tePhase = .data then .data else .eot := by
    rw [errPhaseOf_active ((active_iff _).2 (.inr hs)), if_neg (by simp [hs])]
  have hzero : s.retriesLeft - 1 = 0 := by rw [hr]; rfl
  rw [← hphase]
  simp only [teFailedAttempt, hzero]
  rfl

/-! ### Timeouts (43_transfer_engine.md R192, R196) -/

theorem execTimeout_waiting (hs : s.teState = .awaitHandshake) :
    execTimeout s =
      .next
        { s with
          teErr := { kind := .handshakeTimeout, phase := .handshake, block := 0, retries := 0 }
          teState := .aborted
          irq := { s.irq with teDone := true } } := by
  simp only [execTimeout, endWithError, errPhaseOf, hs]
  rfl

theorem execTimeout_inactive (ha : s.teState.active = false) : execTimeout s = .refused (.notEnabled .timeout) := by
  cases hs : s.teState with
  | awaitHandshake | sending => simp [hs, TeState.active] at ha
  | idle | init | complete | aborted | cancelled => simp only [execTimeout, hs]

/-! ### Blocks with an image byte that holds no value (43_transfer_engine.md R183) -/

theorem teHandshake_missing {k : Nat} (h0 : s.totalBlocks ≠ 0)
    (hm : firstMissing s.image (blockStart 1) (blockBytesOf s.imgLen 1) k) :
    teHandshake s = .fault (.uninitByte .image (blockStart 1 + k)) := by
  rw [teHandshake, if_neg h0]
  exact transmitBlock_missing (k := 1) hm

theorem teAckData_missing {k : Nat} (hlt : s.curIndex.toNat < s.totalBlocks.toNat)
    (hm : firstMissing s.image (blockStart (s.curIndex.toNat + 1)) (blockBytesOf s.imgLen (s.curIndex.toNat + 1)) k) :
    teAckData s = .fault (.uninitByte .image (blockStart (s.curIndex.toNat + 1) + k)) := by
  rw [← toNat_add_one_of_lt hlt] at hm ⊢
  rw [teAckData, if_pos (BitVec.lt_def.2 hlt)]
  exact transmitBlock_missing (k := s.curIndex + 1) hm

theorem teFailedAttempt_missing {k : Nat} (hr : 1 < s.retriesLeft.toNat) (hp : s.tePhase = .data)
    (hm : firstMissing s.image (blockStart s.curIndex.toNat) (blockBytesOf s.imgLen s.curIndex.toNat) k) :
    teFailedAttempt s = .fault (.uninitByte .image (blockStart s.curIndex.toNat + k)) := by
  have hne : s.retriesLeft - 1 ≠ 0 := by bv_omega
  simp only [teFailedAttempt, if_neg hne, hp]
  exact transmitBlock_missing (s := { s with retriesLeft := s.retriesLeft - 1, tePhase := .data }) hm

end

/-! ### The statements -/

/-- Settles O27, by what TE answers to 'C' and to every other byte. -/
theorem handshakeStartsSending : Obligations.HandshakeStartsSending := by
  intro s hl ho hs
  rw [exec_handshake hl ho hs]
  exact ⟨fun _ => teHandshake_block, teHandshake_eot,
    fun b hb => (exec_rxByte_te b hl ho).trans (teReceive_waiting_ignored hs hb)⟩

/-- Settles O28, by whether the acknowledged block is the last one. -/
theorem ackAdvancesToNextBlock : Obligations.AckAdvancesToNextBlock := by
  intro s hl ho hs hp
  rw [exec_ack_data hl ho hs hp]
  exact ⟨fun _ => teAckData_block_eq, teAckData_eot_eq⟩

/-- Settles O29: the ACK of EOT enters the terminal state COMPLETE. -/
theorem ackOfEotCompletes : Obligations.AckOfEotCompletes :=
  fun _ => exec_ack_eot

/-- Settles O30: the failed attempt that exhausts the budget, and the two that transmit again. -/
theorem failedAttemptRetransmitsOrAborts : Obligations.FailedAttemptRetransmitsOrAborts := by
  intro s i hi hport hs
  rw [exec_failingReply hi hport hs, ← setWidth_eq_low]
  exact ⟨fun hr => teFailedAttempt_exhausted hr hs, fun _ hr hp _ => teFailedAttempt_block hr hp, teFailedAttempt_eot⟩

/-- Settles O31, by the state that the timeout finds. -/
theorem handshakeTimeoutAborts : Obligations.HandshakeTimeoutAborts :=
  fun _ => ⟨execTimeout_waiting, fun h1 h2 => execTimeout_inactive ((inactive_iff _).2 ⟨h1, h2⟩)⟩

/-- Settles O32: none of the four states is a session. -/
theorem byteWithNoSessionDiscarded : Obligations.ByteWithNoSessionDiscarded := by
  intro s b hl ho hs
  rw [exec_rxByte_te b hl ho]
  refine teReceive_inactive b ?_
  rcases hs with hs | hs | hs | hs <;> rw [hs] <;> rfl

/-- Settles O33: the three answers of TE that transmit a block. -/
theorem unwrittenImageByteFaults : Obligations.UnwrittenImageByteFaults := by
  intro s i k hport
  refine ⟨?_, ?_, fun hi hs hp hr _ hm => ?_⟩
  · rintro rfl hs h0 hm
    obtain ⟨hl, ho⟩ := hport.resolve_left nofun
    rw [exec_handshake hl ho hs, teHandshake_missing h0 hm]
  · rintro rfl hs hp hlt hm
    obtain ⟨hl, ho⟩ := hport.resolve_left nofun
    rw [exec_ack_data hl ho hs hp, teAckData_missing hlt hm]
  · rw [exec_failingReply hi hport hs, teFailedAttempt_missing hr hp hm]

end Sys2Proof.Machine
end

section
/-! The retry bound (43_transfer_engine.md R199): a run of failing replies, and what ends it. -/

namespace Sys2Proof.Machine

/-- The state after `n` failed attempts on each of which `sent` was transmitted again. -/
def State.retried (s : State) (n : Nat) (sent : List Byte) : State :=
  { s with
    retriesLeft := s.retriesLeft - BitVec.ofNat 8 n
    txlog := s.txlog ++ (List.replicate n sent).flatten }

section

variable {s : State} {bs : List Byte} {fails : List Instr}

theorem State.retried_zero (s : State) (sent : List Byte) : s.retried 0 sent = s := by
  simp [State.retried]

theorem State.retried_retried (s : State) (m n : Nat) (sent : List Byte) :
    (s.retried m sent).retried n sent = s.retried (m + n) sent := by
  have hleft : s.retriesLeft - BitVec.ofNat 8 m - BitVec.ofNat 8 n = s.retriesLeft - BitVec.ofNat 8 (m + n) := by
    bv_omega
  have hlog : s.txlog ++ (List.replicate m sent).flatten ++ (List.replicate n sent).flatten =
      s.txlog ++ (List.replicate (m + n) sent).flatten := by
    rw [List.append_assoc, ← List.flatten_append, List.replicate_append_replicate]
  simp only [State.retried, hleft, hlog]

theorem teFailedAttempt_retried (hr : 1 < s.retriesLeft.toNat) (hp : s.tePhase = .data)
    (hb : blockHeld s s.curIndex.toNat bs) :
    teFailedAttempt s = .next (s.retried 1 (wireBlock s.curIndex.toNat bs)) := by
  simp [teFailedAttempt_block hr hp hb, State.retried]

/-- While the budget lasts, each failing reply takes one attempt from it and transmits the block again. -/
theorem afterSteps_failing (hl : s.linkUp = true) (ho : s.owner = .te) (hs : s.teState = .sending)
    (hp : s.tePhase = .data) (hb : blockHeld s s.curIndex.toNat bs) (hf : ∀ i ∈ fails, failingReply i)
    (hlt : fails.length < s.retriesLeft.toNat) :
    afterSteps fails s = .next (s.retried fails.length (wireBlock s.curIndex.toNat bs)) := by
  induction fails generalizing s with
  | nil => rw [List.length_nil, State.retried_zero]; rfl
  | cons i is ih =>
    obtain ⟨hi, his⟩ := List.forall_mem_cons.1 hf
    rw [List.length_cons] at hlt
    have hleft : is.length < (s.retriesLeft - 1).toNat := by bv_omega
    have hrest := ih (s := s.retried 1 (wireBlock s.curIndex.toNat bs)) hl ho hs hp hb his hleft
    rw [afterSteps_cons, exec_failingReply hi (.inr ⟨hl, ho⟩) hs, teFailedAttempt_retried (by omega) hp hb,
      andThen_next, hrest, List.length_cons, Nat.add_comm, ← State.retried_retried]
    rfl

theorem afterSteps_failing_ack (hl : s.linkUp = true) (ho : s.owner = .te) (hs : s.teState = .sending)
    (hp : s.tePhase = .data) (hb : blockHeld s s.curIndex.toNat bs) (hf : ∀ i ∈ fails, failingReply i)
    (hlt : fails.length < s.retriesLeft.toNat) :
    afterSteps (fails ++ [.rxByte 0x06]) s = teAckData (s.retried fails.length (wireBlock s.curIndex.toNat bs)) := by
  rw [afterSteps_append (afterSteps_failing hl ho hs hp hb hf hlt), afterSteps_singleton]
  exact exec_ack_data (s := s.retried _ _) hl ho hs hp

/-- As many failing replies as the budget holds: the last of them transmits nothing. -/
theorem afterSteps_failing_exhausts (hl : s.linkUp = true) (ho : s.owner = .te) (hs : s.teState = .sending)
    (hp : s.tePhase = .data) (hb : blockHeld s s.curIndex.toNat bs) (hf : ∀ i ∈ fails, failingReply i)
    (hlen : fails.length = s.retriesLeft.toNat) (hpos : s.retriesLeft ≠ 0) :
    afterSteps fails s =
      teFailedAttempt (s.retried (s.retriesLeft.toNat - 1) (wireBlock s.curIndex.toNat bs)) := by
  have hne : fails ≠ [] := fun h => hpos (BitVec.eq_of_toNat_eq (by rw [← hlen, h]; rfl))
  obtain ⟨init, last, rfl⟩ : ∃ init last, fails = init ++ [last] :=
    ⟨fails.dropLast, fails.getLast hne, (List.dropLast_concat_getLast hne).symm⟩
  obtain ⟨hinit, hlast⟩ := List.forall_mem_append.1 hf
  rw [List.length_append, List.length_singleton] at hlen
  rw [afterSteps_append (afterSteps_failing hl ho hs hp hb hinit (by omega)), afterSteps_singleton, ← hlen,
    Nat.add_sub_cancel]
  exact exec_failingReply (s := s.retried _ _) (hlast last (by simp)) (.inr ⟨hl, ho⟩) hs

/-- With no session received bytes change nothing (43_transfer_engine.md R193). -/
theorem afterSteps_rxBytes_inactive (later : List Byte) (hl : s.linkUp = true) (ho : s.owner = .te)
    (ha : s.teState.active = false) : afterSteps (later.map .rxByte) s = .next s := by
  induction later with
  | nil => rfl
  | cons b later ih =>
    rw [List.map_cons, afterSteps_cons, exec_rxByte_te b hl ho, teReceive_inactive b ha, andThen_next, ih]

end

/-- Settles O34: a run of failing replies within the budget and an ACK, or one that exhausts the budget and ends the
session. -/
theorem retryBoundLaw : Obligations.RetryBoundLaw := by
  intro s bs fails hl ho hs hp hbudget hlimit _ hb hf
  rw [← hbudget] at hlimit ⊢
  refine ⟨fun nb hlt hnext hnb => ?_, fun hlt hlast => ?_, fun later hlen => ?_⟩
  · rw [afterSteps_failing_ack hl ho hs hp hb hf hlt]
    exact ⟨_, teAckData_block_eq (s := s.retried _ _) hnext hnb, hs, rfl, rfl⟩
  · rw [afterSteps_failing_ack hl ho hs hp hb hf hlt]
    exact ⟨_, teAckData_eot_eq (s := s.retried _ _) hlast, hs, rfl, rfl⟩
  · have hone : s.retriesLeft - BitVec.ofNat 8 (s.retriesLeft.toNat - 1) = 1 := by bv_omega
    have habort := (afterSteps_failing_exhausts hl ho hs hp hb hf hlen hlimit).trans
      (teFailedAttempt_exhausted (s := s.retried _ _) hone hs)
    rw [afterSteps_append habort]
    exact ⟨_, afterSteps_rxBytes_inactive later hl ho rfl, rfl, rfl, rfl⟩

end Sys2Proof.Machine
end

section
/-! A whole transfer (43_transfer_engine.md R200): TE_START, 'C' and an ACK of every transmission. -/

namespace Sys2Proof.Machine

/-- The first `k` blocks of an image on the wire, in order. -/
def imageBlocks (img : List Byte) (k : Nat) : List Byte := ((List.range k).map fun j => imageBlock img (j + 1)).flatten

theorem imageBlocks_succ (img : List Byte) (k : Nat) :
    imageBlocks img (k + 1) = imageBlocks img k ++ imageBlock img (k + 1) := by
  simp [imageBlocks, List.range_succ]

/-- The session that transfers `img` in `n` blocks: its port, its image and its length, and no error. -/
structure Transferring (s : State) (img : List Byte) (n : Nat) : Prop where
  linkUp : s.linkUp = true
  owner : s.owner = .te
  image : holdsImage s img
  total : s.totalBlocks.toNat = n
  noError : s.teErr = { kind := .none, phase := .none, block := 0, retries := 0 }

/-- Block `k` of the transfer was sent last, after the blocks before it. -/
structure BlockSent (s : State) (img : List Byte) (n k : Nat) (log : List Byte) : Prop extends Transferring s img n where
  sending : s.teState = .sending
  phase : s.tePhase = .data
  index : s.curIndex.toNat = k
  sent : s.txlog = log ++ imageBlocks img k

/-- The end of the transfer was sent last, after all its blocks. -/
structure EotSent (s : State) (img : List Byte) (n : Nat) (log : List Byte) : Prop extends Transferring s img n where
  sending : s.teState = .sending
  phase : s.tePhase = .eot
  progress : s.progress.toNat = n
  sent : s.txlog = log ++ imageBlocks img n ++ [0x04]

section

variable {s : State} {img log : List Byte} {n k : Nat}

/-- Each block of an image in the buffer has its bytes, the last one those that are left (43_transfer_engine.md R183). -/
theorem blockHeld_of_holdsImage (h : holdsImage s img) (k : Nat) :
    blockHeld s k ((img.drop (blockStart k)).take 128) := by
  obtain ⟨hlen, hread⟩ := h
  refine ⟨by rw [List.length_take, List.length_drop, hlen]; rfl, fun j hj => ?_⟩
  rw [List.length_take, List.length_drop] at hj
  have := hread (blockStart k + j) (by omega)
  rw [Nat.zero_add] at this
  rw [this, List.getElem_take, List.getElem_drop]

theorem blockCount_eq {len : Word} (h1 : len.toNat ≤ 128 * n) (h2 : 128 * n < len.toNat + 128) :
    (blockCount len).toNat = n := by
  rw [blockCount_toNat]
  omega

/-! ### TE_START, and the answers to 'C' and to ACK -/

theorem Transferring.of_teStart (ha : s.teState.active = false) (hl : s.linkUp = true) (ho : s.owner = .te)
    (hfits : s.imgLen.toNat ≤ s.params.imageMax.toNat) (himg : holdsImage s img) (hn : (blockCount s.imgLen).toNat = n) :
    ∃ t, exec .teStart s = .next t ∧ Transferring t img n ∧ t.teState = .awaitHandshake ∧ t.progress = 0 ∧
      t.txlog = s.txlog :=
  ⟨_, execTeStart_starts ha ho hl hfits, ⟨hl, ho, himg, hn, rfl⟩, rfl, rfl, rfl⟩

theorem BlockSent.of_handshake (h : Transferring s img (n + 1)) (hs : s.teState = .awaitHandshake) :
    ∃ t, exec (.rxByte 0x43) s = .next t ∧ BlockSent t img (n + 1) 1 s.txlog := by
  have hne : s.totalBlocks ≠ 0 := by have := h.total; bv_omega
  rw [exec_handshake h.linkUp h.owner hs, teHandshake_block hne (blockHeld_of_holdsImage h.image 1)]
  exact ⟨_, rfl, { h with sending := rfl, phase := rfl, index := rfl, sent := by simp [imageBlocks, imageBlock] }⟩

theorem EotSent.of_handshake (h : Transferring s img 0) (hs : s.teState = .awaitHandshake) (hp : s.progress = 0) :
    ∃ t, exec (.rxByte 0x43) s = .next t ∧ EotSent t img 0 s.txlog := by
  have hzero : s.totalBlocks = 0 := BitVec.eq_of_toNat_eq h.total
  rw [exec_handshake h.linkUp h.owner hs, teHandshake_eot hzero]
  have hprogress : s.progress.toNat = 0 := congrArg BitVec.toNat hp
  exact ⟨_, rfl, { h with sending := rfl, phase := rfl, progress := hprogress, sent := by simp [imageBlocks] }⟩

theorem BlockSent.ack (h : BlockSent s img n k log) (hk : k < n) :
    ∃ t, exec (.rxByte 0x06) s = .next t ∧ BlockSent t img n (k + 1) log := by
  obtain ⟨hte, hs, hp, rfl, hsent⟩ := h
  have hlt : s.curIndex.toNat < s.totalBlocks.toNat := hte.total ▸ hk
  rw [exec_ack_data hte.linkUp hte.owner hs hp, teAckData_block_eq hlt (blockHeld_of_holdsImage hte.image _)]
  refine ⟨_, rfl, { hte with sending := hs, phase := hp, index := toNat_add_one_of_lt hlt, sent := ?_ }⟩
  simp only [hsent, imageBlocks_succ, imageBlock, List.append_assoc]

theorem BlockSent.ack_last (h : BlockSent s img n n log) :
    ∃ t, exec (.rxByte 0x06) s = .next t ∧ EotSent t img n log := by
  obtain ⟨hte, hs, hp, hindex, hsent⟩ := h
  have hge : s.totalBlocks.toNat ≤ s.curIndex.toNat := Nat.le_of_eq (hte.total.trans hindex.symm)
  rw [exec_ack_data hte.linkUp hte.owner hs hp, teAckData_eot_eq hge]
  exact ⟨_, rfl, { hte with sending := hs, phase := rfl, progress := hindex, sent := congrArg (· ++ [0x04]) hsent }⟩

/-- ACKs of all blocks but the last one. -/
theorem BlockSent.acks (j : Nat) (h : BlockSent s img n k log) (hk : k + j ≤ n) :
    ∃ t, afterSteps (List.replicate j (.rxByte 0x06)) s = .next t ∧ BlockSent t img n (k + j) log := by
  induction j generalizing s k with
  | zero => exact ⟨s, rfl, h⟩
  | succ j ih =>
    obtain ⟨u, hu, hsent⟩ := h.ack (by omega)
    rw [List.replicate_succ, afterSteps_cons, hu, andThen_next, ← Nat.add_assoc, Nat.add_right_comm]
    exact ih hsent (by omega)

/-- The session after 'C' and the ACKs of all blocks: it waits for the ACK of EOT. -/
theorem EotSent.of_acks (h : Transferring s img n) (hs : s.teState = .awaitHandshake) (hp : s.progress = 0) :
    ∃ t, afterSteps (.rxByte 0x43 :: List.replicate n (.rxByte 0x06)) s = .next t ∧ EotSent t img n s.txlog := by
  cases n with
  | zero =>
    obtain ⟨t, ht, hsent⟩ := EotSent.of_handshake h hs hp
    exact ⟨t, (afterSteps_singleton _ s).trans ht, hsent⟩
  | succ n =>
    obtain ⟨u, hu, hfirst⟩ := BlockSent.of_handshake h hs
    obtain ⟨v, hv, hlast⟩ := hfirst.acks n (by omega)
    rw [Nat.add_comm 1 n] at hlast
    obtain ⟨t, ht, hsent⟩ := hlast.ack_last
    refine ⟨t, ?_, hsent⟩
    rw [afterSteps_cons, hu, andThen_next, List.replicate_succ', afterSteps_append hv, afterSteps_singleton, ht]

end

/-- Settles O35: TE_START begins the transfer, `EotSent.of_acks` runs it, and the last ACK completes it. -/
theorem endToEndTransfer : Obligations.EndToEndTransfer := by
  intro s img n hl ho h1 h2 himg hfits hle hlt
  have hn : (blockCount s.imgLen).toNat = n := by rw [himg.left] at hle hlt; exact blockCount_eq hle hlt
  obtain ⟨u, hstart, hu, hs, hp, hlog⟩ := Transferring.of_teStart ((inactive_iff _).2 ⟨h1, h2⟩) hl ho hfits himg hn
  obtain ⟨t, hrun, ht⟩ := EotSent.of_acks hu hs hp
  rw [hlog] at ht
  refine ⟨enterTerminal .complete t, ?_, rfl, ht.total, ht.progress, ht.noError, ht.sent⟩
  rw [afterSteps_cons, hstart, andThen_next, List.replicate_succ', ← List.cons_append, afterSteps_append hrun,
    afterSteps_singleton]
  exact exec_ack_eot ht.linkUp ht.owner ht.sending ht.phase

end Sys2Proof.Machine
end

section
/-! The end of a session (43_transfer_engine.md R197): what every step that enters a terminal state does. -/

namespace Sys2Proof.Machine

section

variable {s t : State}

/-- If STATE enters a terminal state, TE_DONE is set and the port keeps its owner. -/
def EndsSignalled (s t : State) : Prop :=
  s.teState.terminal = false → t.teState.terminal = true → t.irq.teDone = true ∧ t.owner = s.owner

theorem EndsSignalled.of_teState_eq (h : t.teState = s.teState) : EndsSignalled s t :=
  fun h0 h1 => by simp [h, h0] at h1

theorem EndsSignalled.of_not_terminal (h : t.teState.terminal = false) : EndsSignalled s t :=
  fun _ h1 => by simp [h] at h1

theorem EndsSignalled.of_teFailedAttempt (h : teFailedAttempt s = .next t) : EndsSignalled s t := by
  rcases teFailedAttempt_next h with ⟨-, rfl⟩ | ⟨-, -, bs, -, rfl⟩ | ⟨-, -, rfl⟩
  · exact fun _ _ => ⟨rfl, rfl⟩
  · exact .of_teState_eq rfl
  · exact .of_teState_eq rfl

theorem EndsSignalled.of_teReceive {b : Byte} (h : teReceive b s = .next t) : EndsSignalled s t := by
  rcases teReceive_next h with rfl | ⟨-, -, h⟩ | ⟨-, -, -, h⟩ | ⟨-, -, -, rfl⟩ | ⟨-, -, h⟩
  · exact .of_teState_eq rfl
  · rcases teHandshake_next h with ⟨-, rfl⟩ | ⟨-, bs, -, rfl⟩ <;> exact .of_not_terminal rfl
  · rcases teAckData_next h with ⟨-, bs, -, rfl⟩ | ⟨-, rfl⟩ <;> exact .of_teState_eq rfl
  · exact fun _ _ => ⟨rfl, rfl⟩
  · exact .of_teFailedAttempt h

theorem EndsSignalled.of_receiveByte {b : Byte} (h : receiveByte b s = .next t) : EndsSignalled s t := by
  obtain ⟨-, ⟨-, rfl⟩ | ⟨-, h⟩⟩ := receiveByte_next h
  · exact .of_teState_eq (by simp [fcReceive_eq])
  · exact .of_teReceive h

theorem EndsSignalled.of_execTimeout (h : execTimeout s = .next t) : EndsSignalled s t := by
  rcases execTimeout_next h with ⟨-, rfl⟩ | ⟨-, h⟩
  · exact fun _ _ => ⟨rfl, rfl⟩
  · exact .of_teFailedAttempt h

theorem EndsSignalled.of_execPortFault (h : execPortFault s = .next t) : EndsSignalled s t := by
  obtain ⟨-, ⟨-, rfl⟩ | ⟨-, rfl⟩⟩ := execPortFault_next h
  · exact .of_teState_eq rfl
  · exact fun _ _ => ⟨rfl, rfl⟩

/-- Of the commands only TE_CANCEL ends a session. -/
theorem EndsSignalled.of_command {c : Command} (h : exec c.toInstr s = .next t) : EndsSignalled s t := by
  cases c with
  | nop | fcRxRestart => cases h; exact .of_teState_eq rfl
  | fcSend => rcases execFcSend_next h with ⟨_, rfl⟩ | ⟨-, -, payload, -, rfl⟩ <;> exact .of_teState_eq rfl
  | fcRxPop => rcases execFcRxPop_next h with ⟨_, rfl⟩ | ⟨f, rest, -, rfl⟩ <;> exact .of_teState_eq rfl
  | portGrantTe => rcases execPortGrantTe_next h with ⟨_, rfl⟩ | ⟨-, rfl⟩ <;> exact .of_teState_eq rfl
  | portReturnFc => rcases execPortReturnFc_next h with ⟨_, rfl⟩ | ⟨-, -, rfl⟩ <;> exact .of_teState_eq rfl
  | teStart =>
    rcases execTeStart_next h with ⟨_, rfl⟩ | ⟨-, -, -, -, rfl⟩
    · exact .of_teState_eq rfl
    · exact .of_not_terminal rfl
  | teCancel =>
    rcases cancelSession_next h with ⟨_, rfl⟩ | ⟨-, rfl⟩
    · exact .of_teState_eq rfl
    · exact fun _ _ => ⟨rfl, rfl⟩
  | blockVerify => obtain ⟨v, -, rfl⟩ := execBlockVerify_next h; exact .of_teState_eq rfl

theorem EndsSignalled.of_execRegWr {off : Byte} {v : Word} (h : execRegWr off v s = .next t) : EndsSignalled s t := by
  rcases execRegWr_next h with ⟨r, rfl⟩ | ⟨-, c, -, h⟩ | ⟨-, rfl⟩
  · obtain ⟨-, -, -, -, -, hstate, -⟩ := writeReg_keeps r v s
    exact .of_teState_eq hstate
  · exact .of_command h
  · exact .of_teState_eq rfl

theorem EndsSignalled.of_execBufWr {sp : Space} {a : Word} {b : Byte} (h : execBufWr sp a b s = .next t) :
    EndsSignalled s t := by
  obtain ⟨-, ⟨-, rfl⟩ | ⟨-, rfl⟩⟩ := execBufWr_next h <;> exact .of_teState_eq (by simp)

/-- By the steps of 30_encoding.md R84. -/
theorem EndsSignalled.of_agentStep {i : Instr} (hi : agentStep i) (h : exec i s = .next t) : EndsSignalled s t := by
  cases i with
  | rxByte b => exact .of_receiveByte h
  | timeout => exact .of_execTimeout h
  | portFault => exact .of_execPortFault h
  | portReopen => obtain ⟨-, rfl⟩ := execPortReopen_next h; exact .of_teState_eq rfl
  | reset => cases h; exact .of_not_terminal rfl
  | regWr off v => exact .of_execRegWr h
  | regRd off => obtain ⟨v, rfl⟩ := execRegRd_next h; exact .of_teState_eq rfl
  | bufWr sp a b => exact .of_execBufWr h
  | bufRd sp a => obtain ⟨v, n, rfl⟩ := execBufRd_next h; exact .of_teState_eq rfl
  | _ => exact hi.elim

end

/-- Settles O36: the next state of any instruction is that of a step of an agent, or a FRAME only queues steps. -/
theorem terminalEntrySetsTeDone : Obligations.TerminalEntrySetsTeDone := by
  intro i s t h
  change EndsSignalled s t
  rcases exec_next_agentStep_or_frame h with ⟨j, hj, h⟩ | ⟨_, _, _, _, steps, -, -, rfl⟩
  · exact .of_agentStep hj h
  · exact .of_teState_eq rfl

end Sys2Proof.Machine
end

section
/-! Errors (60_exceptions.md): what a command with a code other than OK leaves behind, and what a model fault names. -/

namespace Sys2Proof.Machine

section

variable {s t : State} {f : Fault}

/-! ### Result codes (60_exceptions.md R231) -/

/-- A command writes CMD_RESULT alone, or it has succeeded. -/
theorem command_next_resultOnly_or_ok {c : Command} (h : exec c.toInstr s = .next t) :
    (∃ r, t = { s with result := r }) ∨ t.result = .ok := by
  cases c with
  | nop | fcRxRestart => cases h; exact .inr rfl
  | fcSend => exact (execFcSend_next h).imp_right fun ⟨_, _, _, _, ht⟩ => ht ▸ rfl
  | fcRxPop => exact (execFcRxPop_next h).imp_right fun ⟨_, _, _, ht⟩ => ht ▸ rfl
  | portGrantTe => exact (execPortGrantTe_next h).imp_right fun ⟨_, ht⟩ => ht ▸ rfl
  | portReturnFc => exact (execPortReturnFc_next h).imp_right fun ⟨_, _, ht⟩ => ht ▸ rfl
  | teStart => exact (execTeStart_next h).imp_right fun ⟨_, _, _, _, ht⟩ => ht ▸ rfl
  | teCancel => exact (cancelSession_next h).imp_right fun ⟨_, ht⟩ => ht ▸ rfl
  | blockVerify => obtain ⟨v, -, rfl⟩ := execBlockVerify_next h; exact .inr rfl

/-! ### Instructions that consume no buffer byte -/

theorem execPortGrantTe_ne_fault : execPortGrantTe s ≠ .fault f := by
  unfold execPortGrantTe
  split <;> exact finish_ne_fault _ _ f

theorem execPortReturnFc_ne_fault : execPortReturnFc s ≠ .fault f := by
  unfold execPortReturnFc
  split
  · exact finish_ne_fault _ _ f
  · split <;> exact finish_ne_fault _ _ f

theorem execFcRxPop_ne_fault : execFcRxPop s ≠ .fault f := by
  unfold execFcRxPop
  split <;> exact finish_ne_fault _ _ f

theorem execTeStart_ne_fault : execTeStart s ≠ .fault f := by
  unfold execTeStart
  repeat' split
  all_goals exact finish_ne_fault _ _ f

theorem cancelSession_ne_fault : cancelSession s ≠ .fault f := by
  unfold cancelSession
  split <;> exact finish_ne_fault _ _ f

theorem execPortFault_ne_fault : execPortFault s ≠ .fault f := by
  unfold execPortFault
  split
  · nofun
  · dsimp only
    split <;> nofun

theorem execPortReopen_ne_fault : execPortReopen s ≠ .fault f := by
  unfold execPortReopen
  split <;> nofun

theorem execRegRd_ne_fault {off : Byte} : execRegRd off s ≠ .fault f := by
  unfold execRegRd
  split <;> nofun

theorem execBufWr_ne_fault {sp : Space} {a : Word} {b : Byte} : execBufWr sp a b s ≠ .fault f := by
  unfold execBufWr
  split
  · nofun
  · split <;> nofun

/-- A host read of a byte with no value draws one (20_memory.md R62). -/
theorem execBufRd_ne_fault {sp : Space} {a : Word} : execBufRd sp a s ≠ .fault f := by
  unfold execBufRd
  split
  · nofun
  · split <;> nofun

theorem execFrame_ne_fault {dir : Direction} {id : Byte} {type : Half} {payload : List Byte} :
    execFrame dir id type payload s ≠ .fault f := by
  unfold execFrame
  split
  · nofun
  · cases dir <;> nofun

theorem execBlock_ne_fault {blk : Byte} {payload : List Byte} : execBlock blk payload s ≠ .fault f := by
  unfold execBlock
  split
  · nofun
  · exact transmittedOn_ne_fault _ _ s f

/-! ### Model faults (60_exceptions.md R246) -/

/-- The fault names a buffer byte that holds no value in this state. -/
def NamesMissingByte (s : State) (f : Fault) : Prop :=
  ∃ (sp : Space) (a : Nat), f = .uninitByte sp a ∧ Memory.read (s.buffer sp) a = none

theorem NamesMissingByte.of_memRead {sp : Space} {a n : Nat} (h : memRead sp (s.buffer sp) a n = .error f) :
    NamesMissingByte s f :=
  have ⟨k, _, hf, hnone, _⟩ := memRead_error h
  ⟨sp, a + k, hf, hnone⟩

/-- A command that goes on to `finish` with the bytes it reads faults only on one of these bytes. -/
theorem NamesMissingByte.of_withBytes_finish {sp : Space} {a n : Nat} {c : ResultCode} {g : List Byte → State}
    (h : withBytes (memRead sp (s.buffer sp) a n) (fun bs => finish c (g bs)) = .fault f) : NamesMissingByte s f := by
  rcases withBytes_eq_fault h with h | ⟨bs, -, h⟩
  · exact .of_memRead h
  · exact absurd h (finish_ne_fault c _ f)

theorem NamesMissingByte.of_execFcSend (h : execFcSend s = .fault f) : NamesMissingByte s f := by
  unfold execFcSend at h
  split at h
  · exact absurd h (finish_ne_fault _ _ f)
  · split at h
    · exact absurd h (finish_ne_fault _ _ f)
    · exact .of_withBytes_finish (sp := .txbuf) h

theorem NamesMissingByte.of_receiveByte {b : Byte} (h : receiveByte b s = .fault f) : NamesMissingByte s f :=
  ⟨.image, receiveByte_fault h⟩

theorem NamesMissingByte.of_execTimeout (h : execTimeout s = .fault f) : NamesMissingByte s f := by
  unfold execTimeout at h
  split at h
  case h_2 => exact ⟨.image, teFailedAttempt_fault h⟩
  all_goals cases h

/-- Of the commands only FC_SEND and BLOCK_VERIFY consume buffer bytes. -/
theorem NamesMissingByte.of_command {c : Command} (h : exec c.toInstr s = .fault f) : NamesMissingByte s f := by
  cases c with
  | nop | fcRxRestart => cases h
  | fcSend => exact .of_execFcSend h
  | fcRxPop => exact absurd h execFcRxPop_ne_fault
  | portGrantTe => exact absurd h execPortGrantTe_ne_fault
  | portReturnFc => exact absurd h execPortReturnFc_ne_fault
  | teStart => exact absurd h execTeStart_ne_fault
  | teCancel => exact absurd h cancelSession_ne_fault
  | blockVerify => exact .of_withBytes_finish (sp := .vbuf) h

theorem runOpcode_fault {op : Byte} (h : runOpcode op s = .fault f) : ∃ c : Command, exec c.toInstr s = .fault f := by
  cases hop : Command.ofOpcode? op with
  | none => rw [runOpcode, hop] at h; cases h
  | some c => rw [runOpcode, hop] at h; exact ⟨c, by cases c <;> exact h⟩

theorem NamesMissingByte.of_execRegWr {off : Byte} {v : Word} (h : execRegWr off v s = .fault f) :
    NamesMissingByte s f := by
  unfold execRegWr at h
  split at h
  case h_2 => obtain ⟨c, h⟩ := runOpcode_fault h; exact .of_command h
  all_goals cases h

theorem NamesMissingByte.of_exec {i : Instr} (h : exec i s = .fault f) : NamesMissingByte s f := by
  cases i with
  | nop => exact .of_command (c := .nop) h
  | fcSend => exact .of_command (c := .fcSend) h
  | fcRxPop => exact .of_command (c := .fcRxPop) h
  | fcRxRestart => exact .of_command (c := .fcRxRestart) h
  | portGrantTe => exact .of_command (c := .portGrantTe) h
  | portReturnFc => exact .of_command (c := .portReturnFc) h
  | teStart => exact .of_command (c := .teStart) h
  | teCancel | canCan => exact .of_command (c := .teCancel) h
  | blockVerify => exact .of_command (c := .blockVerify) h
  | rxByte | ack | nak | handshakeC => exact .of_receiveByte h
  | timeout => exact .of_execTimeout h
  | portFault => exact absurd h execPortFault_ne_fault
  | portReopen => exact absurd h execPortReopen_ne_fault
  | reset => cases h
  | regWr => exact .of_execRegWr h
  | regRd => exact absurd h execRegRd_ne_fault
  | bufWr => exact absurd h execBufWr_ne_fault
  | bufRd => exact absurd h execBufRd_ne_fault
  | frame => exact absurd h execFrame_ne_fault
  | block => exact absurd h execBlock_ne_fault
  | eot => exact absurd h (transmittedOn_ne_fault _ _ s f)

end

/-! ### The statements -/

/-- Settles O18: a code other than OK leaves the first case of `command_next_resultOnly_or_ok`. -/
theorem failedCommandChangesResultOnly : Obligations.FailedCommandChangesResultOnly := by
  intro c s t h hfailed
  rcases command_next_resultOnly_or_ok h with ⟨r, rfl⟩ | hok
  · rfl
  · exact absurd hok hfailed

/-- Settles O59: FC_SEND, BLOCK_VERIFY and the transmission of a block stop at a byte with no value, and nothing else
faults. -/
theorem faultNamesByteWithNoValue : Obligations.FaultNamesByteWithNoValue :=
  fun _ _ _ h => NamesMissingByte.of_exec h

end Sys2Proof.Machine
end

section
namespace Sys2Proof.Machine

/-! ### Reset (70_reset_and_hazards.md R260, R261) -/

/-- The state RESET leaves: the reset state with the transmitted stream, the parameters and the model's own fields of the state
before (log 18). -/
def State.afterReset (s : State) : State :=
  { State.reset with
    params := s.params, txlog := s.txlog, pending := s.pending, readData := s.readData, draws := s.draws }

theorem exec_reset (s : State) : exec .reset s = .next s.afterReset := rfl

/-- No register shows what RESET keeps: each one reads as in the reset state itself. -/
theorem readReg_afterReset (s : State) (r : HostReg) : readReg s.afterReset r = readReg State.reset r := by
  cases r <;> rfl

theorem irqLine_afterReset (s : State) : irqLine s.afterReset = irqLine State.reset := rfl

theorem buffer_afterReset (s : State) (sp : Space) : s.afterReset.buffer sp = [] := by cases sp <;> rfl

/-- Settles O42: the state after RESET shows the registers of the reset state, whatever state came before, so the table of
R260 is a finite fact about that one state. -/
theorem resetRestoresEveryRegister : Obligations.ResetRestoresEveryRegister := by
  intro s
  refine ⟨s.afterReset, exec_reset s, ?registers, ⟨rfl, rfl, fun sp a => ?buffers⟩, rfl⟩
  case registers =>
    simp only [readReg_afterReset, irqLine_afterReset]
    decide
  case buffers => rw [buffer_afterReset, Memory.read_nil]

end Sys2Proof.Machine
end
